-- ==== Sys2Proof/Word.lean ====
section
/-!
DEFINITION. Word types of the block: bytes, 16-bit registers, 32-bit values, tokens, the 80-bit command word
and the 44-bit response word (00_scope.md R8, 30_encoding.md R80, R81).
-/

namespace Sys2Proof

/-- A data byte (20_memory.md R65). -/
abbrev Byte := BitVec 8

/-- A 16-bit register: ring capacity and indices, baud divisor registers (10_state.md R21, R27). -/
abbrev Half := BitVec 16

/-- A 32-bit value: an address, a baud rate, the `data` field of a response (30_encoding.md R81). -/
abbrev Word := BitVec 32

/-- A 32-bit value that names code the core agent runs (10_state.md R42). -/
abbrev Token := BitVec 32

/-- The command word `CMD[79:0]` (30_encoding.md R80). -/
abbrev Command := BitVec 80

/-- The response word `RSP[43:0]` (30_encoding.md R81). -/
abbrev ResponseWord := BitVec 44

end Sys2Proof
end

