-- ==== Sys2Proof/Config.lean ====
section
/-!
DEFINITION. What an implementation fixes (00_scope.md R6, R7), the constants the source fixes, the error codes of
60_exceptions.md R240, and the free values: opaque constants of which nothing can be proved.
-/

namespace Sys2Proof

/-- `BRG_MOD`, the baud modulus (R6, fixed). -/
def Config.brgMod : Nat := 9999

/-- `FIFO_DEPTH`, the entries of each hardware FIFO (R6, fixed). -/
def Config.fifoDepth : Nat := 32

/-- `RX_TRIG`, the RX trigger level that port initialisation loads (R6). -/
def Config.rxTrig : BitVec 6 := 1

/-- `TX_TRIG`, the TX trigger level that port initialisation loads (R6). -/
def Config.txTrig : BitVec 6 := 31

/-- `N_TRAPS`, the entries of the trap table (R6). -/
abbrev Config.nTraps : Nat := 8

/-- `OVERSAMPLE`, recorded as the source states it; no rule uses it (R6, 90_conflicts.md C1). -/
def Config.oversample : Nat := 8

/-- FREE VALUE. What the byte of memory at an address holds that nothing has written since reset
(20_memory.md R61: any value, each byte independently). Log entry 8. -/
opaque Config.initByte : Nat → Byte

/-- FREE VALUE. Whether a divider with `BR_INC > BR_MOD` ticks at the n-th draw (41_brg.md R126: the tick output is
not specified). Log entry 9. -/
opaque Config.freeTick : Nat → Bool

/-- The `status` of a response (60_exceptions.md R240). Codes 4 to 14 are never produced, so they have no name. -/
inductive Status where
  | ok
  | invalidParameter
  | noSuchDevice
  | invalidArgument
  | illegalCommand
deriving DecidableEq, Repr

/-- The code of a status in `RSP[43:40]` (R240). -/
def Status.code : Status → BitVec 4
  | .ok => 0
  | .invalidParameter => 1
  | .noSuchDevice => 2
  | .invalidArgument => 3
  | .illegalCommand => 15

/-- The four pin assignments of a port, carried only in the pin-routing event (R6, 42_uart_seq.md R141). -/
structure Pins where
  tx : Nat
  rx : Nat
  cts : Nat
  rts : Nat
deriving DecidableEq, Repr

/-- The parameters that belong to one UART port (R6): its interrupt source `UART_SRC(p)`, the two storage regions
and the pins. -/
structure Wires where
  src : Nat
  rxBase : Word
  txBase : Word
  pins : Pins
deriving DecidableEq, Repr

/-- The implementation parameters of R6 that the spec leaves OPEN. They are carried as data in the state, so that a
statement over all states is a statement over all parameters (log entry 1). `UNSET_DISPATCH` is the block's `noop`
(log entry 7) and `TRAP_LATENCY` is a choice of the agenda (log entry 4). -/
structure Params where
  /-- One entry per port; `N_PORTS` is its length. -/
  wires : List Wires
  /-- `N_SRC`. -/
  nSrc : Nat
  /-- `prio` (44_itc.md R191): entry `s` is `prio(s)`, and a source without an entry has `prio(s) = s`. -/
  prioTable : List Nat
  /-- `CORE_CLOCK` in hertz. -/
  coreClock : Nat
  /-- `UART_BUF_CAP`. -/
  bufCap : Half
deriving DecidableEq, Repr

/-- `N_PORTS` of the parameters. -/
def Params.nPorts (P : Params) : Nat := P.wires.length

/-- The parameters of port `p`. -/
def Params.wire (P : Params) (p : Nat) : Wires := P.wires.getD p ⟨0, 0, 0, ⟨0, 0, 0, 0⟩⟩

/-- `UART_SRC(p)`. -/
def Params.uartSrc (P : Params) (p : Nat) : Nat := (P.wire p).src

/-- The port whose request wire drives source `src`, if one does (10_state.md R39). -/
def Params.portOfSrc (P : Params) (src : Nat) : Option Nat := P.wires.findIdx? (fun w => w.src == src)

/-- `prio(s)` (44_itc.md R191; a parameter, 93_implementation_defined.md U6). -/
def Params.prio (P : Params) (src : Nat) : Nat := P.prioTable.getD src src

/-- The base addresses of the `2 * N_PORTS` storage regions. -/
def Params.bases (P : Params) : List Nat := P.wires.flatMap fun w => [w.rxBase.toNat, w.txBase.toNat]

/-- The constraints on the parameters (R6, R7, R191): counts in range, `UART_SRC` injective and below `N_SRC`,
`CORE_CLOCK >= 16`, a non-zero ring capacity, regions that neither wrap nor overlap, and `prio` injective on the
sources with values below `N_SRC`, so that `SVC_FLOOR` keeps its legal values (log entry 11). -/
abbrev Params.Valid (P : Params) : Prop :=
  (1 ≤ P.nPorts ∧ P.nPorts ≤ 127) ∧ (1 ≤ P.nSrc ∧ P.nSrc ≤ 32) ∧
  (P.wires.map Wires.src).Nodup ∧ (∀ w ∈ P.wires, w.src < P.nSrc) ∧
  16 ≤ P.coreClock ∧ 1 ≤ P.bufCap.toNat ∧
  (∀ b ∈ P.bases, b + P.bufCap.toNat ≤ 2 ^ 32) ∧
  P.bases.Pairwise (fun x y => x + P.bufCap.toNat ≤ y ∨ y + P.bufCap.toNat ≤ x) ∧
  (∀ src ∈ List.range P.nSrc, P.prio src < P.nSrc) ∧
  ((List.range P.nSrc).map P.prio).Nodup

/-- The reference values of R6; what R6 gives no reference value (`UART_BUF_CAP`, the pins) is log entry 2. -/
def Params.reference : Params where
  wires :=
    [⟨1, 0x00400000, 0x00400100, ⟨14, 15, 16, 17⟩⟩,
     ⟨2, 0x00400200, 0x00400300, ⟨18, 19, 20, 21⟩⟩]
  nSrc := 11
  prioTable := []
  coreClock := 24000000
  bufCap := 8

end Sys2Proof
end

