-- ==== Sys2Proof/Syntax.lean ====
section
/-!
DEFINITION. The 38 commands of 30_encoding.md R85, one constructor per row of the opcode table. An operand has the
width of its field (R83, R84), so a command whose must-be-zero bits are set has no term.
-/

namespace Sys2Proof

/-- One command, its operands as the format of R83 carries them. -/
inductive Instr where
  | cbInit (ring : BitVec 8) (base : Word) (cap : Half)
  | cbWrite (ring : BitVec 8) (v : Byte)
  | cbRead (ring : BitVec 8)
  | cbIsFull (ring : BitVec 8)
  | cbIsEmpty (ring : BitVec 8)
  | brgLoad (port : BitVec 8) (baud : Word)
  | brgRead (port : BitVec 8)
  | uartInit (port : BitVec 8) (baud : Word) (name : Word)
  | uartSetRxCb (port : BitVec 8) (token : Token)
  | uartSetTxCb (port : BitVec 8) (token : Token)
  | uartRxiSet (port : BitVec 8) (v : BitVec 1)
  | uartTxiSet (port : BitVec 8) (v : BitVec 1)
  | uartTxfPut (port : BitVec 8) (v : Byte)
  | uartRxfGet (port : BitVec 8)
  | uartStatus (port : BitVec 8)
  | uartIsr (port : BitVec 8)
  | itcInit
  | itcSetHandler (src : BitVec 8) (token : Token)
  | itcSetPriority (src : BitVec 8) (cls : BitVec 1)
  | itcEnable (src : BitVec 8)
  | itcDisable (src : BitVec 8)
  | itcForce (src : BitVec 8)
  | itcUnforce (src : BitVec 8)
  | itcDisableInts
  | itcRestoreInts (saved : Word)
  | itcReadNivec
  | itcReadFivec
  | itcSvcNEnter
  | itcSvcNReturn
  | itcSvcF
  | excDisableIrq
  | excDisableFiq
  | excDisableInts
  | excRestoreIrq (saved : BitVec 2)
  | excRestoreFiq (saved : BitVec 2)
  | excRestoreInts (saved : BitVec 2)
  | excSetHandler (trap : BitVec 8) (token : Token)
  | excGetHandler (trap : BitVec 8)
deriving DecidableEq, Repr

end Sys2Proof
end

