-- ==== Sys2Proof/WellFormed.lean ====
section
/-!
DEFINITION. Well-formedness of a command: the operand checks of 60_exceptions.md R241 that need only the counts of
the four id spaces (20_memory.md R62), in the order R86 and R250 give them.
-/

namespace Sys2Proof

/-- The counts the ids are compared with (30_encoding.md R84). -/
structure Limits where
  nRings : Nat
  nPorts : Nat
  nSrc : Nat
deriving DecidableEq, Repr

/-- The ring id check of 40_ring.md. -/
def Limits.ringError (L : Limits) (ring : BitVec 8) : Option Status :=
  if L.nRings ≤ ring.toNat then some .invalidParameter else none

/-- The port range check of 42_uart_seq.md R142, first case. -/
def Limits.portError (L : Limits) (port : BitVec 8) : Option Status :=
  if L.nPorts ≤ port.toNat then some .noSuchDevice else none

/-- The source check of 44_itc.md R194. -/
def Limits.srcError (L : Limits) (src : BitVec 8) : Option Status :=
  if L.nSrc ≤ src.toNat then some .invalidParameter else none

/-- The trap id check of 45_exc.md R226. -/
def Limits.trapError (trap : BitVec 8) : Option Status :=
  if Config.nTraps ≤ trap.toNat then some .invalidParameter else none

/-- The error R241 gives a command for its operands alone, whatever the registers hold; `none` where there is none.
(Whether a port is Configured is not an operand: 42_uart_seq.md R142.) -/
def Instr.operandError (L : Limits) : Instr → Option Status
  | .cbInit r base cap =>
      if L.nRings ≤ r.toNat then some .invalidParameter
      else if cap = 0 then some .invalidParameter
      else if 2 ^ 32 < base.toNat + cap.toNat then some .invalidParameter
      else none
  | .cbWrite r _ => L.ringError r
  | .cbRead r => L.ringError r
  | .cbIsFull r => L.ringError r
  | .cbIsEmpty r => L.ringError r
  | .brgLoad p _ => L.portError p
  | .brgRead p => L.portError p
  | .uartInit p _ name =>
      if L.nPorts ≤ p.toNat then some .noSuchDevice
      else if name = 0 then some .invalidArgument
      else none
  | .uartSetRxCb p _ => L.portError p
  | .uartSetTxCb p _ => L.portError p
  | .uartRxiSet p _ => L.portError p
  | .uartTxiSet p _ => L.portError p
  | .uartTxfPut p _ => L.portError p
  | .uartRxfGet p => L.portError p
  | .uartStatus p => L.portError p
  | .uartIsr p => L.portError p
  | .itcInit => none
  | .itcSetHandler s _ => L.srcError s
  | .itcSetPriority s _ => L.srcError s
  | .itcEnable s => L.srcError s
  | .itcDisable s => L.srcError s
  | .itcForce s => L.srcError s
  | .itcUnforce s => L.srcError s
  | .itcDisableInts => none
  | .itcRestoreInts _ => none
  | .itcReadNivec => none
  | .itcReadFivec => none
  | .itcSvcNEnter => none
  | .itcSvcNReturn => none
  | .itcSvcF => none
  | .excDisableIrq => none
  | .excDisableFiq => none
  | .excDisableInts => none
  | .excRestoreIrq _ => none
  | .excRestoreFiq _ => none
  | .excRestoreInts _ => none
  | .excSetHandler t _ => Limits.trapError t
  | .excGetHandler t => Limits.trapError t

/-- A command whose operands R241 accepts. -/
def Instr.wellFormed (L : Limits) (i : Instr) : Bool := (i.operandError L).isNone

end Sys2Proof
end

