-- ==== Sys2Proof/Decode.lean ====
section
/-!
DEFINITION. The command encoding of 30_encoding.md: fields (R80), formats (R83), the opcode map (R85), the decoding
order (R86), reserved and illegal words rejected by name (R87), the encoder, and the layout of the
response word (R81).
-/

namespace Sys2Proof

/-- `op`, `CMD[79:72]`. -/
def opOf (w : Command) : BitVec 8 := w.extractLsb' 72 8

/-- `sel`, `CMD[71:64]`. -/
def selOf (w : Command) : BitVec 8 := w.extractLsb' 64 8

/-- `a`, `CMD[63:32]`. -/
def aOf (w : Command) : Word := w.extractLsb' 32 32

/-- `b`, `CMD[31:0]`. -/
def bOf (w : Command) : Word := w.extractLsb' 0 32

/-- The command word with the four fields given (R80). -/
def packCommand (op sel : BitVec 8) (a b : Word) : Command := op ++ sel ++ a ++ b

/-- The nine formats of R83. -/
inductive Format where
  | z | s | a | sa | sab | sac | sb8 | sb1 | b2
deriving DecidableEq, Repr

/-- Whether the must-be-zero fields of a format are zero (R83). -/
def Format.zerosHold : Format → BitVec 8 → Word → Word → Bool
  | .z, sel, av, bv => sel == 0 && av == 0 && bv == 0
  | .s, _, av, bv => av == 0 && bv == 0
  | .a, sel, _, bv => sel == 0 && bv == 0
  | .sa, _, _, bv => bv == 0
  | .sab, _, _, _ => true
  | .sac, _, _, bv => bv.extractLsb' 16 16 == 0
  | .sb8, _, av, bv => av == 0 && bv.extractLsb' 8 24 == 0
  | .sb1, _, av, bv => av == 0 && bv.extractLsb' 1 31 == 0
  | .b2, sel, av, bv => sel == 0 && av == 0 && bv.extractLsb' 2 30 == 0

/-- The opcode map of R85: the format of an opcode and the command its operand fields give; `none` for a reserved
`op`. -/
def opcodeMap (op sel : BitVec 8) (a b : Word) : Option (Format × Instr) :=
  match op with
  | 0x10#8 => some (.sac, .cbInit sel a (b.setWidth 16))
  | 0x11#8 => some (.sb8, .cbWrite sel (b.setWidth 8))
  | 0x12#8 => some (.s, .cbRead sel)
  | 0x13#8 => some (.s, .cbIsFull sel)
  | 0x14#8 => some (.s, .cbIsEmpty sel)
  | 0x20#8 => some (.sa, .brgLoad sel a)
  | 0x21#8 => some (.s, .brgRead sel)
  | 0x30#8 => some (.sab, .uartInit sel a b)
  | 0x31#8 => some (.sa, .uartSetRxCb sel a)
  | 0x32#8 => some (.sa, .uartSetTxCb sel a)
  | 0x33#8 => some (.sb1, .uartRxiSet sel (b.setWidth 1))
  | 0x34#8 => some (.sb1, .uartTxiSet sel (b.setWidth 1))
  | 0x35#8 => some (.sb8, .uartTxfPut sel (b.setWidth 8))
  | 0x36#8 => some (.s, .uartRxfGet sel)
  | 0x37#8 => some (.s, .uartStatus sel)
  | 0x38#8 => some (.s, .uartIsr sel)
  | 0x40#8 => some (.z, .itcInit)
  | 0x41#8 => some (.sa, .itcSetHandler sel a)
  | 0x42#8 => some (.sb1, .itcSetPriority sel (b.setWidth 1))
  | 0x43#8 => some (.s, .itcEnable sel)
  | 0x44#8 => some (.s, .itcDisable sel)
  | 0x45#8 => some (.s, .itcForce sel)
  | 0x46#8 => some (.s, .itcUnforce sel)
  | 0x47#8 => some (.z, .itcDisableInts)
  | 0x48#8 => some (.a, .itcRestoreInts a)
  | 0x49#8 => some (.z, .itcReadNivec)
  | 0x4A#8 => some (.z, .itcReadFivec)
  | 0x4B#8 => some (.z, .itcSvcNEnter)
  | 0x4C#8 => some (.z, .itcSvcNReturn)
  | 0x4D#8 => some (.z, .itcSvcF)
  | 0x50#8 => some (.z, .excDisableIrq)
  | 0x51#8 => some (.z, .excDisableFiq)
  | 0x52#8 => some (.z, .excDisableInts)
  | 0x53#8 => some (.b2, .excRestoreIrq (b.setWidth 2))
  | 0x54#8 => some (.b2, .excRestoreFiq (b.setWidth 2))
  | 0x55#8 => some (.b2, .excRestoreInts (b.setWidth 2))
  | 0x56#8 => some (.sa, .excSetHandler sel a)
  | 0x57#8 => some (.s, .excGetHandler sel)
  | _ => none

/-- Why a word is no command (R87). -/
inductive DecodeError where
  /-- The `op` is not one of the 38 of R85. -/
  | reservedOp (op : BitVec 8)
  /-- A must-be-zero bit of the command's format is 1. -/
  | mustBeZero (op : BitVec 8)
deriving DecidableEq, Repr

/-- The decoder, in the order of R86: the opcode, then the must-be-zero bits. -/
def decode (w : Command) : Except DecodeError Instr :=
  match opcodeMap (opOf w) (selOf w) (aOf w) (bOf w) with
  | none => .error (.reservedOp (opOf w))
  | some (f, i) =>
      if f.zerosHold (selOf w) (aOf w) (bOf w) then .ok i else .error (.mustBeZero (opOf w))

/-- The encoder, written from the table of R85. -/
def encode : Instr → Command
  | .cbInit r base cap => packCommand 0x10 r base (cap.setWidth 32)
  | .cbWrite r v => packCommand 0x11 r 0 (v.setWidth 32)
  | .cbRead r => packCommand 0x12 r 0 0
  | .cbIsFull r => packCommand 0x13 r 0 0
  | .cbIsEmpty r => packCommand 0x14 r 0 0
  | .brgLoad p baud => packCommand 0x20 p baud 0
  | .brgRead p => packCommand 0x21 p 0 0
  | .uartInit p baud name => packCommand 0x30 p baud name
  | .uartSetRxCb p token => packCommand 0x31 p token 0
  | .uartSetTxCb p token => packCommand 0x32 p token 0
  | .uartRxiSet p v => packCommand 0x33 p 0 (v.setWidth 32)
  | .uartTxiSet p v => packCommand 0x34 p 0 (v.setWidth 32)
  | .uartTxfPut p v => packCommand 0x35 p 0 (v.setWidth 32)
  | .uartRxfGet p => packCommand 0x36 p 0 0
  | .uartStatus p => packCommand 0x37 p 0 0
  | .uartIsr p => packCommand 0x38 p 0 0
  | .itcInit => packCommand 0x40 0 0 0
  | .itcSetHandler s token => packCommand 0x41 s token 0
  | .itcSetPriority s cls => packCommand 0x42 s 0 (cls.setWidth 32)
  | .itcEnable s => packCommand 0x43 s 0 0
  | .itcDisable s => packCommand 0x44 s 0 0
  | .itcForce s => packCommand 0x45 s 0 0
  | .itcUnforce s => packCommand 0x46 s 0 0
  | .itcDisableInts => packCommand 0x47 0 0 0
  | .itcRestoreInts saved => packCommand 0x48 0 saved 0
  | .itcReadNivec => packCommand 0x49 0 0 0
  | .itcReadFivec => packCommand 0x4A 0 0 0
  | .itcSvcNEnter => packCommand 0x4B 0 0 0
  | .itcSvcNReturn => packCommand 0x4C 0 0 0
  | .itcSvcF => packCommand 0x4D 0 0 0
  | .excDisableIrq => packCommand 0x50 0 0 0
  | .excDisableFiq => packCommand 0x51 0 0 0
  | .excDisableInts => packCommand 0x52 0 0 0
  | .excRestoreIrq saved => packCommand 0x53 0 0 (saved.setWidth 32)
  | .excRestoreFiq saved => packCommand 0x54 0 0 (saved.setWidth 32)
  | .excRestoreInts saved => packCommand 0x55 0 0 (saved.setWidth 32)
  | .excSetHandler t token => packCommand 0x56 t token 0
  | .excGetHandler t => packCommand 0x57 t 0 0

/-- The response word with the three fields given (R81): `status` above `aux` above `data`. -/
def packResponse (st : Status) (aux : BitVec 8) (data : Word) : ResponseWord := st.code ++ aux ++ data

/-- `status`, `RSP[43:40]`. -/
def rspStatusOf (w : ResponseWord) : BitVec 4 := w.extractLsb' 40 4

/-- `aux`, `RSP[39:32]`. -/
def rspAuxOf (w : ResponseWord) : BitVec 8 := w.extractLsb' 32 8

/-- `data`, `RSP[31:0]`. -/
def rspDataOf (w : ResponseWord) : Word := w.extractLsb' 0 32

/-- The status a code of `RSP[43:40]` stands for; codes 4 to 14 are never produced (60_exceptions.md R240). -/
def Status.ofCode? (c : BitVec 4) : Option Status :=
  match c with
  | 0#4 => some .ok
  | 1#4 => some .invalidParameter
  | 2#4 => some .noSuchDevice
  | 3#4 => some .invalidArgument
  | 15#4 => some .illegalCommand
  | _ => none

/-- The instruction the decoder reads from a word of `nbits` bits, every bit above them 0. A command is one 80-bit
word and no byte order applies to it (20_memory.md R65). -/
def decodeTableWord (nbits w : Nat) : Option Instr :=
  match decode (BitVec.ofNat 80 (w % 2 ^ nbits)) with
  | .ok i => some i
  | .error _ => none

/-- The mnemonic of a command (R85). -/
def Instr.mnemonic : Instr → String
  | .cbInit _ _ _ => "CB_INIT"
  | .cbWrite _ _ => "CB_WRITE"
  | .cbRead _ => "CB_READ"
  | .cbIsFull _ => "CB_IS_FULL"
  | .cbIsEmpty _ => "CB_IS_EMPTY"
  | .brgLoad _ _ => "BRG_LOAD"
  | .brgRead _ => "BRG_READ"
  | .uartInit _ _ _ => "UART_INIT"
  | .uartSetRxCb _ _ => "UART_SET_RX_CB"
  | .uartSetTxCb _ _ => "UART_SET_TX_CB"
  | .uartRxiSet _ _ => "UART_RXI_SET"
  | .uartTxiSet _ _ => "UART_TXI_SET"
  | .uartTxfPut _ _ => "UART_TXF_PUT"
  | .uartRxfGet _ => "UART_RXF_GET"
  | .uartStatus _ => "UART_STATUS"
  | .uartIsr _ => "UART_ISR"
  | .itcInit => "ITC_INIT"
  | .itcSetHandler _ _ => "ITC_SET_HANDLER"
  | .itcSetPriority _ _ => "ITC_SET_PRIORITY"
  | .itcEnable _ => "ITC_ENABLE"
  | .itcDisable _ => "ITC_DISABLE"
  | .itcForce _ => "ITC_FORCE"
  | .itcUnforce _ => "ITC_UNFORCE"
  | .itcDisableInts => "ITC_DISABLE_INTS"
  | .itcRestoreInts _ => "ITC_RESTORE_INTS"
  | .itcReadNivec => "ITC_READ_NIVEC"
  | .itcReadFivec => "ITC_READ_FIVEC"
  | .itcSvcNEnter => "ITC_SVC_N_ENTER"
  | .itcSvcNReturn => "ITC_SVC_N_RETURN"
  | .itcSvcF => "ITC_SVC_F"
  | .excDisableIrq => "EXC_DISABLE_IRQ"
  | .excDisableFiq => "EXC_DISABLE_FIQ"
  | .excDisableInts => "EXC_DISABLE_INTS"
  | .excRestoreIrq _ => "EXC_RESTORE_IRQ"
  | .excRestoreFiq _ => "EXC_RESTORE_FIQ"
  | .excRestoreInts _ => "EXC_RESTORE_INTS"
  | .excSetHandler _ _ => "EXC_SET_HANDLER"
  | .excGetHandler _ => "EXC_GET_HANDLER"

/-- One row of spec/opcode_table.json: a word is the row's when `CMD and mask = match` (R86). -/
structure Row where
  mnemonic : String
  value : Command
  mask : Command
deriving DecidableEq, Repr

/-- Whether a word matches a row (R86). -/
def Row.accepts (r : Row) (w : Command) : Bool := w &&& r.mask == r.value

/-- The mask of a format: `op` and every must-be-zero bit (R83, R86). -/
def Format.mask : Format → Command
  | .z => 0xFFFFFFFFFFFFFFFFFFFF
  | .s => 0xFF00FFFFFFFFFFFFFFFF
  | .a => 0xFFFF00000000FFFFFFFF
  | .sa => 0xFF0000000000FFFFFFFF
  | .sab => 0xFF000000000000000000
  | .sac => 0xFF0000000000FFFF0000
  | .sb8 => 0xFF00FFFFFFFFFFFFFF00
  | .sb1 => 0xFF00FFFFFFFFFFFFFFFE
  | .b2 => 0xFFFFFFFFFFFFFFFFFFFC

/-- A row of the table from its mnemonic, opcode and format. -/
def Row.ofFormat (mnemonic : String) (op : BitVec 8) (f : Format) : Row := ⟨mnemonic, packCommand op 0 0 0, f.mask⟩

/-- The rows of spec/opcode_table.json, RING, BRG and SEQ groups. -/
def opcodeRowsLow : List Row :=
  [.ofFormat "CB_INIT" 0x10 .sac, .ofFormat "CB_WRITE" 0x11 .sb8, .ofFormat "CB_READ" 0x12 .s,
   .ofFormat "CB_IS_FULL" 0x13 .s, .ofFormat "CB_IS_EMPTY" 0x14 .s, .ofFormat "BRG_LOAD" 0x20 .sa,
   .ofFormat "BRG_READ" 0x21 .s, .ofFormat "UART_INIT" 0x30 .sab, .ofFormat "UART_SET_RX_CB" 0x31 .sa,
   .ofFormat "UART_SET_TX_CB" 0x32 .sa, .ofFormat "UART_RXI_SET" 0x33 .sb1, .ofFormat "UART_TXI_SET" 0x34 .sb1,
   .ofFormat "UART_TXF_PUT" 0x35 .sb8, .ofFormat "UART_RXF_GET" 0x36 .s, .ofFormat "UART_STATUS" 0x37 .s,
   .ofFormat "UART_ISR" 0x38 .s]

/-- The rows of spec/opcode_table.json, ITC and EXC groups. -/
def opcodeRowsHigh : List Row :=
  [.ofFormat "ITC_INIT" 0x40 .z, .ofFormat "ITC_SET_HANDLER" 0x41 .sa, .ofFormat "ITC_SET_PRIORITY" 0x42 .sb1,
   .ofFormat "ITC_ENABLE" 0x43 .s, .ofFormat "ITC_DISABLE" 0x44 .s, .ofFormat "ITC_FORCE" 0x45 .s,
   .ofFormat "ITC_UNFORCE" 0x46 .s, .ofFormat "ITC_DISABLE_INTS" 0x47 .z, .ofFormat "ITC_RESTORE_INTS" 0x48 .a,
   .ofFormat "ITC_READ_NIVEC" 0x49 .z, .ofFormat "ITC_READ_FIVEC" 0x4A .z, .ofFormat "ITC_SVC_N_ENTER" 0x4B .z,
   .ofFormat "ITC_SVC_N_RETURN" 0x4C .z, .ofFormat "ITC_SVC_F" 0x4D .z, .ofFormat "EXC_DISABLE_IRQ" 0x50 .z,
   .ofFormat "EXC_DISABLE_FIQ" 0x51 .z, .ofFormat "EXC_DISABLE_INTS" 0x52 .z, .ofFormat "EXC_RESTORE_IRQ" 0x53 .b2,
   .ofFormat "EXC_RESTORE_FIQ" 0x54 .b2, .ofFormat "EXC_RESTORE_INTS" 0x55 .b2,
   .ofFormat "EXC_SET_HANDLER" 0x56 .sa, .ofFormat "EXC_GET_HANDLER" 0x57 .s]

/-- The opcode table of R85 as rows with a match and a mask. -/
def opcodeTable : List Row := opcodeRowsLow ++ opcodeRowsHigh

end Sys2Proof
end

