-- ==== Sys2Proof/Machine/State.lean ====
section
/-!
DEFINITION. The state of the block as plain data (10_state.md, 20_memory.md, 70_reset_and_hazards.md R280), the
state of the agents around it that a deterministic step needs (00_scope.md R11, 10_state.md R51), the reasons a step
can stop, and the state after reset.
-/

namespace Sys2Proof.Machine

/-- A response word, by fields (30_encoding.md R81); `Response.word` is the 44-bit word they make. -/
structure Response where
  status : Status
  aux : BitVec 8
  data : Word
deriving DecidableEq, Repr

/-- One ring record (10_state.md R21). -/
structure Ring where
  bound : Bool
  base : Word
  cap : Half
  rd : Half
  wr : Half
  full : Bool
deriving DecidableEq, Repr

/-- The sequencer phase (10_state.md R33); the values 5 to 7 are never written and have no name. -/
inductive Phase where
  | idle
  | rxTest
  | rxDrain
  | txTest
  | txFill
deriving DecidableEq, Repr

/-- One port record: baud generator (R27), control registers (R30), FIFOs (R31, head first), sequencer phase (R33)
and callback registers (R36). -/
structure Port where
  brMod : Half
  brInc : Half
  brAcc : Half
  configured : Bool
  rxIe : Bool
  txIe : Bool
  rxLevel : BitVec 6
  txLevel : BitVec 6
  rxf : List Byte
  txf : List Byte
  phase : Phase
  rxCb : Token
  txCb : Token
deriving DecidableEq, Repr

/-- What the interrupt controller holds for one source: `INTENABLE`, `INTTYPE` (true = fast), `INTFRC` (R38),
`HANDLER` (R42), and the level of the external request wire, which counts for a source wired to no port (R39). -/
structure Source where
  enable : Bool
  fast : Bool
  forced : Bool
  handler : Token
  line : Bool
deriving DecidableEq, Repr

/-- The two traps the block takes (60_exceptions.md R255, R256). -/
inductive TrapClass where
  | irq
  | fiq
deriving DecidableEq, Repr

/-- The direction of a callback (10_state.md R50). -/
inductive Dir where
  | rx
  | tx
deriving DecidableEq, Repr

/-- The events of the output stream (10_state.md R50). -/
inductive Event where
  | pinRoute (port : Nat) (pins : Pins)
  | callback (port : Nat) (dir : Dir) (token : Token)
  | trap (cls : TrapClass) (saved : BitVec 2) (token : Token)
  | lineOut (port : Nat) (v : Byte)
  | brgTick (port : Nat)
deriving DecidableEq, Repr

/-- What the core agent has still to do: a command word to issue, a pseudo-instruction (43_uart_api.md), a handler
sequence or service (60_exceptions.md R258 to R262), a run of external code, a store of its own, or the place inside
one of these at which it goes on after a response. -/
inductive Task where
  /-- Issue a command word (30_encoding.md R80). -/
  | cmd (w : Command)
  /-- Issue a command that a sequence of the spec names. -/
  | issue (i : Instr)
  /-- The core agent stores a byte of its own (20_memory.md R61, R62). -/
  | store (addr : Word) (v : Byte)
  /-- `UART_SEND_BYTE p, c` (R180). -/
  | sendByte (p : BitVec 8) (c : Byte)
  /-- R180, after the mask of line 1. -/
  | sendByteMasked (p : BitVec 8) (c : Byte)
  /-- R180, line 3, `s` saved. -/
  | sendByteLoop (p : BitVec 8) (c : Byte) (s : BitVec 1)
  /-- R180, line 4, after `CB_IS_EMPTY`. -/
  | sendByteTest (p : BitVec 8) (c : Byte) (s : BitVec 1)
  /-- R180, line 6, after `CB_READ`. -/
  | sendByteFlush (p : BitVec 8) (c : Byte) (s : BitVec 1)
  /-- R180, line 8, after the put of line 7. -/
  | sendByteRestore (p : BitVec 8) (s : BitVec 1)
  /-- `UART_RECEIVE_BYTE p` (R181). -/
  | receiveByte (p : BitVec 8)
  /-- R181, after the mask of line 1. -/
  | receiveByteMasked (p : BitVec 8)
  /-- R181, lines 3 and 4, after `CB_IS_EMPTY`. -/
  | receiveByteTest (p : BitVec 8)
  /-- R181, line 5, the byte in the last response. -/
  | receiveByteGot (p : BitVec 8)
  /-- `UART_SEND p, buf, count` (R182). -/
  | send (p : BitVec 8) (buf count : Word)
  /-- R182, line 5, with `n` bytes copied. -/
  | sendLoop (p : BitVec 8) (buf count n : Word)
  /-- R182, line 7, after `CB_IS_FULL`. -/
  | sendTest (p : BitVec 8) (buf count n : Word)
  /-- `UART_RECEIVE p, buf, count` (R183). -/
  | receive (p : BitVec 8) (buf count : Word)
  /-- R183, line 5, with `n` bytes copied. -/
  | receiveLoop (p : BitVec 8) (buf count n : Word)
  /-- R183, line 7, after `CB_IS_EMPTY`. -/
  | receiveTest (p : BitVec 8) (buf count n : Word)
  /-- R183, line 9, after `CB_READ`. -/
  | receiveStore (p : BitVec 8) (buf count n : Word)
  /-- A pseudo-instruction ends with this result once its last command has answered. -/
  | finish (value : Word)
  /-- `IRQ_HANDLER_SEQUENCE` or `FIQ_HANDLER_SEQUENCE` on `EV_TRAP(cls, saved, token)` (R258, R259). -/
  | handler (cls : TrapClass) (saved : BitVec 2) (token : Token)
  /-- `ITC_SERVICE_NORMAL` (R260). -/
  | serviceNormal
  /-- R260, line 2, after `ITC_SVC_N_ENTER`. -/
  | serviceNormalEntered
  /-- `ITC_SERVICE_FAST` (R261). -/
  | serviceFast
  /-- R261, line 2, after `ITC_SVC_F`. -/
  | serviceFastEntered
  /-- `run_handler(h)` (R262). -/
  | runHandler (h : Token)
  /-- R262: run the callbacks that the completed service announced, in order. -/
  | runCallbacks
  /-- External code named by a token runs (R262). -/
  | external (token : Token)
  /-- The preempted context goes on with the response and the callbacks it had (log entry 13). -/
  | resume (rsp : Option Response) (callbacks : List Token)
deriving DecidableEq, Repr

/-- Who moves next (00_scope.md R11). A choice whose step is not enabled changes nothing. -/
inductive Move where
  /-- The core agent, or the held command it waits for. -/
  | core
  /-- The trap logic. -/
  | trap
  /-- The sequencer of the port whose service is in progress. -/
  | seq
  /-- `LINE_RX(p, v)` (42_uart_seq.md R165). -/
  | lineRx (port : Nat) (v : Byte)
  /-- `LINE_TX(p)` (R166). -/
  | lineTx (port : Nat)
  /-- `EXT_IRQ(s, level)` (44_itc.md R192). -/
  | extIrq (src : Nat) (level : Bool)
  /-- `BRG_TICK(p)` (41_brg.md R124). -/
  | brgTick (port : Nat)
deriving DecidableEq, Repr

/-- The result a pseudo-instruction returns: the error status and the sentinel, or `ok` and the value (R180 to
R183). -/
structure ApiResult where
  status : Status
  value : Word
deriving DecidableEq, Repr

/-- Storage memory: the bytes written since reset, addresses strictly rising. An address that is not listed holds
the unspecified byte `Config.initByte` gives it (20_memory.md R60, R61; log entry 8). -/
abbrev Memory := List Host.Cell

/-- The whole machine. The fields down to `events` are the spec's state; the rest are the model's own: the
parameters, the schedule, and the core agent's own program and records. -/
structure State where
  /-- `RING[r]` (R21): ring `2p` is the RX ring and `2p + 1` the TX ring of port `p` (R7). -/
  rings : List Ring
  /-- `PORT[p]`. -/
  ports : List Port
  /-- The per-source registers of the ITC. -/
  sources : List Source
  /-- `ITC.SVC_FLOOR` (R41). -/
  svcFloor : BitVec 6
  /-- `CORE.I` (R45). -/
  coreI : Bool
  /-- `CORE.F` (R45). -/
  coreF : Bool
  /-- `CORE.TRAP[t]` (R46). -/
  trapTable : Vector Token Config.nTraps
  /-- `MEM` (R60). -/
  mem : Memory
  /-- The command in progress: accepted and not yet answered (R82). -/
  busy : Option Instr
  /-- The response last given to the core agent (R81). -/
  rsp : Option Response
  /-- The event stream, oldest first (R50). -/
  events : List Event
  /-- MODEL. The implementation parameters (R6; log entry 1); no step writes them. -/
  params : Params
  /-- MODEL. Who moves next, first entry first (log entry 3). -/
  agenda : List Move
  /-- MODEL. What the core agent has still to do (log entry 5). -/
  code : List Task
  /-- MODEL. What each coming run of external code will do (log entry 6). -/
  ext : List (List Task)
  /-- MODEL. The callback tokens the last service announced, in order (R262; log entry 13). -/
  callbacks : List Token
  /-- MODEL. The results of finished pseudo-instructions, oldest first. -/
  results : List ApiResult
  /-- MODEL. The tokens of the external code that has been run, oldest first. -/
  invoked : List Token
  /-- MODEL. How many values have been drawn from `Config.freeTick` (log entry 9). -/
  freeCount : Nat
deriving DecidableEq, Repr

/-- Why the machine stops with a fault. No command of the opcode table raises one. -/
inductive Fault where
  /-- Raised by the core agent's own load or store in UART_SEND or UART_RECEIVE when `buf + n` is no 32-bit address
  (20_memory.md R60, 43_uart_api.md R182, R183). SAFE: the spec gives no such address (log entry 10). -/
  | addressOutside
deriving DecidableEq, Repr

/-- Why a step is refused. -/
inductive Refusal where
  /-- Raised by an arm of `exec` whose instruction has no meaning yet. SAFE. No arm raises it. -/
  | notModelled (mnemonic : String)
deriving DecidableEq, Repr

/-- The outcome of a step of this machine. -/
abbrev Outcome := Host.Outcome State Fault Refusal

/-- An unbound ring, as after reset (R280). -/
def Ring.reset : Ring := ⟨false, 0, 0, 0, 0, false⟩

/-- An Uninitialized port, as after reset (R280). -/
def Port.reset : Port where
  brMod := 0
  brInc := 0
  brAcc := 0
  configured := false
  rxIe := false
  txIe := false
  rxLevel := 0
  txLevel := 0
  rxf := []
  txf := []
  phase := .idle
  rxCb := 0
  txCb := 0

/-- A source as after reset: disabled, normal, not forced, `H_NONE`, request wire 0 (R280). -/
def Source.reset : Source := ⟨false, false, false, 0, false⟩

/-- The state after reset for given parameters (R280). The model's own fields are empty (log entry 16). -/
def State.resetWith (P : Params) : State where
  rings := List.replicate (2 * P.nPorts) Ring.reset
  ports := List.replicate P.nPorts Port.reset
  sources := List.replicate P.nSrc Source.reset
  svcFloor := 0
  coreI := true
  coreF := true
  trapTable := Vector.replicate Config.nTraps 0
  mem := []
  busy := none
  rsp := none
  events := []
  params := P
  agenda := []
  code := []
  ext := []
  callbacks := []
  results := []
  invoked := []
  freeCount := 0

/-- The state after reset, with the reference parameters of R6 (log entries 1 and 2). -/
def State.reset : State := State.resetWith Params.reference

end Sys2Proof.Machine
end

