-- ==== Sys2Proof/Machine/Flags.lean ====
section
/-!
DEFINITION. Every derived flag and combinational function of the spec: the ring functions (10_state.md R24), the
port status flags (R32), the request wires (R39), the pending functions and priority vectors (44_itc.md R193), the
core mask (R45), the enables of the trap steps (60_exceptions.md R255 to R257), and the condition flags the status
word shows (42_uart_seq.md R152).
-/

namespace Sys2Proof.Machine

/-- `N_RINGS`: the ring records the state holds (10_state.md R20). -/
def State.nRings (s : State) : Nat := s.rings.length

/-- `N_PORTS`: the port records the state holds (R20). -/
def State.nPorts (s : State) : Nat := s.ports.length

/-- `N_SRC`: the sources the ITC record holds (R20). -/
def State.nSrc (s : State) : Nat := s.sources.length

/-- The counts operands are checked against (30_encoding.md R84). -/
def State.limits (s : State) : Limits := ⟨s.nRings, s.nPorts, s.nSrc⟩

/-- `RING[r]`. -/
def State.ring (s : State) (r : Nat) : Ring := s.rings.getD r Ring.reset

/-- `PORT[p]`. -/
def State.port (s : State) (p : Nat) : Port := s.ports.getD p Port.reset

/-- The registers of source `src`. -/
def State.source (s : State) (src : Nat) : Source := s.sources.getD src Source.reset

/-- The id of the RX ring of port `p` (00_scope.md R7). -/
def rxRing (p : Nat) : Nat := 2 * p

/-- The id of the TX ring of port `p` (R7). -/
def txRing (p : Nat) : Nat := 2 * p + 1

/-- `wrap_inc` (R24): the next index, 0 after the last slot. -/
def Ring.wrapInc (r : Ring) (i : Half) : Half := if i.toNat + 1 = r.cap.toNat then 0 else i + 1

/-- `is_empty` (R24). -/
def Ring.isEmpty (r : Ring) : Bool := r.rd == r.wr && !r.full

/-- `is_full` (R24): an unbound ring reports full. -/
def Ring.isFull (r : Ring) : Bool := r.full || !r.bound

/-- `pending` (R24), in unbounded arithmetic (40_ring.md R111). -/
def Ring.pending (r : Ring) : Nat :=
  if r.full then r.cap.toNat
  else if r.rd.toNat ≤ r.wr.toNat then r.wr.toNat - r.rd.toNat
  else r.wr.toNat + r.cap.toNat - r.rd.toNat

/-- `free` (R24). -/
def Ring.free (r : Ring) : Nat := r.cap.toNat - r.pending

/-- The effective address `BASE + idx`, a 32-bit addition (20_memory.md R63, 40_ring.md R111). -/
def Ring.slot (r : Ring) (i : Half) : Word := r.base + i.setWidth 32

/-- `rxf_count` (R32). -/
def Port.rxfCount (q : Port) : Nat := q.rxf.length

/-- `txf_free` (R32). -/
def Port.txfFree (q : Port) : Nat := Config.fifoDepth - q.txf.length

/-- `rx_ready` (R32): the RX level counts queued bytes. -/
def Port.rxReady (q : Port) : Bool := q.configured && decide (q.rxLevel.toNat ≤ q.rxfCount)

/-- `tx_ready` (R32): the TX level counts free entries (90_conflicts.md C6). -/
def Port.txReady (q : Port) : Bool := q.configured && decide (q.txLevel.toNat ≤ q.txfFree)

/-- `uart_irq` (R32). -/
def Port.uartIrq (q : Port) : Bool := (q.rxReady && q.rxIe) || (q.txReady && q.txIe)

/-- The TX FIFO has room: the condition of `UART_TXF_PUT` (42_uart_seq.md R150). -/
def Port.txSpace (q : Port) : Bool := decide (q.txf.length < Config.fifoDepth)

/-- The status word of `UART_STATUS` (R152). -/
def Port.statusWord (q : Port) : Word :=
  0#10 ++ BitVec.ofNat 6 q.txfFree ++ 0#2 ++ BitVec.ofNat 6 q.rxfCount ++ 0#2 ++
    BitVec.ofBool q.txSpace ++ BitVec.ofBool (!q.rxf.isEmpty) ++ BitVec.ofBool q.txIe ++ BitVec.ofBool q.rxIe ++
    BitVec.ofBool q.txReady ++ BitVec.ofBool q.rxReady

/-- `ITC.INTSRC[src]` (R39): the port's request for a source wired to a port, else the held external level. -/
def State.intSrc (s : State) (src : Nat) : Bool :=
  match s.params.portOfSrc src with
  | some p => (s.port p).uartIrq
  | none => (s.source src).line

/-- `raw(s)` (R193). -/
def State.raw (s : State) (src : Nat) : Bool := s.intSrc src || (s.source src).forced

/-- `pend(s)` (R193). -/
def State.pend (s : State) (src : Nat) : Bool := s.raw src && (s.source src).enable

/-- `nipend(s)` (R193). -/
def State.nipend (s : State) (src : Nat) : Bool := s.pend src && !(s.source src).fast

/-- `fipend(s)` (R193). -/
def State.fipend (s : State) (src : Nat) : Bool := s.pend src && (s.source src).fast

/-- `npass(s)` (R193): pending normal and not held back by the service floor. -/
def State.npass (s : State) (src : Nat) : Bool :=
  s.nipend src && decide (s.svcFloor.toNat ≤ s.params.prio src)

/-- The id below `n` of greatest priority among those that satisfy `ok`, if there is one. -/
def pickMax (prio : Nat → Nat) (ok : Nat → Bool) : Nat → Option Nat
  | 0 => none
  | n + 1 =>
      match pickMax prio ok n with
      | none => if ok n then some n else none
      | some m => if ok n && decide (prio m < prio n) then some n else some m

/-- `NIVECTOR` (R193). -/
def State.nivector (s : State) : Option Nat := pickMax s.params.prio s.npass s.nSrc

/-- `FIVECTOR` (R193). -/
def State.fivector (s : State) : Option Nat := pickMax s.params.prio s.fipend s.nSrc

/-- `irq_req` (R193). -/
def State.irqReq (s : State) : Bool := (List.range s.nSrc).any s.npass

/-- `fiq_req` (R193). -/
def State.fiqReq (s : State) : Bool := (List.range s.nSrc).any s.fipend

/-- `ITC.INTENABLE` as a 32-bit word, bit `s` for source `s`, 0 elsewhere (44_itc.md R202). -/
def State.enableWord (s : State) : Word := (BitVec.ofBoolListLE (s.sources.map Source.enable)).setWidth 32

/-- `core_mask = {CORE.I, CORE.F}` (10_state.md R45). -/
def State.coreMask (s : State) : BitVec 2 := BitVec.ofBool s.coreI ++ BitVec.ofBool s.coreF

/-- The port whose sequencer is running, if one is (42_uart_seq.md R156). -/
def State.activePort (s : State) : Option Nat := s.ports.findIdx? (fun q => q.phase != .idle)

/-- A command boundary: no command is in progress (R82, R257). -/
def State.atBoundary (s : State) : Bool := s.busy.isNone && s.activePort.isNone

/-- `TRAP_FIQ` is enabled (60_exceptions.md R256). -/
def State.fiqEnabled (s : State) : Bool := s.atBoundary && s.fiqReq && !s.coreF

/-- `TRAP_IRQ` is enabled (R255). -/
def State.irqEnabled (s : State) : Bool := s.atBoundary && s.irqReq && !s.coreI && !s.fiqEnabled

/-- The divider of a port counts (41_brg.md R124). -/
def Port.brgCounts (q : Port) : Bool :=
  q.brMod != 0 && q.brInc != 0 && decide (q.brInc.toNat ≤ q.brMod.toNat)

/-- The divider of a port is outside its range, so that its tick output is not specified (41_brg.md R126). -/
def Port.brgUnspecified (q : Port) : Bool := q.brMod != 0 && decide (q.brMod.toNat < q.brInc.toNat)

end Sys2Proof.Machine
end

