-- ==== Sys2Proof/Machine/Ops.lean ====
section
/-!
DEFINITION. The named operations every meaning is built from: memory (20_memory.md), responses, events and holds
(00_scope.md R10), register writes, the three ring paths (40_ring.md R100, R102, R104), taking a trap and returning
from one (60_exceptions.md R255 to R258).
-/

namespace Sys2Proof.Machine

/-- The byte a memory lists at an address, if it lists one. -/
def Memory.read? : Memory → Nat → Option Byte
  | [], _ => none
  | (b, v) :: rest, a => if a = b then some v else Memory.read? rest a

/-- A memory with one byte written, the addresses kept strictly rising. -/
def Memory.write : Memory → Nat → Byte → Memory
  | [], a, v => [(a, v)]
  | (b, u) :: rest, a, v =>
      if a < b then (a, v) :: (b, u) :: rest
      else if a = b then (a, v) :: rest
      else (b, u) :: Memory.write rest a v

/-- The one canonical form: 32-bit addresses, strictly rising. (An unlisted address has no value of its own, so no
entry can equal it; log entry 8.) -/
def Memory.wf (m : Memory) : Bool :=
  decide (m.Pairwise fun x y => x.1 < y.1) && m.all fun c => decide (c.1 < 2 ^ 32)

/-- `MemRead(a, 1)` (R10): the last byte written, or the unspecified byte of R61. -/
def State.readByte (s : State) (a : Nat) : Byte := (s.mem.read? a).getD (Config.initByte a)

/-- `MemWrite(a, 1, v)` (R10). -/
def State.writeByte (s : State) (a : Nat) (v : Byte) : State := { s with mem := s.mem.write a v }

/-- The 44-bit word of a response (30_encoding.md R81). -/
def Response.word (r : Response) : ResponseWord := packResponse r.status r.aux r.data

/-- The response that a 44-bit word carries, if its status code is one that is produced (R81, R240). -/
def Response.ofWord? (w : ResponseWord) : Option Response :=
  (Status.ofCode? (rspStatusOf w)).map fun st => ⟨st, rspAuxOf w, rspDataOf w⟩

/-- `RSP[43:0]` as the command port last gave it (R81), before the first answer none. -/
def State.rspWord (s : State) : Option ResponseWord := s.rsp.map Response.word

/-- `respond(status, aux, data)` (R10): the command in progress is answered. -/
def State.respond (s : State) (st : Status) (aux : BitVec 8) (data : Word) : State :=
  { s with busy := none, rsp := some ⟨st, aux, data⟩ }

/-- `fail(E)` (R10): the error status and the two sentinels, nothing else changed. -/
def State.fail (s : State) (st : Status) : State := s.respond st 0xFF 0xFFFFFFFF

/-- `hold until` (R10, 60_exceptions.md R268): the command stays in progress and nothing else changes. -/
def State.hold (s : State) (i : Instr) : State := { s with busy := some i }

/-- `emit` (R10). -/
def State.emit (s : State) (e : Event) : State := { s with events := s.events ++ [e] }

/-- Write `RING[r]`. -/
def State.setRing (s : State) (r : Nat) (x : Ring) : State := { s with rings := s.rings.set r x }

/-- Write `PORT[p]`. -/
def State.setPort (s : State) (p : Nat) (q : Port) : State := { s with ports := s.ports.set p q }

/-- Write the registers of source `src`. -/
def State.setSource (s : State) (src : Nat) (x : Source) : State := { s with sources := s.sources.set src x }

/-- A ring just bound: both indices 0, empty (R100). -/
def Ring.init (base : Word) (cap : Half) : Ring := ⟨true, base, cap, 0, 0, false⟩

/-- `ring_init` (R100). -/
def State.ringInit (s : State) (r : Nat) (base : Word) (cap : Half) : State := s.setRing r (Ring.init base cap)

/-- The ring record after an accepted write (R102). -/
def Ring.afterWrite (r : Ring) : Ring :=
  { r with wr := r.wrapInc r.wr, full := r.wrapInc r.wr == r.rd }

/-- The ring record after an accepted read (R104). -/
def Ring.afterRead (r : Ring) : Ring := { r with rd := r.wrapInc r.rd, full := false }

/-- `ring_write` (R102): whether the byte was accepted, and the state after. -/
def State.ringWrite (s : State) (r : Nat) (v : Byte) : Bool × State :=
  let x := s.ring r
  if x.isFull then (false, s)
  else (true, (s.writeByte (x.slot x.wr).toNat v).setRing r x.afterWrite)

/-- `ring_read` (R104): whether a byte was there, the byte (0 if none), and the state after. -/
def State.ringRead (s : State) (r : Nat) : Bool × Byte × State :=
  let x := s.ring r
  if x.isEmpty then (false, 0, s)
  else (true, s.readByte (x.slot x.rd).toNat, s.setRing r x.afterRead)

/-- The callback of a direction, if its token is not 0: the event, and the core agent's note of it (42_uart_seq.md
R159, R162; 60_exceptions.md R262). -/
def State.announce (s : State) (p : Nat) (d : Dir) (token : Token) : State :=
  if token = 0 then s
  else { s.emit (.callback p d token) with callbacks := s.callbacks ++ [token] }

/-- The trap-table entry a class uses: 6 for IRQ, 7 for FIQ (10_state.md R46). -/
def State.trapToken (s : State) : TrapClass → Token
  | .irq => s.trapTable[6]
  | .fiq => s.trapTable[7]

/-- TAKING A TRAP (R255, R256): the mask before entry travels in the event, the class is masked (a fast entry masks
both), and the core agent turns to the handler sequence; the preempted code stays behind it (log entry 13). -/
def State.takeTrap (s : State) (c : TrapClass) : State :=
  let saved := s.coreMask
  let token := s.trapToken c
  { s.emit (.trap c saved token) with
    coreI := true
    coreF := match c with
      | .irq => s.coreF
      | .fiq => true
    code := .handler c saved token :: .resume s.rsp s.callbacks :: s.code }

/-- THE RETURN FROM A TRAP is the restore of the saved mask (R258, 45_exc.md R225): `CORE.I` is bit 1 and `CORE.F`
bit 0. -/
def State.restoreMask (s : State) (saved : BitVec 2) : State :=
  { s with coreI := saved.getLsbD 1, coreF := saved.getLsbD 0 }

end Sys2Proof.Machine
end

