-- ==== Sys2Proof/Machine/Operands.lean ====
section
/-!
DEFINITION. The operand forms: the id checks every command begins with (30_encoding.md R86, 42_uart_seq.md R142,
44_itc.md R194) and how results are put into `data` (R84).
-/

namespace Sys2Proof.Machine

/-- A command on ring `sel`: `InvalidParameter` for an id out of range (40_ring.md). -/
def withRing (sel : BitVec 8) (s : State) (k : Nat → State) : State :=
  if s.nRings ≤ sel.toNat then s.fail .invalidParameter else k sel.toNat

/-- A command on port `sel` that checks only the range (41_brg.md R121). -/
def withPort (sel : BitVec 8) (s : State) (k : Nat → State) : State :=
  if s.nPorts ≤ sel.toNat then s.fail .noSuchDevice else k sel.toNat

/-- `port_check` (R142): the range, then Configured. -/
def withConfigured (sel : BitVec 8) (s : State) (k : Nat → State) : State :=
  withPort sel s fun p => if (s.port p).configured then k p else s.fail .noSuchDevice

/-- A command on source `sel` (R194). -/
def withSource (sel : BitVec 8) (s : State) (k : Nat → State) : State :=
  if s.nSrc ≤ sel.toNat then s.fail .invalidParameter else k sel.toNat

/-- A command on trap id `sel` (45_exc.md R226). -/
def withTrap (sel : BitVec 8) (s : State) (k : Fin Config.nTraps → State) : State :=
  if h : sel.toNat < Config.nTraps then k ⟨sel.toNat, h⟩ else s.fail .invalidParameter

/-- A flag zero-extended into `data` (R84). -/
def flagData (b : Bool) : Word := (BitVec.ofBool b).setWidth 32

/-- A 2-bit core mask zero-extended into `data` (R84). -/
def maskData (m : BitVec 2) : Word := m.setWidth 32

/-- A byte zero-extended into `data` (R84). -/
def byteData (v : Byte) : Word := v.setWidth 32

/-- `{zext_24(accepted), v}` (40_ring.md R105). -/
def readData (accepted : Bool) (v : Byte) : Word := (BitVec.ofBool accepted).setWidth 24 ++ v

/-- The one-bit operand `b[0]` as a register value (R84). -/
def bitOf (v : BitVec 1) : Bool := v.getLsbD 0

/-- `H_UART(p)` (10_state.md R42). -/
def hUart (p : Nat) : Token := 0xFFFFFF00 + BitVec.ofNat 32 p

/-- The port whose service a token names, if it names one (R42). -/
def uartOfToken (nPorts : Nat) (h : Token) : Option (BitVec 8) :=
  if h.extractLsb' 8 24 = 0xFFFFFF ∧ (h.extractLsb' 0 8).toNat < nPorts then some (h.extractLsb' 0 8) else none

end Sys2Proof.Machine
end

