-- ==== Sys2Proof/Machine/Exc.lean ====
section
/-!
DEFINITION. The core interrupt mask and trap table commands (45_exc.md).
-/

namespace Sys2Proof.Machine

/-- `EXC_DISABLE_IRQ` (R220). -/
def execExcDisableIrq (s : State) : Outcome :=
  .next ({ s with coreI := true }.respond .ok 0 (maskData s.coreMask))

/-- `EXC_DISABLE_FIQ` (R221). -/
def execExcDisableFiq (s : State) : Outcome :=
  .next ({ s with coreF := true }.respond .ok 0 (maskData s.coreMask))

/-- `EXC_DISABLE_INTS` (R222). -/
def execExcDisableInts (s : State) : Outcome :=
  .next ({ s with coreI := true, coreF := true }.respond .ok 0 (maskData s.coreMask))

/-- `EXC_RESTORE_IRQ saved` (R223): only bit 1 is used. -/
def execExcRestoreIrq (saved : BitVec 2) (s : State) : Outcome :=
  .next ({ s with coreI := saved.getLsbD 1 }.respond .ok 0 0)

/-- `EXC_RESTORE_FIQ saved` (R224): only bit 0 is used. -/
def execExcRestoreFiq (saved : BitVec 2) (s : State) : Outcome :=
  .next ({ s with coreF := saved.getLsbD 0 }.respond .ok 0 0)

/-- `EXC_RESTORE_INTS saved` (R225), the return from a trap (60_exceptions.md R258). -/
def execExcRestoreInts (saved : BitVec 2) (s : State) : Outcome := .next ((s.restoreMask saved).respond .ok 0 0)

/-- `EXC_SET_HANDLER t, token` (R226). -/
def execExcSetHandler (sel : BitVec 8) (token : Token) (s : State) : Outcome :=
  .next (withTrap sel s fun t => { s with trapTable := s.trapTable.set t token }.respond .ok 0 0)

/-- `EXC_GET_HANDLER t` (R227). -/
def execExcGetHandler (sel : BitVec 8) (s : State) : Outcome :=
  .next (withTrap sel s fun t => s.respond .ok 0 s.trapTable[t])

end Sys2Proof.Machine
end

