-- ==== Sys2Proof/Machine/Itc.lean ====
section
/-!
DEFINITION. The interrupt controller commands (44_itc.md).
-/

namespace Sys2Proof.Machine

/-- A source's ITC registers at their reset values, the request wire untouched (R195). -/
def Source.cleared (x : Source) : Source := ⟨false, false, false, 0, x.line⟩

/-- A source with its `INTENABLE` bit cleared (R202). -/
def Source.disabled (x : Source) : Source := { x with enable := false }

/-- Every `INTENABLE[s]` written from bit `s` of a word (R203); `INTENABLE[s]` with `s >= 32` does not exist. -/
def enableFrom (saved : Word) (xs : List Source) : List Source :=
  xs.mapIdx fun i x => { x with enable := saved.getLsbD i }

/-- The answer to a vector read (R204, R205). -/
def State.answerVector (s : State) : Option Nat → State
  | none => s.respond .ok 0xFF 0xFFFFFFFF
  | some v => s.respond .ok (BitVec.ofNat 8 v) (BitVec.ofNat 32 v)

/-- `ITC_INIT` (R195). -/
def execItcInit (s : State) : Outcome :=
  .next ({ s with sources := s.sources.map Source.cleared, svcFloor := 0 }.respond .ok 0 0)

/-- `ITC_SET_HANDLER s, token` (R196). -/
def execItcSetHandler (sel : BitVec 8) (token : Token) (s : State) : Outcome :=
  .next (withSource sel s fun i => (s.setSource i { s.source i with handler := token }).respond .ok 0 0)

/-- `ITC_SET_PRIORITY s, class` (R197). -/
def execItcSetPriority (sel : BitVec 8) (cls : BitVec 1) (s : State) : Outcome :=
  .next (withSource sel s fun i => (s.setSource i { s.source i with fast := bitOf cls }).respond .ok 0 0)

/-- `ITC_ENABLE s` (R198). -/
def execItcEnable (sel : BitVec 8) (s : State) : Outcome :=
  .next (withSource sel s fun i => (s.setSource i { s.source i with enable := true }).respond .ok 0 0)

/-- `ITC_DISABLE s` (R199). -/
def execItcDisable (sel : BitVec 8) (s : State) : Outcome :=
  .next (withSource sel s fun i => (s.setSource i { s.source i with enable := false }).respond .ok 0 0)

/-- `ITC_FORCE s` (R200). -/
def execItcForce (sel : BitVec 8) (s : State) : Outcome :=
  .next (withSource sel s fun i => (s.setSource i { s.source i with forced := true }).respond .ok 0 0)

/-- `ITC_UNFORCE s` (R201). -/
def execItcUnforce (sel : BitVec 8) (s : State) : Outcome :=
  .next (withSource sel s fun i => (s.setSource i { s.source i with forced := false }).respond .ok 0 0)

/-- `ITC_DISABLE_INTS` (R202): the old enables are answered and all are cleared. -/
def execItcDisableInts (s : State) : Outcome :=
  .next ({ s with sources := s.sources.map Source.disabled }.respond .ok 0 s.enableWord)

/-- `ITC_RESTORE_INTS saved` (R203): a write, bits at and above `N_SRC` ignored. -/
def execItcRestoreInts (saved : Word) (s : State) : Outcome :=
  .next ({ s with sources := enableFrom saved s.sources }.respond .ok 0 0)

/-- `ITC_READ_NIVEC` (R204). -/
def execItcReadNivec (s : State) : Outcome := .next (s.answerVector s.nivector)

/-- `ITC_READ_FIVEC` (R205). -/
def execItcReadFivec (s : State) : Outcome := .next (s.answerVector s.fivector)

/-- `ITC_SVC_N_ENTER` (R206): resolve, narrow, select the handler. An unset handler is answered as it stands
(R209; log entry 7). -/
def execItcSvcNEnter (s : State) : Outcome :=
  .next (match s.nivector with
    | none => s.respond .ok 0xFF 0
    | some v =>
        { s with svcFloor := BitVec.ofNat 6 (s.params.prio v + 1) }.respond .ok (BitVec.ofNat 8 v)
          (s.source v).handler)

/-- `ITC_SVC_N_RETURN` (R207). -/
def execItcSvcNReturn (s : State) : Outcome := .next ({ s with svcFloor := 0 }.respond .ok 0 0)

/-- `ITC_SVC_F` (R208). -/
def execItcSvcF (s : State) : Outcome :=
  .next (match s.fivector with
    | none => s.respond .ok 0xFF 0
    | some v => s.respond .ok (BitVec.ofNat 8 v) (s.source v).handler)

end Sys2Proof.Machine
end

