-- ==== Sys2Proof/Machine/Ring.lean ====
section
/-!
DEFINITION. The ring commands (40_ring.md).
-/

namespace Sys2Proof.Machine

/-- `CB_INIT r, base, cap` (R101). -/
def execCbInit (sel : BitVec 8) (base : Word) (cap : Half) (s : State) : Outcome :=
  .next (withRing sel s fun r =>
    if cap = 0 then s.fail .invalidParameter
    else if 2 ^ 32 < base.toNat + cap.toNat then s.fail .invalidParameter
    else (s.ringInit r base cap).respond .ok 0 0)

/-- `CB_WRITE r, v` (R103). -/
def execCbWrite (sel : BitVec 8) (v : Byte) (s : State) : Outcome :=
  .next (withRing sel s fun r =>
    let (accepted, t) := s.ringWrite r v
    t.respond .ok 0 (flagData accepted))

/-- `CB_READ r` (R105). -/
def execCbRead (sel : BitVec 8) (s : State) : Outcome :=
  .next (withRing sel s fun r =>
    let (accepted, v, t) := s.ringRead r
    t.respond .ok 0 (readData accepted v))

/-- `CB_IS_FULL r` (R107). -/
def execCbIsFull (sel : BitVec 8) (s : State) : Outcome :=
  .next (withRing sel s fun r => s.respond .ok 0 (flagData (s.ring r).isFull))

/-- `CB_IS_EMPTY r` (R108). -/
def execCbIsEmpty (sel : BitVec 8) (s : State) : Outcome :=
  .next (withRing sel s fun r => s.respond .ok 0 (flagData (s.ring r).isEmpty))

end Sys2Proof.Machine
end

