-- ==== Sys2Proof/Machine/Brg.lean ====
section
/-!
DEFINITION. The baud-rate generator (41_brg.md): the divisor computation, its two commands, and the divider step.
-/

namespace Sys2Proof.Machine

/-- `brg_inc(baud)` (R120, R125): exact product, quotient rounded toward zero, low 16 bits. -/
def brgInc (coreClock : Nat) (baud : Word) : Half :=
  BitVec.ofNat 16 (baud.toNat * Config.brgMod / (coreClock / 16))

/-- The port with the divisor pair loaded and the accumulator cleared (R121). -/
def Port.loadBaud (q : Port) (coreClock : Nat) (baud : Word) : Port :=
  { q with brMod := BitVec.ofNat 16 Config.brgMod, brInc := brgInc coreClock baud, brAcc := 0 }

/-- `BRG_LOAD p, baud` (R121). -/
def execBrgLoad (sel : BitVec 8) (baud : Word) (s : State) : Outcome :=
  .next (withPort sel s fun p =>
    let q := (s.port p).loadBaud s.params.coreClock baud
    (s.setPort p q).respond .ok 0 (q.brInc ++ q.brMod))

/-- `BRG_READ p` (R122). -/
def execBrgRead (sel : BitVec 8) (s : State) : Outcome :=
  .next (withPort sel s fun p => s.respond .ok 0 ((s.port p).brInc ++ (s.port p).brMod))

/-- `BRG_TICK(p)` (R124). Where `BR_INC > BR_MOD` the tick output is not specified (R126): a free value says whether
the event is emitted, and no register of the port changes (log entry 9). Elsewhere the step is not enabled. -/
def State.brgTick (s : State) (p : Nat) : State :=
  let q := s.port p
  if q.brgCounts then
    let sum := q.brAcc.toNat + q.brInc.toNat
    if q.brMod.toNat ≤ sum then
      (s.setPort p { q with brAcc := BitVec.ofNat 16 (sum - q.brMod.toNat) }).emit (.brgTick p)
    else s.setPort p { q with brAcc := BitVec.ofNat 16 sum }
  else if q.brgUnspecified then
    let t := { s with freeCount := s.freeCount + 1 }
    if Config.freeTick s.freeCount then t.emit (.brgTick p) else t
  else s

end Sys2Proof.Machine
end

