-- ==== Sys2Proof/Machine/Uart.lean ====
section
/-!
DEFINITION. The UART port commands (42_uart_seq.md, sections 1 to 3).
-/

namespace Sys2Proof.Machine

/-- The registers of a port after `UART_INIT` (R140, lines 4, 5, 7, 11 to 14); `PHASE` is not written. -/
def Port.initialised (q : Port) (coreClock : Nat) (baud : Word) : Port :=
  { q.loadBaud coreClock baud with
    configured := true
    rxIe := true
    txIe := false
    rxLevel := Config.rxTrig
    txLevel := Config.txTrig
    rxf := []
    txf := []
    rxCb := 0
    txCb := 0 }

/-- The effect of `UART_INIT` on port `p` once its checks have passed (R140, lines 3 to 14; R141). -/
def State.initPort (s : State) (p : Nat) (baud : Word) : State :=
  let w := s.params.wire p
  let t := (s.setPort p ((s.port p).initialised s.params.coreClock baud)).emit (.pinRoute p w.pins)
  let t := (t.ringInit (rxRing p) w.rxBase s.params.bufCap).ringInit (txRing p) w.txBase s.params.bufCap
  t.setSource w.src { s.source w.src with handler := hUart p, fast := false, enable := true }

/-- `UART_INIT p, baud, name` (R140). -/
def execUartInit (sel : BitVec 8) (baud name : Word) (s : State) : Outcome :=
  .next (withPort sel s fun p =>
    if name = 0 then s.fail .invalidArgument else (s.initPort p baud).respond .ok 0 0)

/-- `UART_SET_RX_CB p, token` (R145). -/
def execUartSetRxCb (sel : BitVec 8) (token : Token) (s : State) : Outcome :=
  .next (withConfigured sel s fun p => (s.setPort p { s.port p with rxCb := token }).respond .ok 0 0)

/-- `UART_SET_TX_CB p, token` (R146). -/
def execUartSetTxCb (sel : BitVec 8) (token : Token) (s : State) : Outcome :=
  .next (withConfigured sel s fun p => (s.setPort p { s.port p with txCb := token }).respond .ok 0 0)

/-- `UART_RXI_SET p, v` (R147): the old enable is answered. -/
def execUartRxiSet (sel : BitVec 8) (v : BitVec 1) (s : State) : Outcome :=
  .next (withConfigured sel s fun p =>
    (s.setPort p { s.port p with rxIe := bitOf v }).respond .ok 0 (flagData (s.port p).rxIe))

/-- `UART_TXI_SET p, v` (R148): the old enable is answered. -/
def execUartTxiSet (sel : BitVec 8) (v : BitVec 1) (s : State) : Outcome :=
  .next (withConfigured sel s fun p =>
    (s.setPort p { s.port p with txIe := bitOf v }).respond .ok 0 (flagData (s.port p).txIe))

/-- `UART_TXF_PUT p, v` (R150): held while the TX FIFO is full. -/
def execUartTxfPut (sel : BitVec 8) (v : Byte) (s : State) : Outcome :=
  .next (withConfigured sel s fun p =>
    if (s.port p).txSpace then
      (s.setPort p { s.port p with txf := (s.port p).txf ++ [v] }).respond .ok 0 0
    else s.hold (.uartTxfPut sel v))

/-- `UART_RXF_GET p` (R151): held while the RX FIFO is empty. -/
def execUartRxfGet (sel : BitVec 8) (s : State) : Outcome :=
  .next (withConfigured sel s fun p =>
    match (s.port p).rxf with
    | v :: rest => (s.setPort p { s.port p with rxf := rest }).respond .ok 0 (byteData v)
    | [] => s.hold (.uartRxfGet sel))

/-- `UART_STATUS p` (R152). -/
def execUartStatus (sel : BitVec 8) (s : State) : Outcome :=
  .next (withConfigured sel s fun p => s.respond .ok 0 (s.port p).statusWord)

/-- `UART_ISR p` (R153): the service starts and the command stays in progress; the micro-step that ends the service
answers it. The core agent has no callback of this service yet. -/
def execUartIsr (sel : BitVec 8) (s : State) : Outcome :=
  .next (withConfigured sel s fun p =>
    { (s.setPort p { s.port p with phase := .rxTest }).hold (.uartIsr sel) with callbacks := [] })

end Sys2Proof.Machine
end

