-- ==== Sys2Proof/Machine/Dispatch.lean ====
section
/-!
DEFINITION. The dispatch: one arm per command of the opcode table, each one call of its meaning.
-/

namespace Sys2Proof.Machine

/-- The meaning of a decoded command (30_encoding.md R86, steps 3 and 4). -/
def exec (i : Instr) (s : State) : Host.Outcome State Fault Refusal :=
  match i with
  | .cbInit ring base cap => Sys2Proof.Machine.execCbInit ring base cap s
  | .cbWrite ring v => Sys2Proof.Machine.execCbWrite ring v s
  | .cbRead ring => Sys2Proof.Machine.execCbRead ring s
  | .cbIsFull ring => Sys2Proof.Machine.execCbIsFull ring s
  | .cbIsEmpty ring => Sys2Proof.Machine.execCbIsEmpty ring s
  | .brgLoad port baud => Sys2Proof.Machine.execBrgLoad port baud s
  | .brgRead port => Sys2Proof.Machine.execBrgRead port s
  | .uartInit port baud name => Sys2Proof.Machine.execUartInit port baud name s
  | .uartSetRxCb port token => Sys2Proof.Machine.execUartSetRxCb port token s
  | .uartSetTxCb port token => Sys2Proof.Machine.execUartSetTxCb port token s
  | .uartRxiSet port v => Sys2Proof.Machine.execUartRxiSet port v s
  | .uartTxiSet port v => Sys2Proof.Machine.execUartTxiSet port v s
  | .uartTxfPut port v => Sys2Proof.Machine.execUartTxfPut port v s
  | .uartRxfGet port => Sys2Proof.Machine.execUartRxfGet port s
  | .uartStatus port => Sys2Proof.Machine.execUartStatus port s
  | .uartIsr port => Sys2Proof.Machine.execUartIsr port s
  | .itcInit => Sys2Proof.Machine.execItcInit s
  | .itcSetHandler src token => Sys2Proof.Machine.execItcSetHandler src token s
  | .itcSetPriority src cls => Sys2Proof.Machine.execItcSetPriority src cls s
  | .itcEnable src => Sys2Proof.Machine.execItcEnable src s
  | .itcDisable src => Sys2Proof.Machine.execItcDisable src s
  | .itcForce src => Sys2Proof.Machine.execItcForce src s
  | .itcUnforce src => Sys2Proof.Machine.execItcUnforce src s
  | .itcDisableInts => Sys2Proof.Machine.execItcDisableInts s
  | .itcRestoreInts saved => Sys2Proof.Machine.execItcRestoreInts saved s
  | .itcReadNivec => Sys2Proof.Machine.execItcReadNivec s
  | .itcReadFivec => Sys2Proof.Machine.execItcReadFivec s
  | .itcSvcNEnter => Sys2Proof.Machine.execItcSvcNEnter s
  | .itcSvcNReturn => Sys2Proof.Machine.execItcSvcNReturn s
  | .itcSvcF => Sys2Proof.Machine.execItcSvcF s
  | .excDisableIrq => Sys2Proof.Machine.execExcDisableIrq s
  | .excDisableFiq => Sys2Proof.Machine.execExcDisableFiq s
  | .excDisableInts => Sys2Proof.Machine.execExcDisableInts s
  | .excRestoreIrq saved => Sys2Proof.Machine.execExcRestoreIrq saved s
  | .excRestoreFiq saved => Sys2Proof.Machine.execExcRestoreFiq saved s
  | .excRestoreInts saved => Sys2Proof.Machine.execExcRestoreInts saved s
  | .excSetHandler trap token => Sys2Proof.Machine.execExcSetHandler trap token s
  | .excGetHandler trap => Sys2Proof.Machine.execExcGetHandler trap s

end Sys2Proof.Machine
end

