-- ==== Sys2Proof/Machine/CoreAgent.lean ====
section
/-!
DEFINITION. What the core agent does (00_scope.md R11): it issues command words, and it expands the
pseudo-instructions (43_uart_api.md R180 to R183), the handler sequences and services (60_exceptions.md R258 to R262)
into commands. Each task is one step; a task issues at most one command, so trap steps and line events can fall
between any two commands of an expansion.
-/

namespace Sys2Proof.Machine

/-- The tasks that the core agent does before anything else it had to do. -/
def State.push (s : State) (ts : List Task) : State := { s with code := ts ++ s.code }

/-- Issue a command and go on with a task when it has answered. -/
def issueThen (i : Instr) (t : Task) (s : State) : Outcome := exec i (s.push [t])

/-- A pseudo-instruction returns. -/
def State.giveResult (s : State) (st : Status) (v : Word) : State := { s with results := s.results ++ [⟨st, v⟩] }

/-- A pseudo-instruction fails: the error status with the sentinel (43_uart_api.md). -/
def State.giveFailure (s : State) (st : Status) : State := s.giveResult st 0xFFFFFFFF

/-- The response the core agent has last received. -/
def State.lastRsp (s : State) : Response := s.rsp.getD ⟨.ok, 0, 0⟩

/-- Go on with the `data` of the last response; on an error status the pseudo-instruction stops there. -/
def onData (s : State) (k : Word → Outcome) : Outcome :=
  if s.lastRsp.status = .ok then k s.lastRsp.data else .next (s.giveFailure s.lastRsp.status)

/-- The ring id of a port's RX ring as a command operand (R180 to R183). -/
def rxRingSel (p : BitVec 8) : BitVec 8 := p + p

/-- The ring id of a port's TX ring as a command operand. -/
def txRingSel (p : BitVec 8) : BitVec 8 := p + p + 1

/-- A word arrives at the command port: it is decoded and executed, or it is illegal (30_encoding.md R86, R87). -/
def runWord (w : Command) (s : State) : Outcome :=
  match decode w with
  | .ok i => exec i s
  | .error _ => .next (s.fail .illegalCommand)

/-- Lines 1 and 2 of `UART_SEND` and `UART_RECEIVE` (R182, R183): the checks that issue no command. -/
def withBuffer (p : BitVec 8) (buf : Word) (s : State) (k : State → Outcome) : Outcome :=
  if s.nPorts ≤ p.toNat ∨ (s.port p.toNat).configured = false then .next (s.giveFailure .noSuchDevice)
  else if buf = 0 then .next (s.giveFailure .invalidArgument)
  else k s

/-- `run_handler(h)` (R262). -/
def runHandler (h : Token) (s : State) : Outcome :=
  if h = 0 then .next s
  else match uartOfToken s.nPorts h with
    | some p => issueThen (.uartIsr p) .runCallbacks { s with callbacks := [] }
    | none => .next (s.push [.external h])

/-- External code runs: it does what the next entry of `ext` says (R262; log entry 6). -/
def State.runExternal (s : State) (token : Token) : State :=
  match s.ext with
  | [] => { s with invoked := s.invoked ++ [token] }
  | ts :: more => { s with invoked := s.invoked ++ [token], ext := more }.push ts

/-- One task of the core agent, already taken off `code`. -/
def runTask (t : Task) (s : State) : Outcome :=
  match t with
  | .cmd w => runWord w s
  | .issue i => exec i s
  | .store addr v => .next (s.writeByte addr.toNat v)
  | .sendByte p c => issueThen (.uartTxiSet p 0) (.sendByteMasked p c) s
  | .sendByteMasked p c => onData s fun d => .next (s.push [.sendByteLoop p c (d.setWidth 1)])
  | .sendByteLoop p c sv => onData s fun _ => issueThen (.cbIsEmpty (txRingSel p)) (.sendByteTest p c sv) s
  | .sendByteTest p c sv => onData s fun e =>
      if e = 1 then issueThen (.uartTxfPut p c) (.sendByteRestore p sv) s
      else issueThen (.cbRead (txRingSel p)) (.sendByteFlush p c sv) s
  | .sendByteFlush p c sv => onData s fun w => issueThen (.uartTxfPut p (w.setWidth 8)) (.sendByteLoop p c sv) s
  | .sendByteRestore p sv => onData s fun _ => issueThen (.uartTxiSet p sv) (.finish 0) s
  | .receiveByte p => issueThen (.uartRxiSet p 0) (.receiveByteMasked p) s
  | .receiveByteMasked p => onData s fun _ => issueThen (.cbIsEmpty (rxRingSel p)) (.receiveByteTest p) s
  | .receiveByteTest p => onData s fun e =>
      if e = 0 then issueThen (.cbRead (rxRingSel p)) (.receiveByteGot p) s
      else issueThen (.uartRxfGet p) (.receiveByteGot p) s
  | .receiveByteGot p => onData s fun w =>
      issueThen (.uartRxiSet p 1) (.finish ((w.setWidth 8).setWidth 32)) s
  | .send p buf count => withBuffer p buf s (issueThen (.uartTxiSet p 0) (.sendLoop p buf count 0))
  | .sendLoop p buf count n => onData s fun _ =>
      if n.toNat < count.toNat then issueThen (.cbIsFull (txRingSel p)) (.sendTest p buf count n) s
      else issueThen (.uartTxiSet p 1) (.finish n) s
  | .sendTest p buf count n => onData s fun f =>
      if f = 1 then issueThen (.uartTxiSet p 1) (.finish n) s
      else if 2 ^ 32 ≤ buf.toNat + n.toNat then .fault .addressOutside
      else issueThen (.cbWrite (txRingSel p) (s.readByte (buf.toNat + n.toNat))) (.sendLoop p buf count (n + 1)) s
  | .receive p buf count => withBuffer p buf s (issueThen (.uartRxiSet p 0) (.receiveLoop p buf count 0))
  | .receiveLoop p buf count n => onData s fun _ =>
      if n.toNat < count.toNat then issueThen (.cbIsEmpty (rxRingSel p)) (.receiveTest p buf count n) s
      else issueThen (.uartRxiSet p 1) (.finish n) s
  | .receiveTest p buf count n => onData s fun e =>
      if e = 1 then issueThen (.uartRxiSet p 1) (.finish n) s
      else issueThen (.cbRead (rxRingSel p)) (.receiveStore p buf count n) s
  | .receiveStore p buf count n => onData s fun w =>
      if 2 ^ 32 ≤ buf.toNat + n.toNat then .fault .addressOutside
      else .next ((s.writeByte (buf.toNat + n.toNat) (w.setWidth 8)).push [.receiveLoop p buf count (n + 1)])
  | .finish v => onData s fun _ => .next (s.giveResult .ok v)
  | .handler .irq saved token =>
      .next (s.push [if token = 0 then .serviceNormal else .external token, .issue (.excRestoreInts saved)])
  | .handler .fiq saved token =>
      .next (s.push [if token = 0 then .serviceFast else .external token, .issue (.excRestoreInts saved)])
  | .serviceNormal => issueThen .itcSvcNEnter .serviceNormalEntered s
  | .serviceNormalEntered =>
      if s.lastRsp.aux = 0xFF then .next s
      else .next (s.push [.runHandler s.lastRsp.data, .issue .itcSvcNReturn])
  | .serviceFast => issueThen .itcSvcF .serviceFastEntered s
  | .serviceFastEntered =>
      if s.lastRsp.aux = 0xFF then .next s else .next (s.push [.runHandler s.lastRsp.data])
  | .runHandler h => runHandler h s
  | .runCallbacks => .next (s.push (s.callbacks.map .external))
  | .external token => .next (s.runExternal token)
  | .resume rsp callbacks => .next { s with rsp := rsp, callbacks := callbacks }

/-- The core agent's turn: nothing while a service runs (42_uart_seq.md R156); a held command is tried again (R268);
else the next task, if there is one. -/
def coreMove (s : State) : Outcome :=
  match s.activePort with
  | some _ => .next s
  | none =>
      match s.busy with
      | some i => exec i s
      | none =>
          match s.code with
          | [] => .next s
          | t :: rest => runTask t { s with code := rest }

end Sys2Proof.Machine
end

