-- ==== Sys2Proof/Machine/Environment.lean ====
section
/-!
DEFINITION. The steps of the line environment (42_uart_seq.md R165, R166) and of the interrupt environment (44_itc.md
R192). A step that is not enabled changes nothing.
-/

namespace Sys2Proof.Machine

/-- `LINE_RX(p, v)` (R165): queued if the port is Configured and the RX FIFO has room, else lost without trace. -/
def State.lineRx (s : State) (p : Nat) (v : Byte) : State :=
  let q := s.port p
  if q.configured && decide (q.rxf.length < Config.fifoDepth) then
    s.setPort p { q with rxf := q.rxf ++ [v] }
  else s

/-- `LINE_TX(p)` (R166). -/
def State.lineTx (s : State) (p : Nat) : State :=
  let q := s.port p
  match q.configured, q.txf with
  | true, v :: rest => (s.setPort p { q with txf := rest }).emit (.lineOut p v)
  | _, _ => s

/-- `EXT_IRQ(src, level)` (R192), enabled for a source wired to no port. -/
def State.extIrq (s : State) (src : Nat) (level : Bool) : State :=
  match s.params.portOfSrc src with
  | some _ => s
  | none => s.setSource src { s.source src with line := level }

end Sys2Proof.Machine
end

