-- ==== Sys2Proof/Machine/Sequencer.lean ====
section
/-!
DEFINITION. The sequencer micro-steps (42_uart_seq.md R157 to R162).
-/

namespace Sys2Proof.Machine

/-- `PORT[p].PHASE <- X`. -/
def State.setPhase (s : State) (p : Nat) (x : Phase) : State := s.setPort p { s.port p with phase := x }

/-- The service of port `p` ends and `UART_ISR` is answered (R160, R162). -/
def State.endService (s : State) (p : Nat) : State := (s.setPhase p .idle).respond .ok 0 0

/-- `SEQ_RX_TEST(p)` (R157). -/
def State.seqRxTest (s : State) (p : Nat) : State :=
  if (s.port p).rxReady && (s.port p).rxIe then s.setPhase p .rxDrain else s.setPhase p .txTest

/-- `SEQ_RX_MOVE(p)` (R158) with `v` the head of `RXF` and `rest` what is behind it. -/
def State.seqRxMove (s : State) (p : Nat) (v : Byte) (rest : List Byte) : State :=
  ((s.setPort p { s.port p with rxf := rest }).ringWrite (rxRing p) v).2

/-- `SEQ_RX_END(p)` (R159): the callback, then backpressure if the RX ring is full. -/
def State.seqRxEnd (s : State) (p : Nat) : State :=
  let t := s.announce p .rx (s.port p).rxCb
  let q := t.port p
  t.setPort p { q with rxIe := if (t.ring (rxRing p)).isFull then false else q.rxIe, phase := .txTest }

/-- `SEQ_TX_TEST(p)` (R160). -/
def State.seqTxTest (s : State) (p : Nat) : State :=
  if (s.port p).txReady && (s.port p).txIe then s.setPhase p .txFill else s.endService p

/-- `SEQ_TX_MOVE(p)` (R161). -/
def State.seqTxMove (s : State) (p : Nat) : State :=
  let (_, v, t) := s.ringRead (txRing p)
  t.setPort p { t.port p with txf := (t.port p).txf ++ [v] }

/-- `SEQ_TX_END(p)` (R162): the callback, then the TX-ready interrupt off if the TX ring is empty. -/
def State.seqTxEnd (s : State) (p : Nat) : State :=
  let t := s.announce p .tx (s.port p).txCb
  let q := t.port p
  (t.setPort p { q with txIe := if (t.ring (txRing p)).isEmpty then false else q.txIe }).endService p

/-- The one micro-step of port `p` that is enabled in its phase (R163). -/
def State.seqStep (s : State) (p : Nat) : State :=
  match (s.port p).phase with
  | .idle => s
  | .rxTest => s.seqRxTest p
  | .rxDrain =>
      match (s.ring (rxRing p)).isFull, (s.port p).rxf with
      | false, v :: rest => s.seqRxMove p v rest
      | _, _ => s.seqRxEnd p
  | .txTest => s.seqTxTest p
  | .txFill =>
      if !(s.ring (txRing p)).isEmpty && (s.port p).txSpace then s.seqTxMove p else s.seqTxEnd p

end Sys2Proof.Machine
end

