-- ==== Sys2Proof/Machine/Schedule.lean ====
section
/-!
DEFINITION. Which agent moves and what its step does (00_scope.md R11, 10_state.md R51, 60_exceptions.md R250, R257).
-/

namespace Sys2Proof.Machine

/-- The trap logic's step: `TRAP_FIQ` before `TRAP_IRQ` (R250, R255, R256); nothing where neither is enabled. -/
def State.trapMove (s : State) : State :=
  if s.fiqEnabled then s.takeTrap .fiq else if s.irqEnabled then s.takeTrap .irq else s

/-- The step of the sequencer whose service is in progress, if one is (42_uart_seq.md R156). -/
def State.seqMove (s : State) : State :=
  match s.activePort with
  | some p => s.seqStep p
  | none => s

/-- The step of the chosen agent. -/
def performMove (m : Move) (s : State) : Outcome :=
  match m with
  | .core => coreMove s
  | .trap => .next s.trapMove
  | .seq => .next s.seqMove
  | .lineRx p v => .next (s.lineRx p v)
  | .lineTx p => .next (s.lineTx p)
  | .extIrq src level => .next (s.extIrq src level)
  | .brgTick p => .next (s.brgTick p)

/-- Who moves where the agenda says nothing: a running service goes on, an enabled trap is taken before the next
command (the reference `TRAP_LATENCY = 0`), else the core agent has its turn. -/
def State.defaultMove (s : State) : Move :=
  if s.activePort.isSome then .seq
  else if s.fiqEnabled || s.irqEnabled then .trap
  else .core

/-- The next step: the agenda's first choice, or the default (log entry 3). -/
def nextStep (s : State) : Outcome :=
  match s.agenda with
  | m :: rest => performMove m { s with agenda := rest }
  | [] => performMove s.defaultMove s

/-- A port whose sequencer is idle. -/
def Port.idled (q : Port) : Port := { q with phase := .idle }

/-- The state in which the next step is the core agent's issue of the word `w`: no command is in progress, `w` is the
first thing the core agent has to do, and it is the core agent's turn. -/
def State.presentWord (s : State) (w : Command) : State :=
  { s with
    busy := none
    ports := s.ports.map Port.idled
    agenda := .core :: s.agenda
    code := .cmd w :: s.code }

end Sys2Proof.Machine
end

