-- ==== Sys2Proof/Machine/Step.lean ====
section
/-!
DEFINITION. The step of the machine, and how a command word is put where the next step takes it from.
-/

namespace Sys2Proof.Machine

/-- One atomic step of one agent (00_scope.md R11). -/
def step (s : State) : Host.Outcome State Fault Refusal := nextStep s

/-- The state whose very next step issues the command word `w` (the bits at and above `nbits` 0) on the command port
(log entry 5). -/
def State.withFetchWord (s : State) (nbits w : Nat) : State := s.presentWord (BitVec.ofNat 80 (w % 2 ^ nbits))

end Sys2Proof.Machine
end

