-- ==== Sys2Proof/Safety.lean ====
section
/-!
DEFINITION. The terms claims use: the invariants of the state (10_state.md R22 and the legal values of its tables),
the byte sequence a ring holds (40_ring.md R110), the classes of a ring (R109), the encoding a rule gives, and
the one address a step stores to (20_memory.md R67).
-/

namespace Sys2Proof.Machine

/-- The ring invariant (10_state.md R22), with the region inside the address space (20_memory.md R63). -/
abbrev Ring.Inv (r : Ring) : Prop :=
  (r.bound = true →
    1 ≤ r.cap.toNat ∧ r.rd.toNat < r.cap.toNat ∧ r.wr.toNat < r.cap.toNat ∧ (r.full = true → r.rd = r.wr) ∧
      r.base.toNat + r.cap.toNat ≤ 2 ^ 32) ∧
  (r.bound = false → r.cap = 0 ∧ r.rd = 0 ∧ r.wr = 0 ∧ r.full = false)

/-- The legal values of a port's registers (R27, R30, R31), and that an Uninitialized port is quiet. -/
abbrev Port.Inv (q : Port) : Prop :=
  q.rxf.length ≤ Config.fifoDepth ∧ q.txf.length ≤ Config.fifoDepth ∧
  q.rxLevel.toNat ≤ Config.fifoDepth ∧ q.txLevel.toNat ≤ Config.fifoDepth ∧
  (q.brMod = 0 ∨ q.brMod.toNat = Config.brgMod) ∧
  (q.brgCounts = true → q.brAcc.toNat < q.brMod.toNat) ∧
  (q.configured = false → q.rxf = [] ∧ q.txf = [] ∧ q.rxIe = false ∧ q.txIe = false)

/-- A command that may be in progress: one of the three of 30_encoding.md R82, on a Configured port, and a service
whose sequencer is running. -/
def State.mayBeBusy (s : State) : Instr → Bool
  | .uartTxfPut sel _ => decide (sel.toNat < s.nPorts) && (s.port sel.toNat).configured
  | .uartRxfGet sel => decide (sel.toNat < s.nPorts) && (s.port sel.toNat).configured
  | .uartIsr sel =>
      decide (sel.toNat < s.nPorts) && (s.port sel.toNat).configured && (s.port sel.toNat).phase != .idle
  | _ => false

/-- The command in progress and the sequencers agree (R82; 42_uart_seq.md R153, R156): a running sequencer is that of
the `UART_ISR` in progress, so at most one runs. -/
abbrev State.ServiceInv (s : State) : Prop :=
  (∀ p ∈ List.range s.nPorts, (s.port p).phase ≠ .idle → s.busy = some (.uartIsr (BitVec.ofNat 8 p))) ∧
  (s.busy.all s.mayBeBusy) = true

/-- The invariant of the machine: the parameters meet R6 and R7, the records are as many as they say, every record
holds legal values, the service floor is legal (R41), memory has its canonical form, and the service agrees with the
command port. -/
abbrev State.Inv (s : State) : Prop :=
  s.params.Valid ∧
  (s.nPorts = s.params.nPorts ∧ s.nRings = 2 * s.params.nPorts ∧ s.nSrc = s.params.nSrc) ∧
  (∀ r ∈ s.rings, r.Inv) ∧ (∀ q ∈ s.ports, q.Inv) ∧
  s.svcFloor.toNat ≤ s.nSrc ∧ s.mem.wf = true ∧ s.ServiceInv

/-- The bytes ring `r` holds, oldest first: `pending` slots from the read index on (40_ring.md R110). -/
def State.contents (s : State) (r : Nat) : List Byte :=
  let x := s.ring r
  (List.range x.pending).map fun k => s.readByte (x.slot (BitVec.ofNat 16 ((x.rd.toNat + k) % x.cap.toNat))).toNat

/-- The regions of two rings share no byte (20_memory.md R72). -/
abbrev Ring.Disjoint (x y : Ring) : Prop :=
  x.base.toNat + x.cap.toNat ≤ y.base.toNat ∨ y.base.toNat + y.cap.toNat ≤ x.base.toNat

/-- The classes of a bound ring (40_ring.md R109); an unbound ring is in none. -/
inductive RingClass where
  | empty
  | partly
  | fullState
deriving DecidableEq, Repr

/-- The class of a ring by `pending` (R109). -/
def Ring.classOf (r : Ring) : Option RingClass :=
  if r.bound = false then none
  else if r.pending = 0 then some .empty
  else if r.pending = r.cap.toNat then some .fullState
  else some .partly

/-- The word with these four fields is the encoding of the command (30_encoding.md R80, R85). -/
abbrev Encodes (op sel : BitVec 8) (a b : Word) (i : Instr) : Prop := decode (packCommand op sel a b) = .ok i

/-- The answer of a failed command: the error status and the two sentinels (30_encoding.md R81). -/
abbrev sentinel (st : Status) : Option Response := some ⟨st, 0xFF, 0xFFFFFFFF⟩

/-- The answer of a completed command (R81). -/
abbrev answer (aux : BitVec 8) (data : Word) : Option Response := some ⟨.ok, aux, data⟩

/-- The command is refused with an error: the sentinels are answered and nothing else changes (30_encoding.md R81). -/
abbrev Fails (i : Instr) (s : State) (st : Status) : Prop :=
  exec i s = .next { s with busy := none, rsp := sentinel st }

/-- The command completes: the state after is `t` with the command answered `OK` (R81, R82). -/
abbrev Answers (i : Instr) (s : State) (aux : BitVec 8) (data : Word) (t : State) : Prop :=
  exec i s = .next { t with busy := none, rsp := answer aux data }

/-- The service of port `p` is in progress in phase `x`, and no other sequencer runs (42_uart_seq.md R156). -/
abbrev State.Running (s : State) (p : Nat) (x : Phase) : Prop :=
  p < s.nPorts ∧ (s.port p).phase = x ∧ x ≠ .idle ∧ ∀ j < s.nPorts, j ≠ p → (s.port j).phase = .idle

/-- The moves that are not the core side's: the sequencer, the line, external requests and ticks (R156). -/
def Move.offCore : Move → Bool
  | .core => false
  | .trap => false
  | .seq => true
  | .lineRx _ _ => true
  | .lineTx _ => true
  | .extIrq _ _ => true
  | .brgTick _ => true

/-- The core agent is about to issue the word `w`: no command is in progress, and it is the core agent's turn, by the
agenda or because no trap is enabled; `rest` and `ag` are what is left after it. -/
abbrev State.Issues (s : State) (w : Command) (rest : List Task) (ag : List Move) : Prop :=
  s.atBoundary = true ∧ s.code = .cmd w :: rest ∧
  (s.agenda = .core :: ag ∨ (s.agenda = [] ∧ ag = [] ∧ s.fiqEnabled = false ∧ s.irqEnabled = false))

/-- The address an accepted write to ring `r` stores to, the slot at its write index (40_ring.md R102); a full ring, an
unbound one among them, stores nothing. -/
def State.ringStores (s : State) (r : Nat) : Option Nat :=
  if (s.ring r).isFull then none else some ((s.ring r).slot (s.ring r).wr).toNat

/-- The address a command stores to (20_memory.md R67): only an accepted `CB_WRITE` has one. -/
def State.commandStores (s : State) : Instr → Option Nat
  | .cbWrite sel _ => s.ringStores sel.toNat
  | _ => none

/-- The address a task of the core agent stores to: that of the command it issues, or of its own store (R62). -/
def State.taskStores (s : State) : Task → Option Nat
  | .cmd w => (decode w).toOption.bind s.commandStores
  | .issue i => s.commandStores i
  | .store addr _ => some addr.toNat
  | .sendTest p _ _ _ =>
      if s.lastRsp.status = .ok ∧ s.lastRsp.data ≠ 1 then s.ringStores (txRingSel p).toNat else none
  | .receiveStore _ buf _ n => if s.lastRsp.status = .ok then some (buf.toNat + n.toNat) else none
  | _ => none

/-- The address the core agent's turn stores to: nothing while a service runs; else that of the held command, or of
the next task. -/
def State.coreStores (s : State) : Option Nat :=
  match s.activePort, s.busy, s.code with
  | some _, _, _ => none
  | none, some i, _ => s.commandStores i
  | none, none, t :: _ => s.taskStores t
  | none, none, [] => none

/-- The address the running sequencer's micro-step stores to: that of `SEQ_RX_MOVE`, which is enabled in `RX_DRAIN`
with a byte in the RX FIFO and room in the RX ring (42_uart_seq.md R158). -/
def State.seqStores (s : State) : Option Nat :=
  match s.activePort with
  | some p => if (s.port p).phase = .rxDrain ∧ (s.port p).rxf ≠ [] then s.ringStores (rxRing p) else none
  | none => none

/-- The address the next step stores to, if it stores: that of the agent whose turn it is. -/
def State.stepStores (s : State) : Option Nat :=
  match s.agenda.head?.getD s.defaultMove with
  | .core => s.coreStores
  | .seq => s.seqStores
  | .trap => none
  | .lineRx _ _ => none
  | .lineTx _ => none
  | .extIrq _ _ => none
  | .brgTick _ => none

end Sys2Proof.Machine
end

