-- ==== Sys2Proof/Certificates/Slice0/Obligations.lean ====
section
/-!
DEFINITION. The statements for the provers: what the rules of spec/ say of the commands and of the machine. A number
in brackets is a row of notes/assumptions.
-/

open Sys2Proof Sys2Proof.Machine

/-! ### Encoding -/

/-- No operand bit is lost: the decoder reads every command back from its encoding (30_encoding.md R80, R85). -/
def Obligations.DecodeOfEncode : Prop := ∀ i : Instr, decode (encode i) = .ok i

/-- Every word has one meaning: a word that decodes is the encoding of what it decodes to, so every bit that the
command does not use is zero (R83, R86). -/
def Obligations.EncodeOfDecode : Prop := ∀ (w : Command) (i : Instr), decode w = .ok i → encode i = w

/-- The decoder is the opcode table: it gives a command exactly where a row's mask and match accept the word, under
that row's mnemonic, and no word is accepted by two rows (R85, R86). -/
def Obligations.DecodeMatchesRows : Prop :=
  (∀ (w : Command) (i : Instr), decode w = .ok i →
    ∃ row ∈ opcodeTable, row.mnemonic = i.mnemonic ∧ row.accepts w = true) ∧
  (∀ w : Command, ∀ row ∈ opcodeTable, row.accepts w = true →
    ∃ i, decode w = .ok i ∧ i.mnemonic = row.mnemonic) ∧
  opcodeTable.Pairwise fun x y => ∀ w : Command, x.accepts w = true → y.accepts w = false

/-- A few words written out in 30_encoding.md R89 and 95_test_vectors.md decode to the commands they stand for. -/
def Obligations.SpecWordsDecode : Prop :=
  decode 0x10000040000000000004 = .ok (.cbInit 0 0x00400000 4) ∧
  decode 0x12000000000000000000 = .ok (.cbRead 0) ∧
  decode 0x11000000000000000041 = .ok (.cbWrite 0 0x41) ∧
  decode 0x20000001C20000000000 = .ok (.brgLoad 0 115200) ∧
  decode 0x30000001C20000001000 = .ok (.uartInit 0 115200 0x1000) ∧
  decode 0x35000000000000000042 = .ok (.uartTxfPut 0 0x42) ∧
  decode 0x430A0000000000000000 = .ok (.itcEnable 10) ∧
  decode 0x55000000000000000004 = .error (.mustBeZero 0x55) ∧
  decode 0x15000000000000000000 = .error (.reservedOp 0x15)

/-! ### The step and the command port -/

/-- A step is the step of the agent that the agenda names first; where it names none, the running service goes on, an
enabled trap is taken, or the core agent has its turn (the model's schedule [3]). -/
def Obligations.StepIsAgentMove : Prop :=
  ∀ s : State,
    (∀ m ag, s.agenda = m :: ag → step s = performMove m { s with agenda := ag }) ∧
    (s.agenda = [] →
      step s = performMove
        (if s.activePort.isSome then .seq else if s.fiqEnabled || s.irqEnabled then .trap else .core) s)

/-- The core agent's issue of a word gives it to the command port, and a word that decodes is the execution of the
command; the word and the turn are used up. -/
def Obligations.StepRunsDecodedCommand : Prop :=
  ∀ (s : State) (w : Command) (rest : List Task) (ag : List Move), s.Issues w rest ag →
    step s = runWord w { s with code := rest, agenda := ag } ∧
    ∀ i, decode w = .ok i → step s = exec i { s with code := rest, agenda := ag }

/-- A word presented to the command port runs in the very next step, on the same state with the port idle [5]. -/
def Obligations.StepRunsPresentedWord : Prop :=
  ∀ (s : State) (w : Nat) (i : Instr), decodeTableWord 80 w = some i →
    step (s.withFetchWord 80 w) = exec i { s with busy := none, ports := s.ports.map Port.idled }

/-- A word that no row of the table accepts is answered at once `IllegalCommand`, code 15, and changes nothing; 218 opcodes are
of this kind whatever the rest of the word (30_encoding.md R87). -/
def Obligations.IllegalWordChangesNothing : Prop :=
  (∀ (s : State) (w : Command), (∀ row ∈ opcodeTable, row.accepts w = false) →
    runWord w s = .next { s with busy := none, rsp := sentinel .illegalCommand }) ∧
  Status.illegalCommand.code = 15 ∧
  ((List.range 256).filter fun n => opcodeTable.all fun row => opOf row.value != BitVec.ofNat 8 n).length = 218 ∧
  (∀ w : Command, (∀ row ∈ opcodeTable, opOf row.value ≠ opOf w) → ∀ row ∈ opcodeTable, row.accepts w = false)

/-- No step is refused: no command is for the context it is issued in (60_exceptions.md R266), and it is the model's
choice where the spec lets a model refuse: an unset dispatch (44_itc.md R209) [7], a class change while pending (R197)
and an unmatched restore (R203; 45_exc.md R223 to R225) [15]. The one fault is the core agent's own access past the top of memory, in a UART_SEND or
UART_RECEIVE whose buffer runs past address 0xFFFFFFFF [10]. -/
def Obligations.StepNeverRefuses : Prop :=
  ∀ s : State, (∀ r, step s ≠ .refused r) ∧
    (∀ f, step s = .fault f → f = .addressOutside ∧ s.atBoundary = true ∧
      ∃ p buf count n rest, 2 ^ 32 ≤ buf.toNat + n.toNat ∧
        (s.code = .sendTest p buf count n :: rest ∨ s.code = .receiveStore p buf count n :: rest))

/-! ### Errors -/

/-- Every command whose operands fail the checks of 60_exceptions.md R241 answers that error, checked in its order,
with the two sentinels, and changes nothing. -/
def Obligations.OperandErrorsFail : Prop :=
  ∀ (i : Instr) (s : State) (st : Status), i.operandError s.limits = some st → Fails i s st

/-- The port check (42_uart_seq.md R142): a port id out of range, or a port that is not Configured. -/
def Obligations.PortCheckFails : Prop :=
  ∀ (s : State) (sel : BitVec 8) (token : Token) (v : Byte) (e : BitVec 1),
    (s.nPorts ≤ sel.toNat ∨ (s.port sel.toNat).configured = false) →
    ∀ i ∈ [Instr.uartSetRxCb sel token, .uartSetTxCb sel token, .uartRxiSet sel e, .uartTxiSet sel e,
      .uartTxfPut sel v, .uartRxfGet sel, .uartStatus sel, .uartIsr sel], Fails i s .noSuchDevice

/-- Every error response carries the two sentinels and one of the three codes of 60_exceptions.md R240, and no state
has changed (30_encoding.md R81): its 44-bit word is the code above forty ones; and every response has `status` in
bits 43 to 40 of its word, `aux` in bits 39 to 32, `data` in bits 31 to 0. -/
def Obligations.ErrorResponseChangesNothing : Prop :=
  (∀ (i : Instr) (s t : State) (st : Status) (aux : BitVec 8) (data : Word),
    exec i s = .next t → t.busy = none → t.rsp = some ⟨st, aux, data⟩ → st ≠ .ok →
    aux = 0xFF ∧ data = 0xFFFFFFFF ∧ (st.code = 1 ∨ st.code = 2 ∨ st.code = 3) ∧
    t.rspWord = some (st.code ++ 0xFFFFFFFFFF#40) ∧
    t = { s with busy := none, rsp := sentinel st }) ∧
  ∀ r : Response,
    r.word.extractLsb' 40 4 = r.status.code ∧ r.word.extractLsb' 32 8 = r.aux ∧ r.word.extractLsb' 0 32 = r.data

/-! ### Ring commands -/

/-- `CB_INIT` (40_ring.md R101) with the initialisation path (R100): the checks in order, then the ring is bound and
empty; memory is not touched. -/
def Obligations.CbInitBindsRing : Prop :=
  ∀ (s : State) (sel : BitVec 8) (base : Word) (cap : Half),
    Encodes 0x10 sel base (cap.setWidth 32) (.cbInit sel base cap) ∧
    (s.nRings ≤ sel.toNat → Fails (.cbInit sel base cap) s .invalidParameter) ∧
    (sel.toNat < s.nRings → cap = 0 → Fails (.cbInit sel base cap) s .invalidParameter) ∧
    (sel.toNat < s.nRings → cap ≠ 0 → 2 ^ 32 < base.toNat + cap.toNat →
      Fails (.cbInit sel base cap) s .invalidParameter) ∧
    (sel.toNat < s.nRings → cap ≠ 0 → base.toNat + cap.toNat ≤ 2 ^ 32 →
      Answers (.cbInit sel base cap) s 0 0
        { s with
          rings := s.rings.set sel.toNat { bound := true, base := base, cap := cap, rd := 0, wr := 0, full := false } }) ∧
    (∀ x : Ring, x = { bound := true, base := base, cap := cap, rd := 0, wr := 0, full := false } →
      x.isEmpty = true ∧ x.isFull = false ∧ x.pending = 0)

/-- `CB_WRITE` (R103) with the write path (R102) and the violation policy (R106): a full or unbound ring rejects
without a trace but `data = 0`; else one byte is stored at `BASE + WR`, no other byte of memory changes, and of the
registers only `WR` and `FULL` of this ring; the bytes pending grow by one. -/
def Obligations.CbWriteStoresByte : Prop :=
  ∀ (s : State) (sel : BitVec 8) (v : Byte),
    Encodes 0x11 sel 0 (v.setWidth 32) (.cbWrite sel v) ∧
    (s.nRings ≤ sel.toNat → Fails (.cbWrite sel v) s .invalidParameter) ∧
    (sel.toNat < s.nRings → ((s.ring sel.toNat).full = true ∨ (s.ring sel.toNat).bound = false) →
      Answers (.cbWrite sel v) s 0 0 s) ∧
    (sel.toNat < s.nRings → (s.ring sel.toNat).full = false → (s.ring sel.toNat).bound = true →
      ∃ (m : Memory) (x : Ring),
        Answers (.cbWrite sel v) s 0 1 { s with mem := m, rings := s.rings.set sel.toNat x } ∧
        x = { s.ring sel.toNat with
          wr := if (s.ring sel.toNat).wr.toNat + 1 = (s.ring sel.toNat).cap.toNat then 0 else (s.ring sel.toNat).wr + 1
          full := decide (x.wr = (s.ring sel.toNat).rd) } ∧
        (∀ a : Nat, { s with mem := m }.readByte a =
          if a = ((s.ring sel.toNat).base + (s.ring sel.toNat).wr.setWidth 32).toNat then v else s.readByte a) ∧
        ((s.ring sel.toNat).Inv → x.pending = (s.ring sel.toNat).pending + 1))

/-- `CB_READ` (R105) with the read path (R104) and the violation policy (R106): an empty ring, an unbound one among
them, rejects with `data = 0`; else the byte at `BASE + RD` is answered beside bit 8, memory does not change, and of
the registers only `RD` and `FULL` of this ring; the bytes pending shrink by one. -/
def Obligations.CbReadTakesByte : Prop :=
  ∀ (s : State) (sel : BitVec 8),
    Encodes 0x12 sel 0 0 (.cbRead sel) ∧
    (s.nRings ≤ sel.toNat → Fails (.cbRead sel) s .invalidParameter) ∧
    (sel.toNat < s.nRings → (s.ring sel.toNat).rd = (s.ring sel.toNat).wr → (s.ring sel.toNat).full = false →
      Answers (.cbRead sel) s 0 0 s) ∧
    (sel.toNat < s.nRings → ((s.ring sel.toNat).rd ≠ (s.ring sel.toNat).wr ∨ (s.ring sel.toNat).full = true) →
      ∃ x : Ring,
        Answers (.cbRead sel) s 0
          (0x000001#24 ++ s.readByte ((s.ring sel.toNat).base + (s.ring sel.toNat).rd.setWidth 32).toNat)
          { s with rings := s.rings.set sel.toNat x } ∧
        x = { s.ring sel.toNat with
          rd := if (s.ring sel.toNat).rd.toNat + 1 = (s.ring sel.toNat).cap.toNat then 0 else (s.ring sel.toNat).rd + 1
          full := false } ∧
        ((s.ring sel.toNat).Inv → x.pending + 1 = (s.ring sel.toNat).pending))

/-- `CB_IS_FULL` (R107) and `CB_IS_EMPTY` (R108) answer the predicates and change nothing; an unbound ring, its
registers 0 as 10_state.md R22 has them, is both, a bound ring never. -/
def Obligations.CbPredicatesAnswer : Prop :=
  ∀ (s : State) (sel : BitVec 8),
    Encodes 0x13 sel 0 0 (.cbIsFull sel) ∧ Encodes 0x14 sel 0 0 (.cbIsEmpty sel) ∧
    (s.nRings ≤ sel.toNat →
      Fails (.cbIsFull sel) s .invalidParameter ∧ Fails (.cbIsEmpty sel) s .invalidParameter) ∧
    (sel.toNat < s.nRings →
      Answers (.cbIsFull sel) s 0
        (if (s.ring sel.toNat).full = true ∨ (s.ring sel.toNat).bound = false then 1 else 0) s ∧
      Answers (.cbIsEmpty sel) s 0
        (if (s.ring sel.toNat).rd = (s.ring sel.toNat).wr ∧ (s.ring sel.toNat).full = false then 1 else 0) s) ∧
    (sel.toNat < s.nRings → (s.ring sel.toNat).Inv → (s.ring sel.toNat).bound = false →
      Answers (.cbIsFull sel) s 0 1 s ∧ Answers (.cbIsEmpty sel) s 0 1 s) ∧
    (sel.toNat < s.nRings → (s.ring sel.toNat).bound = true →
      ¬(Answers (.cbIsFull sel) s 0 1 s ∧ Answers (.cbIsEmpty sel) s 0 1 s))

/-- The ring as a state machine (R109; 10_state.md R24): a bound ring is full exactly when `pending = CAP` and empty
exactly when `pending = 0`, an unbound one is both; and an accepted write or read moves it between the three classes
as the table of R109 says. -/
def Obligations.RingTransitions : Prop :=
  ∀ x : Ring, x.Inv →
    x.pending ≤ x.cap.toNat ∧ (x.isFull = true ↔ x.pending = x.cap.toNat) ∧ (x.isEmpty = true ↔ x.pending = 0) ∧
    (x.classOf = none ↔ x.bound = false) ∧ (x.bound = false → x.isFull = true ∧ x.isEmpty = true) ∧
    (x.classOf = some .empty →
      x.isFull = false ∧ x.afterWrite.classOf = if x.cap.toNat = 1 then some .fullState else some .partly) ∧
    (x.classOf = some .partly →
      x.isFull = false ∧ x.isEmpty = false ∧
      x.afterWrite.classOf = (if x.pending = x.cap.toNat - 1 then some .fullState else some .partly) ∧
      x.afterRead.classOf = if x.pending = 1 then some .empty else some .partly) ∧
    (x.classOf = some .fullState →
      x.isEmpty = false ∧ x.afterRead.classOf = if x.cap.toNat = 1 then some .empty else some .partly)

/-- First in, first out, the producer's half (R110): an accepted write appends its byte to the bytes the ring holds,
and the bytes of every bound ring whose region is disjoint stay as they are (20_memory.md R72). -/
def Obligations.WriteAppendsToRing : Prop :=
  ∀ (s : State) (sel : BitVec 8) (v : Byte),
    sel.toNat < s.nRings → (s.ring sel.toNat).Inv → (s.ring sel.toNat).isFull = false →
    ∃ t, exec (.cbWrite sel v) s = .next t ∧ t.contents sel.toNat = s.contents sel.toNat ++ [v] ∧
      ∀ r < s.nRings, r ≠ sel.toNat → (s.ring r).Inv → (s.ring sel.toNat).Disjoint (s.ring r) →
        t.contents r = s.contents r

/-- First in, first out, the consumer's half (R110): a read of a ring that holds bytes answers the oldest and leaves
the others in their order, and every other ring keeps its bytes. -/
def Obligations.ReadTakesOldestOfRing : Prop :=
  ∀ (s : State) (sel : BitVec 8) (v : Byte) (rest : List Byte),
    sel.toNat < s.nRings → (s.ring sel.toNat).Inv → s.contents sel.toNat = v :: rest →
    ∃ t, exec (.cbRead sel) s = .next t ∧ t.rsp = answer 0 (0x000001#24 ++ v) ∧ t.contents sel.toNat = rest ∧
      ∀ r, r ≠ sel.toNat → t.contents r = s.contents r

/-! ### Baud generator -/

/-- `BRG_LOAD` (41_brg.md R121) loads and answers the divisor of R120. -/
def Obligations.BrgLoadComputesDivisor : Prop :=
  ∀ (s : State) (sel : BitVec 8) (baud : Word) (q : Half),
    q = BitVec.ofNat 16 (baud.toNat * 9999 / (s.params.coreClock / 16)) →
    Encodes 0x20 sel baud 0 (.brgLoad sel baud) ∧
    (s.nPorts ≤ sel.toNat → Fails (.brgLoad sel baud) s .noSuchDevice) ∧
    (sel.toNat < s.nPorts →
      Answers (.brgLoad sel baud) s 0 (q ++ 0x270F#16)
        { s with ports := s.ports.set sel.toNat { s.port sel.toNat with brMod := 9999, brInc := q, brAcc := 0 } })

/-- `BRG_READ` (R122) answers the divisor pair and changes nothing. -/
def Obligations.BrgReadAnswersDivisor : Prop :=
  ∀ (s : State) (sel : BitVec 8),
    Encodes 0x21 sel 0 0 (.brgRead sel) ∧
    (s.nPorts ≤ sel.toNat → Fails (.brgRead sel) s .noSuchDevice) ∧
    (sel.toNat < s.nPorts →
      Answers (.brgRead sel) s 0 ((s.port sel.toNat).brInc ++ (s.port sel.toNat).brMod) s)

/-- `BRG_TICK` (R124) adds the increment modulo the modulus and ticks where the sum reaches it; a divider that is off
does nothing; where `BR_INC > BR_MOD` (R126) no register changes and the tick is free, for every value of the draw
(the model's reading of R126 [9]). -/
def Obligations.BrgTickCounts : Prop :=
  ∀ (s : State) (p : Nat) (q : Port), q = s.port p →
    (q.brMod = 0 ∨ q.brInc = 0 → performMove (.brgTick p) s = .next s) ∧
    (q.brMod ≠ 0 → q.brInc ≠ 0 → q.brInc.toNat ≤ q.brMod.toNat → q.brAcc.toNat < q.brMod.toNat →
      performMove (.brgTick p) s = .next { s with
        ports := s.ports.set p { q with brAcc := BitVec.ofNat 16 ((q.brAcc.toNat + q.brInc.toNat) % q.brMod.toNat) }
        events := if q.brMod.toNat ≤ q.brAcc.toNat + q.brInc.toNat then s.events ++ [.brgTick p] else s.events }) ∧
    (q.brMod ≠ 0 → q.brMod.toNat < q.brInc.toNat →
      ∃ k, performMove (.brgTick p) s = .next { s with freeCount := k } ∨
        performMove (.brgTick p) s = .next { s with freeCount := k, events := s.events ++ [.brgTick p] })

/-- Over `BR_MOD` cycles the divider ticks exactly `BR_INC` times and comes back to where it was (R124). -/
def Obligations.BrgTickRate : Prop :=
  ∀ (s : State) (p : Nat) (ag : List Move),
    (s.port p).brgCounts = true → (s.port p).brAcc.toNat < (s.port p).brMod.toNat →
    s.agenda = List.replicate (s.port p).brMod.toNat (.brgTick p) ++ ag →
    core.run (s.port p).brMod.toNat s = .next { s with
      agenda := ag, events := s.events ++ List.replicate (s.port p).brInc.toNat (.brgTick p) }

/-! ### UART port commands -/

/-- `UART_INIT` (42_uart_seq.md R140, R141): the checks in order; then the port is Configured with the divisor loaded,
FIFOs and callbacks cleared, RX enabled and TX not, both rings bound to the port's regions, its source registered as
a normal one and enabled, and the pins announced; nothing of another port, ring or source changes. -/
def Obligations.UartInitConfiguresPort : Prop :=
  ∀ (s : State) (sel : BitVec 8) (baud name : Word) (w : Wires), w = s.params.wire sel.toNat →
    Encodes 0x30 sel baud name (.uartInit sel baud name) ∧
    (s.nPorts ≤ sel.toNat → Fails (.uartInit sel baud name) s .noSuchDevice) ∧
    (sel.toNat < s.nPorts → name = 0 → Fails (.uartInit sel baud name) s .invalidArgument) ∧
    (sel.toNat < s.nPorts → name ≠ 0 →
      Answers (.uartInit sel baud name) s 0 0 { s with
        ports := s.ports.set sel.toNat
          { brMod := 9999
            brInc := BitVec.ofNat 16 (baud.toNat * 9999 / (s.params.coreClock / 16))
            brAcc := 0
            configured := true
            rxIe := true
            txIe := false
            rxLevel := 1
            txLevel := 31
            rxf := []
            txf := []
            phase := (s.port sel.toNat).phase
            rxCb := 0
            txCb := 0 }
        rings := (s.rings.set (2 * sel.toNat) ⟨true, w.rxBase, s.params.bufCap, 0, 0, false⟩).set
          (2 * sel.toNat + 1) ⟨true, w.txBase, s.params.bufCap, 0, 0, false⟩
        sources := s.sources.set w.src { s.source w.src with
          handler := 0xFFFFFF00 + BitVec.ofNat 32 sel.toNat, fast := false, enable := true }
        events := s.events ++ [.pinRoute sel.toNat w.pins] })

/-- `UART_SET_RX_CB` (R145) and `UART_SET_TX_CB` (R146) write the callback of a Configured port. -/
def Obligations.UartSetCallbacks : Prop :=
  ∀ (s : State) (sel : BitVec 8) (token : Token),
    Encodes 0x31 sel token 0 (.uartSetRxCb sel token) ∧ Encodes 0x32 sel token 0 (.uartSetTxCb sel token) ∧
    ((s.nPorts ≤ sel.toNat ∨ (s.port sel.toNat).configured = false) →
      Fails (.uartSetRxCb sel token) s .noSuchDevice ∧ Fails (.uartSetTxCb sel token) s .noSuchDevice) ∧
    (sel.toNat < s.nPorts → (s.port sel.toNat).configured = true →
      Answers (.uartSetRxCb sel token) s 0 0
        { s with ports := s.ports.set sel.toNat { s.port sel.toNat with rxCb := token } } ∧
      Answers (.uartSetTxCb sel token) s 0 0
        { s with ports := s.ports.set sel.toNat { s.port sel.toNat with txCb := token } })

/-- `UART_RXI_SET` (R147) and `UART_TXI_SET` (R148) write the enable and answer the old one. -/
def Obligations.UartEnablesExchange : Prop :=
  ∀ (s : State) (sel : BitVec 8) (e : BitVec 1),
    Encodes 0x33 sel 0 (e.setWidth 32) (.uartRxiSet sel e) ∧ Encodes 0x34 sel 0 (e.setWidth 32) (.uartTxiSet sel e) ∧
    ((s.nPorts ≤ sel.toNat ∨ (s.port sel.toNat).configured = false) →
      Fails (.uartRxiSet sel e) s .noSuchDevice ∧ Fails (.uartTxiSet sel e) s .noSuchDevice) ∧
    (sel.toNat < s.nPorts → (s.port sel.toNat).configured = true →
      Answers (.uartRxiSet sel e) s 0 (if (s.port sel.toNat).rxIe then 1 else 0)
        { s with ports := s.ports.set sel.toNat { s.port sel.toNat with rxIe := decide (e = 1) } } ∧
      Answers (.uartTxiSet sel e) s 0 (if (s.port sel.toNat).txIe then 1 else 0)
        { s with ports := s.ports.set sel.toNat { s.port sel.toNat with txIe := decide (e = 1) } })

/-- `UART_TXF_PUT` (R150): the byte is queued where the TX FIFO has room; else the command is held, in progress, and
nothing changes. -/
def Obligations.UartTxfPutQueuesOrHolds : Prop :=
  ∀ (s : State) (sel : BitVec 8) (v : Byte),
    Encodes 0x35 sel 0 (v.setWidth 32) (.uartTxfPut sel v) ∧
    ((s.nPorts ≤ sel.toNat ∨ (s.port sel.toNat).configured = false) → Fails (.uartTxfPut sel v) s .noSuchDevice) ∧
    (sel.toNat < s.nPorts → (s.port sel.toNat).configured = true → (s.port sel.toNat).txf.length < 32 →
      Answers (.uartTxfPut sel v) s 0 0
        { s with ports := s.ports.set sel.toNat { s.port sel.toNat with txf := (s.port sel.toNat).txf ++ [v] } }) ∧
    (sel.toNat < s.nPorts → (s.port sel.toNat).configured = true → 32 ≤ (s.port sel.toNat).txf.length →
      exec (.uartTxfPut sel v) s = .next { s with busy := some (.uartTxfPut sel v) })

/-- `UART_RXF_GET` (R151): the head byte of the RX FIFO is taken and answered; with the FIFO empty the command is
held, in progress, and nothing changes. -/
def Obligations.UartRxfGetTakesOrHolds : Prop :=
  ∀ (s : State) (sel : BitVec 8) (v : Byte) (rest : List Byte),
    Encodes 0x36 sel 0 0 (.uartRxfGet sel) ∧
    ((s.nPorts ≤ sel.toNat ∨ (s.port sel.toNat).configured = false) → Fails (.uartRxfGet sel) s .noSuchDevice) ∧
    (sel.toNat < s.nPorts → (s.port sel.toNat).configured = true → (s.port sel.toNat).rxf = v :: rest →
      Answers (.uartRxfGet sel) s 0 (v.setWidth 32)
        { s with ports := s.ports.set sel.toNat { s.port sel.toNat with rxf := rest } }) ∧
    (sel.toNat < s.nPorts → (s.port sel.toNat).configured = true → (s.port sel.toNat).rxf = [] →
      exec (.uartRxfGet sel) s = .next { s with busy := some (.uartRxfGet sel) })

/-- `UART_STATUS` (R152) answers the status word bit by bit and changes nothing. -/
def Obligations.UartStatusShowsFlags : Prop :=
  ∀ (s : State) (sel : BitVec 8),
    Encodes 0x37 sel 0 0 (.uartStatus sel) ∧
    ((s.nPorts ≤ sel.toNat ∨ (s.port sel.toNat).configured = false) → Fails (.uartStatus sel) s .noSuchDevice) ∧
    (sel.toNat < s.nPorts → (s.port sel.toNat).configured = true → (s.port sel.toNat).Inv →
      ∃ w : Word, Answers (.uartStatus sel) s 0 w s ∧
        w.getLsbD 0 = decide ((s.port sel.toNat).rxLevel.toNat ≤ (s.port sel.toNat).rxf.length) ∧
        w.getLsbD 1 = decide ((s.port sel.toNat).txLevel.toNat ≤ 32 - (s.port sel.toNat).txf.length) ∧
        w.getLsbD 2 = (s.port sel.toNat).rxIe ∧ w.getLsbD 3 = (s.port sel.toNat).txIe ∧
        w.getLsbD 4 = decide (0 < (s.port sel.toNat).rxf.length) ∧
        w.getLsbD 5 = decide ((s.port sel.toNat).txf.length < 32) ∧
        w.extractLsb' 6 2 = 0 ∧ (w.extractLsb' 8 6).toNat = (s.port sel.toNat).rxf.length ∧
        w.extractLsb' 14 2 = 0 ∧ (w.extractLsb' 16 6).toNat = 32 - (s.port sel.toNat).txf.length ∧
        w.extractLsb' 22 10 = 0)

/-- `UART_ISR` (R153) starts the service of a Configured port and stays in progress; nothing of the block besides
changes (`callbacks` is the core agent's own record). -/
def Obligations.UartIsrStartsService : Prop :=
  ∀ (s : State) (sel : BitVec 8),
    Encodes 0x38 sel 0 0 (.uartIsr sel) ∧
    ((s.nPorts ≤ sel.toNat ∨ (s.port sel.toNat).configured = false) → Fails (.uartIsr sel) s .noSuchDevice) ∧
    (sel.toNat < s.nPorts → (s.port sel.toNat).configured = true →
      ∃ c, exec (.uartIsr sel) s = .next { s with
        ports := s.ports.set sel.toNat { s.port sel.toNat with phase := .rxTest }
        busy := some (.uartIsr sel)
        callbacks := c })

/-- Holds (60_exceptions.md R268): a held command and the trap logic change nothing while the FIFO condition is false;
one `LINE_TX` or `LINE_RX` of the port makes it true, and the core agent's next turn completes the command. -/
def Obligations.LineLiftsHold : Prop :=
  ∀ (s : State) (sel : BitVec 8) (v u : Byte) (rest : List Byte),
    s.activePort = none → sel.toNat < s.nPorts → (s.port sel.toNat).configured = true →
    (s.busy = some (.uartTxfPut sel v) → (s.port sel.toNat).txf = u :: rest → rest.length = 31 →
      performMove .core s = .next s ∧ performMove .trap s = .next s ∧
      ∃ t, performMove (.lineTx sel.toNat) s = .next t ∧
        ∃ t', performMove .core t = .next t' ∧ t'.busy = none ∧ t'.rsp = answer 0 0 ∧
          (t'.port sel.toNat).txf = rest ++ [v] ∧ t'.events = s.events ++ [.lineOut sel.toNat u]) ∧
    (s.busy = some (.uartRxfGet sel) → (s.port sel.toNat).rxf = [] →
      performMove .core s = .next s ∧ performMove .trap s = .next s ∧
      ∃ t, performMove (.lineRx sel.toNat u) s = .next t ∧
        ∃ t', performMove .core t = .next t' ∧ t'.busy = none ∧ t'.rsp = answer 0 (u.setWidth 32) ∧
          (t'.port sel.toNat).rxf = [])

/-! ### The sequencer and the line -/

/-- The RX part of the service: `SEQ_RX_TEST` (42_uart_seq.md R157), `SEQ_RX_MOVE` (R158), `SEQ_RX_END` (R159), each
where it is enabled, with everything it leaves alone (`callbacks` is the core agent's own record). -/
def Obligations.SequencerReceives : Prop :=
  ∀ (s : State) (p : Nat) (q : Port) (x : Ring), q = s.port p → x = s.ring (2 * p) →
    (s.Running p .rxTest → performMove .seq s = .next { s with
      ports := s.ports.set p { q with
        phase := if q.configured = true ∧ q.rxLevel.toNat ≤ q.rxf.length ∧ q.rxIe = true
          then .rxDrain else .txTest } }) ∧
    (∀ v rest, s.Running p .rxDrain → x.isFull = false → q.rxf = v :: rest →
      ∃ m : Memory, performMove .seq s = .next { s with
          ports := s.ports.set p { q with rxf := rest }
          rings := s.rings.set (2 * p) { x with wr := x.wrapInc x.wr, full := decide (x.wrapInc x.wr = x.rd) }
          mem := m } ∧
        ∀ a : Nat, { s with mem := m }.readByte a =
          if a = (x.base + x.wr.setWidth 32).toNat then v else s.readByte a) ∧
    (s.Running p .rxDrain → (x.isFull = true ∨ q.rxf = []) → ∃ c, performMove .seq s = .next { s with
      ports := s.ports.set p { q with rxIe := if x.isFull = true then false else q.rxIe, phase := .txTest }
      events := if q.rxCb = 0 then s.events else s.events ++ [.callback p .rx q.rxCb]
      callbacks := c })

/-- The TX part of the service: `SEQ_TX_TEST` (R160), `SEQ_TX_MOVE` (R161), `SEQ_TX_END` (R162), each where it is
enabled; the step that ends the service answers `UART_ISR` (`callbacks` is the core agent's own record). -/
def Obligations.SequencerTransmits : Prop :=
  ∀ (s : State) (p : Nat) (q : Port) (x : Ring), q = s.port p → x = s.ring (2 * p + 1) →
    (s.Running p .txTest → q.configured = true → q.txLevel.toNat ≤ 32 - q.txf.length → q.txIe = true →
      performMove .seq s = .next { s with ports := s.ports.set p { q with phase := .txFill } }) ∧
    (s.Running p .txTest → (q.configured = false ∨ 32 - q.txf.length < q.txLevel.toNat ∨ q.txIe = false) →
      performMove .seq s = .next { s with
        ports := s.ports.set p { q with phase := .idle }, busy := none, rsp := answer 0 0 }) ∧
    (s.Running p .txFill → x.isEmpty = false → q.txf.length < 32 →
      performMove .seq s = .next { s with
        ports := s.ports.set p { q with txf := q.txf ++ [s.readByte (x.base + x.rd.setWidth 32).toNat] }
        rings := s.rings.set (2 * p + 1) { x with rd := x.wrapInc x.rd, full := false } }) ∧
    (s.Running p .txFill → (x.isEmpty = true ∨ 32 ≤ q.txf.length) →
      ∃ c, performMove .seq s = .next { s with
        ports := s.ports.set p { q with txIe := if x.isEmpty = true then false else q.txIe, phase := .idle }
        events := if q.txCb = 0 then s.events else s.events ++ [.callback p .tx q.txCb]
        callbacks := c
        busy := none
        rsp := answer 0 0 })

/-- While a service runs, neither the core agent nor the trap logic does anything, and the line, the external requests
and the ticks leave every sequencer where it is (R156); that a choice which is not enabled changes nothing is the
model's schedule [3]. -/
def Obligations.ServiceExcludesCoreSide : Prop :=
  ∀ (s : State) (p : Nat) (x : Phase), s.Running p x →
    performMove .core s = .next s ∧ performMove .trap s = .next s ∧
    ∀ m t, m.offCore = true → m ≠ .seq → performMove m s = .next t →
      t.Running p x ∧ t.busy = s.busy ∧ t.rsp = s.rsp ∧ t.code = s.code ∧ t.rings = s.rings ∧ t.mem = s.mem

/-- Every service ends (R163): whatever the line, the external requests and the clock do between its micro-steps, after
at most four of them and one for each slot of the port's two rings `UART_ISR` has been answered. -/
def Obligations.ServiceTerminates : Prop :=
  ∀ (s : State) (p : Nat) (x : Phase) (pre post : List Move),
    s.Inv → s.Running p x → s.agenda = pre ++ post → (∀ m ∈ pre, m.offCore = true) →
    4 + (s.ring (2 * p)).cap.toNat + (s.ring (2 * p + 1)).cap.toNat ≤ pre.count .seq →
    ∃ k t, k ≤ pre.length ∧ core.run k s = .next t ∧ (t.port p).phase = .idle ∧ t.busy = none ∧ t.rsp = answer 0 0

/-- The serial line: `LINE_RX` (R165) queues a byte or loses it without trace, `LINE_TX` (R166) takes the head byte
of the TX FIFO. That `LINE_TX` changes nothing where it is not enabled, and either where the port does not exist, is
the model's choice ([3], [20]). -/
def Obligations.LineMovesBytes : Prop :=
  ∀ (s : State) (p : Nat) (v : Byte) (q : Port), q = s.port p →
    (q.configured = true → q.rxf.length < 32 →
      performMove (.lineRx p v) s = .next { s with ports := s.ports.set p { q with rxf := q.rxf ++ [v] } }) ∧
    (q.configured = false ∨ 32 ≤ q.rxf.length → performMove (.lineRx p v) s = .next s) ∧
    (∀ u rest, q.configured = true → q.txf = u :: rest →
      performMove (.lineTx p) s = .next { s with
        ports := s.ports.set p { q with txf := rest }, events := s.events ++ [.lineOut p u] }) ∧
    (q.configured = false ∨ q.txf = [] → performMove (.lineTx p) s = .next s)

/-! ### Interrupt controller -/

/-- `ITC_INIT` (44_itc.md R195) puts the controller to its reset values and touches nothing else, not even the external
request wires. -/
def Obligations.ItcInitClears : Prop :=
  ∀ s : State, Encodes 0x40 0 0 0 .itcInit ∧
    ∃ xs : List Source,
      Answers .itcInit s 0 0 { s with sources := xs, svcFloor := 0 } ∧ xs.length = s.nSrc ∧
      ∀ i < s.nSrc, xs[i]? =
        some { enable := false, fast := false, forced := false, handler := 0, line := (s.source i).line }

/-- `ITC_SET_HANDLER` (R196) and `ITC_SET_PRIORITY` (R197), with the source check (R194). -/
def Obligations.ItcSetHandlerAndClass : Prop :=
  ∀ (s : State) (sel : BitVec 8) (token : Token) (cls : BitVec 1),
    Encodes 0x41 sel token 0 (.itcSetHandler sel token) ∧
    Encodes 0x42 sel 0 (cls.setWidth 32) (.itcSetPriority sel cls) ∧
    (s.nSrc ≤ sel.toNat →
      Fails (.itcSetHandler sel token) s .invalidParameter ∧ Fails (.itcSetPriority sel cls) s .invalidParameter) ∧
    (sel.toNat < s.nSrc →
      Answers (.itcSetHandler sel token) s 0 0
        { s with sources := s.sources.set sel.toNat { s.source sel.toNat with handler := token } } ∧
      Answers (.itcSetPriority sel cls) s 0 0
        { s with sources := s.sources.set sel.toNat { s.source sel.toNat with fast := decide (cls = 1) } })

/-- `ITC_ENABLE` (R198), `ITC_DISABLE` (R199), `ITC_FORCE` (R200), `ITC_UNFORCE` (R201): each writes one bit of one
source, with the source check (R194). -/
def Obligations.ItcBitCommands : Prop :=
  ∀ (s : State) (sel : BitVec 8),
    (Encodes 0x43 sel 0 0 (.itcEnable sel) ∧ Encodes 0x44 sel 0 0 (.itcDisable sel) ∧
      Encodes 0x45 sel 0 0 (.itcForce sel) ∧ Encodes 0x46 sel 0 0 (.itcUnforce sel)) ∧
    (s.nSrc ≤ sel.toNat →
      Fails (.itcEnable sel) s .invalidParameter ∧ Fails (.itcDisable sel) s .invalidParameter ∧
      Fails (.itcForce sel) s .invalidParameter ∧ Fails (.itcUnforce sel) s .invalidParameter) ∧
    (sel.toNat < s.nSrc →
      Answers (.itcEnable sel) s 0 0
        { s with sources := s.sources.set sel.toNat { s.source sel.toNat with enable := true } } ∧
      Answers (.itcDisable sel) s 0 0
        { s with sources := s.sources.set sel.toNat { s.source sel.toNat with enable := false } } ∧
      Answers (.itcForce sel) s 0 0
        { s with sources := s.sources.set sel.toNat { s.source sel.toNat with forced := true } } ∧
      Answers (.itcUnforce sel) s 0 0
        { s with sources := s.sources.set sel.toNat { s.source sel.toNat with forced := false } })

/-- `ITC_DISABLE_INTS` (R202) answers the whole enable mask and clears it; `ITC_RESTORE_INTS` (R203) writes it; so the
one after the other gives the enables back. No other bit of any source changes. -/
def Obligations.ItcMaskSaveRestore : Prop :=
  ∀ (s : State) (saved : Word), s.nSrc ≤ 32 →
    Encodes 0x47 0 0 0 .itcDisableInts ∧ Encodes 0x48 0 saved 0 (.itcRestoreInts saved) ∧
    (∃ (w : Word) (xs : List Source),
      Answers .itcDisableInts s 0 w { s with sources := xs } ∧ xs.length = s.nSrc ∧
      (∀ i, w.getLsbD i = (decide (i < s.nSrc) && (s.source i).enable)) ∧
      (∀ i < s.nSrc, xs[i]? = some { s.source i with enable := false }) ∧
      ∀ t, exec .itcDisableInts s = .next t →
        Answers (.itcRestoreInts w) t 0 0 { t with sources := s.sources }) ∧
    ∃ xs : List Source,
      Answers (.itcRestoreInts saved) s 0 0 { s with sources := xs } ∧ xs.length = s.nSrc ∧
      ∀ i < s.nSrc, xs[i]? = some { s.source i with enable := saved.getLsbD i }

/-- The pending functions, the requests and the two vectors (R193, 10_state.md R39): a source is pending when it is
requested, by its port or by its wire, or forced, and enabled; the normal vector is the pending normal source of
greatest priority at or above the service floor, the fast vector the pending fast source of greatest priority. -/
def Obligations.PendingVectors : Prop :=
  ∀ s : State, s.Inv →
    (∀ p < s.nPorts, s.intSrc (s.params.uartSrc p) = (s.port p).uartIrq) ∧
    (∀ i, (∀ p < s.nPorts, s.params.uartSrc p ≠ i) → s.intSrc i = (s.source i).line) ∧
    (∀ i, s.raw i = true ↔ s.intSrc i = true ∨ (s.source i).forced = true) ∧
    (∀ i, s.pend i = true ↔ s.raw i = true ∧ (s.source i).enable = true) ∧
    (∀ i, s.nipend i = true ↔ s.pend i = true ∧ (s.source i).fast = false) ∧
    (∀ i, s.fipend i = true ↔ s.pend i = true ∧ (s.source i).fast = true) ∧
    (∀ i, s.npass i = true ↔ s.nipend i = true ∧ s.svcFloor.toNat ≤ s.params.prio i) ∧
    (s.irqReq = true ↔ ∃ i < s.nSrc, s.npass i = true) ∧ (s.fiqReq = true ↔ ∃ i < s.nSrc, s.fipend i = true) ∧
    (s.nivector = none ↔ s.irqReq = false) ∧ (s.fivector = none ↔ s.fiqReq = false) ∧
    (∀ v, s.nivector = some v ↔
      v < s.nSrc ∧ s.npass v = true ∧ ∀ i < s.nSrc, s.npass i = true → s.params.prio i ≤ s.params.prio v) ∧
    (∀ v, s.fivector = some v ↔
      v < s.nSrc ∧ s.fipend v = true ∧ ∀ i < s.nSrc, s.fipend i = true → s.params.prio i ≤ s.params.prio v)

/-- `ITC_READ_NIVEC` (R204) and `ITC_READ_FIVEC` (R205) answer the vector, or all ones with status `OK`, and change
nothing. -/
def Obligations.ItcVectorReads : Prop :=
  ∀ s : State, Encodes 0x49 0 0 0 .itcReadNivec ∧ Encodes 0x4A 0 0 0 .itcReadFivec ∧
    (s.nivector = none → Answers .itcReadNivec s 0xFF 0xFFFFFFFF s) ∧
    (s.fivector = none → Answers .itcReadFivec s 0xFF 0xFFFFFFFF s) ∧
    (∀ v, s.nivector = some v → Answers .itcReadNivec s (BitVec.ofNat 8 v) (BitVec.ofNat 32 v) s) ∧
    (∀ v, s.fivector = some v → Answers .itcReadFivec s (BitVec.ofNat 8 v) (BitVec.ofNat 32 v) s)

/-- The service commands: `ITC_SVC_N_ENTER` (R206) raises the floor above the source it selects and answers its
handler, after which nothing of equal or lower priority passes; `ITC_SVC_N_RETURN` (R207) sets the floor to 0;
`ITC_SVC_F` (R208) answers the fast handler and changes nothing. -/
def Obligations.ItcServiceCommands : Prop :=
  ∀ s : State, Encodes 0x4B 0 0 0 .itcSvcNEnter ∧ Encodes 0x4C 0 0 0 .itcSvcNReturn ∧ Encodes 0x4D 0 0 0 .itcSvcF ∧
    (s.nivector = none → Answers .itcSvcNEnter s 0xFF 0 s) ∧
    (∀ v, s.nivector = some v → s.params.prio v < 63 →
      ∃ f : BitVec 6, f.toNat = s.params.prio v + 1 ∧
        Answers .itcSvcNEnter s (BitVec.ofNat 8 v) (s.source v).handler { s with svcFloor := f } ∧
        ∀ t, exec .itcSvcNEnter s = .next t → ∀ i, s.params.prio i ≤ s.params.prio v → t.npass i = false) ∧
    Answers .itcSvcNReturn s 0 0 { s with svcFloor := 0 } ∧
    (s.fivector = none → Answers .itcSvcF s 0xFF 0 s) ∧
    (∀ v, s.fivector = some v → Answers .itcSvcF s (BitVec.ofNat 8 v) (s.source v).handler s)

/-- `EXT_IRQ` (R192) sets the request level of a source wired to no port, and nothing else. That it changes nothing for
a port's source, where it is not enabled, is the model's choice [3]. -/
def Obligations.ExtIrqSetsLevel : Prop :=
  ∀ (s : State) (i : Nat) (level : Bool),
    ((∀ w ∈ s.params.wires, w.src ≠ i) → i < s.nSrc →
      performMove (.extIrq i level) s =
        .next { s with sources := s.sources.set i { s.source i with line := level } }) ∧
    ((∃ w ∈ s.params.wires, w.src = i) → performMove (.extIrq i level) s = .next s)

/-! ### Core mask and trap table -/

/-- `EXC_DISABLE_IRQ` (45_exc.md R220), `EXC_DISABLE_FIQ` (R221), `EXC_DISABLE_INTS` (R222) answer the mask before and
set their bits. -/
def Obligations.ExcDisableMasks : Prop :=
  ∀ (s : State) (old : Word), old = 0#30 ++ BitVec.ofBool s.coreI ++ BitVec.ofBool s.coreF →
    (Encodes 0x50 0 0 0 .excDisableIrq ∧ Encodes 0x51 0 0 0 .excDisableFiq ∧ Encodes 0x52 0 0 0 .excDisableInts) ∧
    Answers .excDisableIrq s 0 old { s with coreI := true } ∧
    Answers .excDisableFiq s 0 old { s with coreF := true } ∧
    Answers .excDisableInts s 0 old { s with coreI := true, coreF := true }

/-- `EXC_RESTORE_IRQ` (R223), `EXC_RESTORE_FIQ` (R224), `EXC_RESTORE_INTS` (R225) write their bits of the saved mask:
bit 1 is `CORE.I`, bit 0 is `CORE.F`. -/
def Obligations.ExcRestoreMasks : Prop :=
  ∀ (s : State) (saved : BitVec 2),
    (Encodes 0x53 0 0 (saved.setWidth 32) (.excRestoreIrq saved) ∧
      Encodes 0x54 0 0 (saved.setWidth 32) (.excRestoreFiq saved) ∧
      Encodes 0x55 0 0 (saved.setWidth 32) (.excRestoreInts saved)) ∧
    Answers (.excRestoreIrq saved) s 0 0 { s with coreI := decide (2 ≤ saved.toNat) } ∧
    Answers (.excRestoreFiq saved) s 0 0 { s with coreF := decide (saved.toNat % 2 = 1) } ∧
    Answers (.excRestoreInts saved) s 0 0
      { s with coreI := decide (2 ≤ saved.toNat), coreF := decide (saved.toNat % 2 = 1) }

/-- `EXC_SET_HANDLER` (R226) and `EXC_GET_HANDLER` (R227) write and read one of the eight trap table entries. -/
def Obligations.ExcTrapTable : Prop :=
  ∀ (s : State) (sel : BitVec 8) (token : Token),
    Encodes 0x56 sel token 0 (.excSetHandler sel token) ∧ Encodes 0x57 sel 0 0 (.excGetHandler sel) ∧
    (8 ≤ sel.toNat →
      Fails (.excSetHandler sel token) s .invalidParameter ∧ Fails (.excGetHandler sel) s .invalidParameter) ∧
    (∀ h : sel.toNat < 8,
      Answers (.excSetHandler sel token) s 0 0 { s with trapTable := s.trapTable.set sel.toNat token h } ∧
      Answers (.excGetHandler sel) s 0 (s.trapTable[sel.toNat]'h) s)

/-! ### Traps -/

/-- `TRAP_IRQ` (60_exceptions.md R255): where a normal request passes, `CORE.I` is clear, no command is in progress and
no fast trap is enabled, the mask before entry and trap table entry 6 go into the event, `CORE.I` is set, and nothing
of the block besides changes; what the core agent then has to do is in `code`. -/
def Obligations.IrqEntry : Prop :=
  ∀ s : State, s.irqReq = true → s.coreI = false → s.atBoundary = true → (s.fiqReq = false ∨ s.coreF = true) →
    ∃ c : List Task, performMove .trap s = .next { s with
      coreI := true
      events := s.events ++ [.trap .irq (0#1 ++ BitVec.ofBool s.coreF) s.trapTable[6]]
      code := c }

/-- `TRAP_FIQ` (R256): as `TRAP_IRQ`, for a fast request, with `CORE.F` clear; both mask bits are set. -/
def Obligations.FiqEntry : Prop :=
  ∀ s : State, s.fiqReq = true → s.coreF = false → s.atBoundary = true →
    ∃ c : List Task, performMove .trap s = .next { s with
      coreI := true
      coreF := true
      events := s.events ++ [.trap .fiq (BitVec.ofBool s.coreI ++ 0#1) s.trapTable[7]]
      code := c }

/-- A trap is taken only at a command boundary and only where its class is requested and not masked (R257), whatever
the step; and a trap step that is not enabled changes nothing (the model's schedule [3]). -/
def Obligations.TrapsOnlyAtBoundary : Prop :=
  (∀ (s t : State) (c : TrapClass) (saved : BitVec 2) (token : Token),
    step s = .next t → t.events = s.events ++ [.trap c saved token] →
    s.busy = none ∧ (∀ p < s.nPorts, (s.port p).phase = .idle) ∧ saved = s.coreMask ∧ t.coreI = true ∧
    (c = .irq → s.irqReq = true ∧ s.coreI = false ∧ (s.fiqReq = false ∨ s.coreF = true)) ∧
    (c = .fiq → s.fiqReq = true ∧ s.coreF = false ∧ t.coreF = true)) ∧
  ∀ s : State, (s.atBoundary = false ∨ (s.irqReq = false ∨ s.coreI = true) ∧ (s.fiqReq = false ∨ s.coreF = true)) →
    performMove .trap s = .next s

/-- An IRQ trap and its return (R258): after the entry, a replaced IRQ entry whose code issues nothing (`ext` is empty
[6]), and the restore of the saved mask, the preempted code goes on with the machine as it was, but for the record of
what happened. What the core agent keeps across the trap [13] and that these are five steps [14] are the model's. -/
def Obligations.TrapReturnRestoresMask : Prop :=
  ∀ (s : State) (ag : List Move),
    s.irqEnabled = true → s.trapTable[6] ≠ 0 → s.ext = [] →
    s.agenda = .trap :: .core :: .core :: .core :: .core :: ag →
    core.run 5 s = .next { s with
      agenda := ag
      events := s.events ++ [.trap .irq s.coreMask s.trapTable[6]]
      invoked := s.invoked ++ [s.trapTable[6]] }

/-- The default IRQ path from the trap to the return (R258, R260, R262), for a handler that is external code with a token
below 0xFFFFFF00 and issues nothing (`ext` is empty [6]): the highest passing normal source is selected, the floor is
narrowed and widened, its handler runs once, and the mask is restored. What the core agent keeps across the trap [13]
and that these are nine steps [14] are the model's. -/
def Obligations.DefaultIrqRunsHandler : Prop :=
  ∀ (s : State) (v : Nat) (ag : List Move),
    s.irqEnabled = true → s.trapTable[6] = 0 → s.nivector = some v → s.nSrc ≤ 32 →
    (s.source v).handler ≠ 0 → (s.source v).handler.toNat < 0xFFFFFF00 → s.ext = [] →
    s.agenda = .trap :: List.replicate 8 .core ++ ag →
    core.run 9 s = .next { s with
      agenda := ag
      svcFloor := 0
      events := s.events ++ [.trap .irq s.coreMask 0]
      invoked := s.invoked ++ [(s.source v).handler] }

/-- What the core agent does on a trap and for a handler token: the handler sequences (R258, R259) and `run_handler`
(R262), the callbacks of the port's service after its response, in the order the service emitted them (each a turn of
the model's core agent [13] [14]). -/
def Obligations.HandlerSequences : Prop :=
  ∀ (s : State) (rest : List Task), s.atBoundary = true →
    (∀ saved token, s.code = .handler .irq saved token :: rest → performMove .core s = .next { s with
      code := (if token = 0 then .serviceNormal else .external token) :: .issue (.excRestoreInts saved) :: rest }) ∧
    (∀ saved token, s.code = .handler .fiq saved token :: rest → performMove .core s = .next { s with
      code := (if token = 0 then .serviceFast else .external token) :: .issue (.excRestoreInts saved) :: rest }) ∧
    (s.code = .runHandler 0 :: rest → performMove .core s = .next { s with code := rest }) ∧
    (∀ h : Token, s.code = .runHandler h :: rest → 0xFFFFFF00 ≤ h.toNat → h.toNat < 0xFFFFFF00 + s.nPorts →
      performMove .core s = exec (.uartIsr (BitVec.ofNat 8 (h.toNat - 0xFFFFFF00)))
        { s with code := .runCallbacks :: rest, callbacks := [] }) ∧
    (∀ h : Token, s.code = .runHandler h :: rest → h ≠ 0 →
      (h.toNat < 0xFFFFFF00 ∨ 0xFFFFFF00 + s.nPorts ≤ h.toNat) →
      performMove .core s = .next { s with code := .external h :: rest }) ∧
    (s.code = .runCallbacks :: rest →
      performMove .core s = .next { s with code := s.callbacks.map .external ++ rest }) ∧
    (∀ (u t : State) (p : Nat) (x : Phase), u.Running p x → performMove .seq u = .next t →
      (t.events = u.events ∧ t.callbacks = u.callbacks) ∨
      ∃ d token, t.events = u.events ++ [.callback p d token] ∧ t.callbacks = u.callbacks ++ [token])

/-! ### Pseudo-instructions -/

/-- `UART_SEND` (43_uart_api.md R182) copies as many bytes as fit: the smaller of `count` and the free slots of the TX
ring, in order, behind the bytes already there, and returns how many; the TX interrupt is on afterwards (the number of
turns is the model's [14]). -/
def Obligations.SendCopiesWhatFits : Prop :=
  ∀ (s : State) (p : BitVec 8) (buf count : Word) (rest : List Task) (ag : List Move) (n : Nat),
    s.Inv → s.atBoundary = true → s.code = .send p buf count :: rest →
    p.toNat < s.nPorts → (s.port p.toNat).configured = true →
    buf ≠ 0 → buf.toNat + count.toNat ≤ 2 ^ 32 →
    (buf.toNat + count.toNat ≤ (s.ring (2 * p.toNat + 1)).base.toNat ∨
      (s.ring (2 * p.toNat + 1)).base.toNat + (s.ring (2 * p.toNat + 1)).cap.toNat ≤ buf.toNat) →
    n = min count.toNat (s.ring (2 * p.toNat + 1)).free →
    s.agenda = List.replicate (2 * n + 4) .core ++ ag →
    ∃ k t, k ≤ 2 * n + 4 ∧ core.run k s = .next t ∧ t.code = rest ∧
      t.results = s.results ++ [⟨.ok, BitVec.ofNat 32 n⟩] ∧
      t.contents (2 * p.toNat + 1) =
        s.contents (2 * p.toNat + 1) ++ (List.range n).map (fun j => s.readByte (buf.toNat + j)) ∧
      (t.port p.toNat).txIe = true

/-- `UART_RECEIVE_BYTE` (R181) prefers a byte already in the RX ring: it returns the oldest, leaves the others, and RX
is unmasked afterwards (the number of turns is the model's [14]). -/
def Obligations.ReceiveBytePrefersRing : Prop :=
  ∀ (s : State) (p : BitVec 8) (v : Byte) (more : List Byte) (rest : List Task) (ag : List Move),
    s.Inv → s.atBoundary = true → s.code = .receiveByte p :: rest → p.toNat < s.nPorts →
    (s.port p.toNat).configured = true → s.contents (2 * p.toNat) = v :: more →
    s.agenda = List.replicate 5 .core ++ ag →
    ∃ t, core.run 5 s = .next t ∧ t.code = rest ∧ t.agenda = ag ∧
      t.results = s.results ++ [⟨.ok, v.setWidth 32⟩] ∧ t.contents (2 * p.toNat) = more ∧
      (t.port p.toNat).rxIe = true ∧ (t.port p.toNat).rxf = (s.port p.toNat).rxf ∧ t.mem = s.mem

/-! ### Whole machine -/

/-- Memory changes only by an accepted `CB_WRITE`, by `SEQ_RX_MOVE`, and by a store of the core agent's own, one byte
in a step (20_memory.md R67, R62), and the address of that byte is: for `CB_WRITE` and `SEQ_RX_MOVE` the write slot of
the ring, for the core agent's store its operand, for `UART_RECEIVE` `buf + n`. Every other step, a rejected write and
`SEQ_RX_END` among them, leaves memory as it is. -/
def Obligations.StoresAreOneByte : Prop :=
  (∀ s t : State, step s = .next t →
    (∀ a, s.stepStores = some a → ∀ b ≠ a, t.readByte b = s.readByte b) ∧ (s.stepStores = none → t.mem = s.mem)) ∧
  (∀ (i : Instr) (s t : State), exec i s = .next t → (∀ sel v, i ≠ .cbWrite sel v) → t.mem = s.mem) ∧
  (∀ (sel : BitVec 8) (v : Byte) (s t : State), exec (.cbWrite sel v) s = .next t →
    (∀ b ≠ ((s.ring sel.toNat).slot (s.ring sel.toNat).wr).toNat, t.readByte b = s.readByte b) ∧
    ((s.nRings ≤ sel.toNat ∨ (s.ring sel.toNat).isFull = true) → t.mem = s.mem)) ∧
  (∀ (m : Move) (s t : State), performMove m s = .next t → m ≠ .core → m ≠ .seq → t.mem = s.mem) ∧
  (∀ (s t : State) (p : Nat) (x : Phase), s.Running p x → performMove .seq s = .next t →
    (∀ b ≠ ((s.ring (rxRing p)).slot (s.ring (rxRing p)).wr).toNat, t.readByte b = s.readByte b) ∧
    ((x ≠ .rxDrain ∨ (s.port p).rxf = [] ∨ (s.ring (rxRing p)).isFull = true) → t.mem = s.mem)) ∧
  (∀ (s : State) (addr : Word) (v : Byte) (rest : List Task), s.atBoundary = true → s.code = .store addr v :: rest →
    ∃ t, performMove .core s = .next t ∧ ∀ b, t.readByte b = if b = addr.toNat then v else s.readByte b) ∧
  ∀ (s : State) (p aux : BitVec 8) (buf count n d : Word) (rest : List Task),
    s.atBoundary = true → s.code = .receiveStore p buf count n :: rest → s.rsp = answer aux d →
    buf.toNat + n.toNat < 2 ^ 32 →
    ∃ t, performMove .core s = .next t ∧
      ∀ b, t.readByte b = if b = buf.toNat + n.toNat then d.setWidth 8 else s.readByte b

/-- A ring once bound stays bound and a port once Configured stays Configured (70_reset_and_hazards.md R282). -/
def Obligations.BoundAndConfiguredForever : Prop :=
  ∀ s t : State, step s = .next t →
    (∀ r, (s.ring r).bound = true → (t.ring r).bound = true) ∧
    (∀ p, (s.port p).configured = true → (t.port p).configured = true)

/-- What reset leaves (R280), for every value of the parameters. -/
def Obligations.ResetValues : Prop :=
  ∀ (P : Params) (s : State), s = State.resetWith P →
    s.nRings = 2 * P.nPorts ∧ s.nPorts = P.nPorts ∧ s.nSrc = P.nSrc ∧
    (∀ r, s.ring r = { bound := false, base := 0, cap := 0, rd := 0, wr := 0, full := false }) ∧
    (∀ p, s.port p =
      { brMod := 0, brInc := 0, brAcc := 0, configured := false, rxIe := false, txIe := false, rxLevel := 0,
        txLevel := 0, rxf := [], txf := [], phase := .idle, rxCb := 0, txCb := 0 }) ∧
    (∀ i, s.source i = { enable := false, fast := false, forced := false, handler := 0, line := false }) ∧
    s.svcFloor = 0 ∧ s.coreI = true ∧ s.coreF = true ∧ (∀ t : Fin 8, s.trapTable[t] = 0) ∧
    (∀ a, s.readByte a = Config.initByte a) ∧ s.busy = none ∧ s.events = [] ∧
    s.irqReq = false ∧ s.fiqReq = false

/-- The state after reset meets the invariant (with the reference parameters and the model's own fields [2] [16]). -/
def Obligations.ResetMeetsInv : Prop := State.reset.Inv

/-- Every step keeps the invariant (10_state.md R22, the legal values of R27, R30, R31, R41, 42_uart_seq.md R156, and
the canonical form of memory). -/
def Obligations.StepKeepsInv : Prop := ∀ s t : State, s.Inv → step s = .next t → t.Inv
end

