-- ==== Sys2Proof/Laws/Encoding.lean ====
section
/-!
SUPPORT. The fields of a packed command word (30_encoding.md R80), operands through their fields (R84), and the
fields of a response word (R81).
-/

namespace Sys2Proof

section Fields
variable (op sel : BitVec 8) (a b : Word)

@[simp] theorem opOf_packCommand : opOf (packCommand op sel a b) = op := by
  simp only [opOf, packCommand]
  ext i hi
  simp
  grind

@[simp] theorem selOf_packCommand : selOf (packCommand op sel a b) = sel := by
  simp only [selOf, packCommand]
  ext i hi
  simp
  grind

@[simp] theorem aOf_packCommand : aOf (packCommand op sel a b) = a := by
  simp only [aOf, packCommand]
  ext i hi
  simp
  grind

@[simp] theorem bOf_packCommand : bOf (packCommand op sel a b) = b := by
  simp only [bOf, packCommand]
  ext i hi
  simp
  grind

end Fields

/-- A word is its four fields (R80). -/
theorem packCommand_fields (w : Command) : packCommand (opOf w) (selOf w) (aOf w) (bOf w) = w := by
  simp only [packCommand, opOf, selOf, aOf, bOf]
  ext i hi
  simp
  grind

theorem packCommand_and (o o' s s' : BitVec 8) (a a' b b' : Word) :
    packCommand o s a b &&& packCommand o' s' a' b' = packCommand (o &&& o') (s &&& s') (a &&& a') (b &&& b') := by
  simp only [packCommand]
  rw [BitVec.and_append, BitVec.and_append, BitVec.and_append]

theorem packCommand_inj {o o' s s' : BitVec 8} {a a' b b' : Word} :
    packCommand o s a b = packCommand o' s' a' b' ↔ o = o' ∧ s = s' ∧ a = a' ∧ b = b' := by
  constructor
  · intro h
    exact ⟨by simpa using congrArg opOf h, by simpa using congrArg selOf h, by simpa using congrArg aOf h,
      by simpa using congrArg bOf h⟩
  · rintro ⟨rfl, rfl, rfl, rfl⟩
    rfl

/-- A field of high bits is zero exactly when the mask of those bits leaves nothing. -/
theorem and_high_eq_zero (b : Word) (k : Nat) (m : Word) (hm : ∀ i < 32, m.getLsbD i = decide (k ≤ i)) :
    b &&& m = 0 ↔ b.extractLsb' k (32 - k) = 0 := by
  constructor
  · intro h
    apply BitVec.eq_of_getLsbD_eq
    intro i hi
    have h2 := congrArg (fun x => x.getLsbD (k + i)) h
    simpa [BitVec.getLsbD_and, BitVec.getLsbD_extractLsb', hm (k + i) (by omega), hi] using h2
  · intro h
    apply BitVec.eq_of_getLsbD_eq
    intro i hi
    rw [BitVec.getLsbD_and, hm i hi]
    by_cases hk : k ≤ i
    · have h2 := congrArg (fun x => x.getLsbD (i - k)) h
      have h2 : b.getLsbD i = false := by
        simpa [BitVec.getLsbD_extractLsb', show i - k < 32 - k by omega, show k + (i - k) = i by omega] using h2
      simp [h2]
    · simp [hk]

/-- A row made from an opcode and a format accepts a word exactly when the opcode is its own and the must-be-zero
fields are zero: the mask and match of R86 say what the format of R83 says. -/
theorem accepts_ofFormat (m : String) (op op' sel : BitVec 8) (a b : Word) (f : Format) :
    (Row.ofFormat m op f).accepts (packCommand op' sel a b) = (op' == op && f.zerosHold sel a b) := by
  have key : ∀ ms ma mb, f.mask = packCommand 0xFF ms ma mb →
      (((sel &&& ms = 0 ∧ a &&& ma = 0 ∧ b &&& mb = 0) ↔ f.zerosHold sel a b = true)) →
      (Row.ofFormat m op f).accepts (packCommand op' sel a b) = (op' == op && f.zerosHold sel a b) := by
    intro ms ma mb hm hz
    rw [Bool.eq_iff_iff]
    simp only [Row.accepts, Row.ofFormat, hm, packCommand_and, beq_iff_eq, packCommand_inj, Bool.and_eq_true, ← hz]
    rw [show op' &&& 0xFF = op' from BitVec.and_allOnes]
  have all8 : sel &&& 0xFF = sel := BitVec.and_allOnes
  have a32 : ∀ x : Word, x &&& 0xFFFFFFFF = x := fun x => BitVec.and_allOnes
  cases f
  · exact key 0xFF 0xFFFFFFFF 0xFFFFFFFF rfl (by rw [all8, a32, a32]; simp [Format.zerosHold, and_assoc])
  · exact key 0 0xFFFFFFFF 0xFFFFFFFF rfl (by rw [a32, a32]; simp [Format.zerosHold])
  · exact key 0xFF 0 0xFFFFFFFF rfl (by rw [all8, a32]; simp [Format.zerosHold])
  · exact key 0 0 0xFFFFFFFF rfl (by rw [a32]; simp [Format.zerosHold])
  · exact key 0 0 0 rfl (by simp [Format.zerosHold])
  · exact key 0 0 0xFFFF0000 rfl (by rw [and_high_eq_zero b 16 _ (by decide)]; simp [Format.zerosHold])
  · exact key 0 0xFFFFFFFF 0xFFFFFF00 rfl (by rw [a32, and_high_eq_zero b 8 _ (by decide)]; simp [Format.zerosHold])
  · exact key 0 0xFFFFFFFF 0xFFFFFFFE rfl (by rw [a32, and_high_eq_zero b 1 _ (by decide)]; simp [Format.zerosHold])
  · exact key 0xFF 0xFFFFFFFF 0xFFFFFFFC rfl (by
      rw [all8, a32, and_high_eq_zero b 2 _ (by decide)]; simp [Format.zerosHold, and_assoc])

/-- The bits above an operand of width `n` are zero in its 32-bit field. -/
theorem high_setWidth (n : Nat) (v : BitVec n) : (v.setWidth 32).extractLsb' n (32 - n) = 0 := by
  ext i hi
  simp
@[simp] theorem setWidth_setWidth_of_le (n : Nat) (hn : n ≤ 32) (v : BitVec n) : (v.setWidth 32).setWidth n = v := by
  rw [BitVec.setWidth_setWidth_of_le _ hn, BitVec.setWidth_eq]

section ResponseFields
variable (st : Status) (aux : BitVec 8) (data : Word)

@[simp] theorem rspStatusOf_packResponse : rspStatusOf (packResponse st aux data) = st.code := by
  simp only [rspStatusOf, packResponse]
  ext i hi
  simp
  grind

@[simp] theorem rspAuxOf_packResponse : rspAuxOf (packResponse st aux data) = aux := by
  simp only [rspAuxOf, packResponse]
  ext i hi
  simp
  grind

@[simp] theorem rspDataOf_packResponse : rspDataOf (packResponse st aux data) = data := by
  simp only [rspDataOf, packResponse]
  ext i hi
  simp
  grind

end ResponseFields

/-- The five codes of R240 are read back. -/
@[simp] theorem Status.ofCode?_code (st : Status) : Status.ofCode? st.code = some st := by
  cases st <;> rfl

/-- A response is read back from its word: no bit of its three fields is lost (R81). -/
@[simp] theorem Machine.Response.ofWord?_word (r : Machine.Response) : Machine.Response.ofWord? r.word = some r := by
  simp [Machine.Response.ofWord?, Machine.Response.word]

end Sys2Proof
end

