-- ==== Sys2Proof/Laws/State.lean ====
section
/-!
SUPPORT. One lemma per field per update of the state record, each true by rfl, and what reading a register record
gives after a write of one.
-/

namespace Sys2Proof.Machine

variable (s : State)

@[simp] theorem State.respond_rings (st : Status) (aux : BitVec 8) (d : Word) : (s.respond st aux d).rings = s.rings := rfl
@[simp] theorem State.respond_ports (st : Status) (aux : BitVec 8) (d : Word) : (s.respond st aux d).ports = s.ports := rfl
@[simp] theorem State.respond_sources (st : Status) (aux : BitVec 8) (d : Word) : (s.respond st aux d).sources = s.sources := rfl
@[simp] theorem State.respond_svcFloor (st : Status) (aux : BitVec 8) (d : Word) : (s.respond st aux d).svcFloor = s.svcFloor := rfl
@[simp] theorem State.respond_coreI (st : Status) (aux : BitVec 8) (d : Word) : (s.respond st aux d).coreI = s.coreI := rfl
@[simp] theorem State.respond_coreF (st : Status) (aux : BitVec 8) (d : Word) : (s.respond st aux d).coreF = s.coreF := rfl
@[simp] theorem State.respond_trapTable (st : Status) (aux : BitVec 8) (d : Word) : (s.respond st aux d).trapTable = s.trapTable := rfl
@[simp] theorem State.respond_mem (st : Status) (aux : BitVec 8) (d : Word) : (s.respond st aux d).mem = s.mem := rfl
@[simp] theorem State.respond_busy (st : Status) (aux : BitVec 8) (d : Word) : (s.respond st aux d).busy = none := rfl
@[simp] theorem State.respond_rsp (st : Status) (aux : BitVec 8) (d : Word) : (s.respond st aux d).rsp = some ⟨st, aux, d⟩ := rfl
@[simp] theorem State.respond_rspWord (st : Status) (aux : BitVec 8) (d : Word) :
    (s.respond st aux d).rspWord = some (packResponse st aux d) := rfl
@[simp] theorem State.respond_events (st : Status) (aux : BitVec 8) (d : Word) : (s.respond st aux d).events = s.events := rfl
@[simp] theorem State.respond_params (st : Status) (aux : BitVec 8) (d : Word) : (s.respond st aux d).params = s.params := rfl
@[simp] theorem State.respond_agenda (st : Status) (aux : BitVec 8) (d : Word) : (s.respond st aux d).agenda = s.agenda := rfl
@[simp] theorem State.respond_code (st : Status) (aux : BitVec 8) (d : Word) : (s.respond st aux d).code = s.code := rfl
@[simp] theorem State.respond_ext (st : Status) (aux : BitVec 8) (d : Word) : (s.respond st aux d).ext = s.ext := rfl
@[simp] theorem State.respond_callbacks (st : Status) (aux : BitVec 8) (d : Word) : (s.respond st aux d).callbacks = s.callbacks := rfl
@[simp] theorem State.respond_results (st : Status) (aux : BitVec 8) (d : Word) : (s.respond st aux d).results = s.results := rfl
@[simp] theorem State.respond_invoked (st : Status) (aux : BitVec 8) (d : Word) : (s.respond st aux d).invoked = s.invoked := rfl
@[simp] theorem State.respond_freeCount (st : Status) (aux : BitVec 8) (d : Word) : (s.respond st aux d).freeCount = s.freeCount := rfl

@[simp] theorem State.fail_rings (st : Status) : (s.fail st).rings = s.rings := rfl
@[simp] theorem State.fail_ports (st : Status) : (s.fail st).ports = s.ports := rfl
@[simp] theorem State.fail_sources (st : Status) : (s.fail st).sources = s.sources := rfl
@[simp] theorem State.fail_svcFloor (st : Status) : (s.fail st).svcFloor = s.svcFloor := rfl
@[simp] theorem State.fail_coreI (st : Status) : (s.fail st).coreI = s.coreI := rfl
@[simp] theorem State.fail_coreF (st : Status) : (s.fail st).coreF = s.coreF := rfl
@[simp] theorem State.fail_trapTable (st : Status) : (s.fail st).trapTable = s.trapTable := rfl
@[simp] theorem State.fail_mem (st : Status) : (s.fail st).mem = s.mem := rfl
@[simp] theorem State.fail_busy (st : Status) : (s.fail st).busy = none := rfl
@[simp] theorem State.fail_rsp (st : Status) : (s.fail st).rsp = some ⟨st, 0xFF, 0xFFFFFFFF⟩ := rfl
@[simp] theorem State.fail_rspWord (st : Status) : (s.fail st).rspWord = some (packResponse st 0xFF 0xFFFFFFFF) := rfl
@[simp] theorem State.fail_events (st : Status) : (s.fail st).events = s.events := rfl
@[simp] theorem State.fail_params (st : Status) : (s.fail st).params = s.params := rfl
@[simp] theorem State.fail_agenda (st : Status) : (s.fail st).agenda = s.agenda := rfl
@[simp] theorem State.fail_code (st : Status) : (s.fail st).code = s.code := rfl
@[simp] theorem State.fail_ext (st : Status) : (s.fail st).ext = s.ext := rfl
@[simp] theorem State.fail_callbacks (st : Status) : (s.fail st).callbacks = s.callbacks := rfl
@[simp] theorem State.fail_results (st : Status) : (s.fail st).results = s.results := rfl
@[simp] theorem State.fail_invoked (st : Status) : (s.fail st).invoked = s.invoked := rfl
@[simp] theorem State.fail_freeCount (st : Status) : (s.fail st).freeCount = s.freeCount := rfl

@[simp] theorem State.hold_rings (i : Instr) : (s.hold i).rings = s.rings := rfl
@[simp] theorem State.hold_ports (i : Instr) : (s.hold i).ports = s.ports := rfl
@[simp] theorem State.hold_sources (i : Instr) : (s.hold i).sources = s.sources := rfl
@[simp] theorem State.hold_svcFloor (i : Instr) : (s.hold i).svcFloor = s.svcFloor := rfl
@[simp] theorem State.hold_coreI (i : Instr) : (s.hold i).coreI = s.coreI := rfl
@[simp] theorem State.hold_coreF (i : Instr) : (s.hold i).coreF = s.coreF := rfl
@[simp] theorem State.hold_trapTable (i : Instr) : (s.hold i).trapTable = s.trapTable := rfl
@[simp] theorem State.hold_mem (i : Instr) : (s.hold i).mem = s.mem := rfl
@[simp] theorem State.hold_busy (i : Instr) : (s.hold i).busy = some i := rfl
@[simp] theorem State.hold_rsp (i : Instr) : (s.hold i).rsp = s.rsp := rfl
@[simp] theorem State.hold_rspWord (i : Instr) : (s.hold i).rspWord = s.rspWord := rfl
@[simp] theorem State.hold_events (i : Instr) : (s.hold i).events = s.events := rfl
@[simp] theorem State.hold_params (i : Instr) : (s.hold i).params = s.params := rfl
@[simp] theorem State.hold_agenda (i : Instr) : (s.hold i).agenda = s.agenda := rfl
@[simp] theorem State.hold_code (i : Instr) : (s.hold i).code = s.code := rfl
@[simp] theorem State.hold_ext (i : Instr) : (s.hold i).ext = s.ext := rfl
@[simp] theorem State.hold_callbacks (i : Instr) : (s.hold i).callbacks = s.callbacks := rfl
@[simp] theorem State.hold_results (i : Instr) : (s.hold i).results = s.results := rfl
@[simp] theorem State.hold_invoked (i : Instr) : (s.hold i).invoked = s.invoked := rfl
@[simp] theorem State.hold_freeCount (i : Instr) : (s.hold i).freeCount = s.freeCount := rfl

@[simp] theorem State.emit_rings (e : Event) : (s.emit e).rings = s.rings := rfl
@[simp] theorem State.emit_ports (e : Event) : (s.emit e).ports = s.ports := rfl
@[simp] theorem State.emit_sources (e : Event) : (s.emit e).sources = s.sources := rfl
@[simp] theorem State.emit_svcFloor (e : Event) : (s.emit e).svcFloor = s.svcFloor := rfl
@[simp] theorem State.emit_coreI (e : Event) : (s.emit e).coreI = s.coreI := rfl
@[simp] theorem State.emit_coreF (e : Event) : (s.emit e).coreF = s.coreF := rfl
@[simp] theorem State.emit_trapTable (e : Event) : (s.emit e).trapTable = s.trapTable := rfl
@[simp] theorem State.emit_mem (e : Event) : (s.emit e).mem = s.mem := rfl
@[simp] theorem State.emit_busy (e : Event) : (s.emit e).busy = s.busy := rfl
@[simp] theorem State.emit_rsp (e : Event) : (s.emit e).rsp = s.rsp := rfl
@[simp] theorem State.emit_events (e : Event) : (s.emit e).events = s.events ++ [e] := rfl
@[simp] theorem State.emit_params (e : Event) : (s.emit e).params = s.params := rfl
@[simp] theorem State.emit_agenda (e : Event) : (s.emit e).agenda = s.agenda := rfl
@[simp] theorem State.emit_code (e : Event) : (s.emit e).code = s.code := rfl
@[simp] theorem State.emit_ext (e : Event) : (s.emit e).ext = s.ext := rfl
@[simp] theorem State.emit_callbacks (e : Event) : (s.emit e).callbacks = s.callbacks := rfl
@[simp] theorem State.emit_results (e : Event) : (s.emit e).results = s.results := rfl
@[simp] theorem State.emit_invoked (e : Event) : (s.emit e).invoked = s.invoked := rfl
@[simp] theorem State.emit_freeCount (e : Event) : (s.emit e).freeCount = s.freeCount := rfl

@[simp] theorem State.setRing_rings (r : Nat) (x : Ring) : (s.setRing r x).rings = s.rings.set r x := rfl
@[simp] theorem State.setRing_ports (r : Nat) (x : Ring) : (s.setRing r x).ports = s.ports := rfl
@[simp] theorem State.setRing_sources (r : Nat) (x : Ring) : (s.setRing r x).sources = s.sources := rfl
@[simp] theorem State.setRing_svcFloor (r : Nat) (x : Ring) : (s.setRing r x).svcFloor = s.svcFloor := rfl
@[simp] theorem State.setRing_coreI (r : Nat) (x : Ring) : (s.setRing r x).coreI = s.coreI := rfl
@[simp] theorem State.setRing_coreF (r : Nat) (x : Ring) : (s.setRing r x).coreF = s.coreF := rfl
@[simp] theorem State.setRing_trapTable (r : Nat) (x : Ring) : (s.setRing r x).trapTable = s.trapTable := rfl
@[simp] theorem State.setRing_mem (r : Nat) (x : Ring) : (s.setRing r x).mem = s.mem := rfl
@[simp] theorem State.setRing_busy (r : Nat) (x : Ring) : (s.setRing r x).busy = s.busy := rfl
@[simp] theorem State.setRing_rsp (r : Nat) (x : Ring) : (s.setRing r x).rsp = s.rsp := rfl
@[simp] theorem State.setRing_events (r : Nat) (x : Ring) : (s.setRing r x).events = s.events := rfl
@[simp] theorem State.setRing_params (r : Nat) (x : Ring) : (s.setRing r x).params = s.params := rfl
@[simp] theorem State.setRing_agenda (r : Nat) (x : Ring) : (s.setRing r x).agenda = s.agenda := rfl
@[simp] theorem State.setRing_code (r : Nat) (x : Ring) : (s.setRing r x).code = s.code := rfl
@[simp] theorem State.setRing_ext (r : Nat) (x : Ring) : (s.setRing r x).ext = s.ext := rfl
@[simp] theorem State.setRing_callbacks (r : Nat) (x : Ring) : (s.setRing r x).callbacks = s.callbacks := rfl
@[simp] theorem State.setRing_results (r : Nat) (x : Ring) : (s.setRing r x).results = s.results := rfl
@[simp] theorem State.setRing_invoked (r : Nat) (x : Ring) : (s.setRing r x).invoked = s.invoked := rfl
@[simp] theorem State.setRing_freeCount (r : Nat) (x : Ring) : (s.setRing r x).freeCount = s.freeCount := rfl

@[simp] theorem State.setPort_rings (p : Nat) (q : Port) : (s.setPort p q).rings = s.rings := rfl
@[simp] theorem State.setPort_ports (p : Nat) (q : Port) : (s.setPort p q).ports = s.ports.set p q := rfl
@[simp] theorem State.setPort_sources (p : Nat) (q : Port) : (s.setPort p q).sources = s.sources := rfl
@[simp] theorem State.setPort_svcFloor (p : Nat) (q : Port) : (s.setPort p q).svcFloor = s.svcFloor := rfl
@[simp] theorem State.setPort_coreI (p : Nat) (q : Port) : (s.setPort p q).coreI = s.coreI := rfl
@[simp] theorem State.setPort_coreF (p : Nat) (q : Port) : (s.setPort p q).coreF = s.coreF := rfl
@[simp] theorem State.setPort_trapTable (p : Nat) (q : Port) : (s.setPort p q).trapTable = s.trapTable := rfl
@[simp] theorem State.setPort_mem (p : Nat) (q : Port) : (s.setPort p q).mem = s.mem := rfl
@[simp] theorem State.setPort_busy (p : Nat) (q : Port) : (s.setPort p q).busy = s.busy := rfl
@[simp] theorem State.setPort_rsp (p : Nat) (q : Port) : (s.setPort p q).rsp = s.rsp := rfl
@[simp] theorem State.setPort_events (p : Nat) (q : Port) : (s.setPort p q).events = s.events := rfl
@[simp] theorem State.setPort_params (p : Nat) (q : Port) : (s.setPort p q).params = s.params := rfl
@[simp] theorem State.setPort_agenda (p : Nat) (q : Port) : (s.setPort p q).agenda = s.agenda := rfl
@[simp] theorem State.setPort_code (p : Nat) (q : Port) : (s.setPort p q).code = s.code := rfl
@[simp] theorem State.setPort_ext (p : Nat) (q : Port) : (s.setPort p q).ext = s.ext := rfl
@[simp] theorem State.setPort_callbacks (p : Nat) (q : Port) : (s.setPort p q).callbacks = s.callbacks := rfl
@[simp] theorem State.setPort_results (p : Nat) (q : Port) : (s.setPort p q).results = s.results := rfl
@[simp] theorem State.setPort_invoked (p : Nat) (q : Port) : (s.setPort p q).invoked = s.invoked := rfl
@[simp] theorem State.setPort_freeCount (p : Nat) (q : Port) : (s.setPort p q).freeCount = s.freeCount := rfl

@[simp] theorem State.setSource_rings (i : Nat) (x : Source) : (s.setSource i x).rings = s.rings := rfl
@[simp] theorem State.setSource_ports (i : Nat) (x : Source) : (s.setSource i x).ports = s.ports := rfl
@[simp] theorem State.setSource_sources (i : Nat) (x : Source) : (s.setSource i x).sources = s.sources.set i x := rfl
@[simp] theorem State.setSource_svcFloor (i : Nat) (x : Source) : (s.setSource i x).svcFloor = s.svcFloor := rfl
@[simp] theorem State.setSource_coreI (i : Nat) (x : Source) : (s.setSource i x).coreI = s.coreI := rfl
@[simp] theorem State.setSource_coreF (i : Nat) (x : Source) : (s.setSource i x).coreF = s.coreF := rfl
@[simp] theorem State.setSource_trapTable (i : Nat) (x : Source) : (s.setSource i x).trapTable = s.trapTable := rfl
@[simp] theorem State.setSource_mem (i : Nat) (x : Source) : (s.setSource i x).mem = s.mem := rfl
@[simp] theorem State.setSource_busy (i : Nat) (x : Source) : (s.setSource i x).busy = s.busy := rfl
@[simp] theorem State.setSource_rsp (i : Nat) (x : Source) : (s.setSource i x).rsp = s.rsp := rfl
@[simp] theorem State.setSource_events (i : Nat) (x : Source) : (s.setSource i x).events = s.events := rfl
@[simp] theorem State.setSource_params (i : Nat) (x : Source) : (s.setSource i x).params = s.params := rfl
@[simp] theorem State.setSource_agenda (i : Nat) (x : Source) : (s.setSource i x).agenda = s.agenda := rfl
@[simp] theorem State.setSource_code (i : Nat) (x : Source) : (s.setSource i x).code = s.code := rfl
@[simp] theorem State.setSource_ext (i : Nat) (x : Source) : (s.setSource i x).ext = s.ext := rfl
@[simp] theorem State.setSource_callbacks (i : Nat) (x : Source) : (s.setSource i x).callbacks = s.callbacks := rfl
@[simp] theorem State.setSource_results (i : Nat) (x : Source) : (s.setSource i x).results = s.results := rfl
@[simp] theorem State.setSource_invoked (i : Nat) (x : Source) : (s.setSource i x).invoked = s.invoked := rfl
@[simp] theorem State.setSource_freeCount (i : Nat) (x : Source) : (s.setSource i x).freeCount = s.freeCount := rfl

@[simp] theorem State.writeByte_rings (a : Nat) (v : Byte) : (s.writeByte a v).rings = s.rings := rfl
@[simp] theorem State.writeByte_ports (a : Nat) (v : Byte) : (s.writeByte a v).ports = s.ports := rfl
@[simp] theorem State.writeByte_sources (a : Nat) (v : Byte) : (s.writeByte a v).sources = s.sources := rfl
@[simp] theorem State.writeByte_svcFloor (a : Nat) (v : Byte) : (s.writeByte a v).svcFloor = s.svcFloor := rfl
@[simp] theorem State.writeByte_coreI (a : Nat) (v : Byte) : (s.writeByte a v).coreI = s.coreI := rfl
@[simp] theorem State.writeByte_coreF (a : Nat) (v : Byte) : (s.writeByte a v).coreF = s.coreF := rfl
@[simp] theorem State.writeByte_trapTable (a : Nat) (v : Byte) : (s.writeByte a v).trapTable = s.trapTable := rfl
@[simp] theorem State.writeByte_mem (a : Nat) (v : Byte) : (s.writeByte a v).mem = s.mem.write a v := rfl
@[simp] theorem State.writeByte_busy (a : Nat) (v : Byte) : (s.writeByte a v).busy = s.busy := rfl
@[simp] theorem State.writeByte_rsp (a : Nat) (v : Byte) : (s.writeByte a v).rsp = s.rsp := rfl
@[simp] theorem State.writeByte_events (a : Nat) (v : Byte) : (s.writeByte a v).events = s.events := rfl
@[simp] theorem State.writeByte_params (a : Nat) (v : Byte) : (s.writeByte a v).params = s.params := rfl
@[simp] theorem State.writeByte_agenda (a : Nat) (v : Byte) : (s.writeByte a v).agenda = s.agenda := rfl
@[simp] theorem State.writeByte_code (a : Nat) (v : Byte) : (s.writeByte a v).code = s.code := rfl
@[simp] theorem State.writeByte_ext (a : Nat) (v : Byte) : (s.writeByte a v).ext = s.ext := rfl
@[simp] theorem State.writeByte_callbacks (a : Nat) (v : Byte) : (s.writeByte a v).callbacks = s.callbacks := rfl
@[simp] theorem State.writeByte_results (a : Nat) (v : Byte) : (s.writeByte a v).results = s.results := rfl
@[simp] theorem State.writeByte_invoked (a : Nat) (v : Byte) : (s.writeByte a v).invoked = s.invoked := rfl
@[simp] theorem State.writeByte_freeCount (a : Nat) (v : Byte) : (s.writeByte a v).freeCount = s.freeCount := rfl

@[simp] theorem State.restoreMask_rings (m : BitVec 2) : (s.restoreMask m).rings = s.rings := rfl
@[simp] theorem State.restoreMask_ports (m : BitVec 2) : (s.restoreMask m).ports = s.ports := rfl
@[simp] theorem State.restoreMask_sources (m : BitVec 2) : (s.restoreMask m).sources = s.sources := rfl
@[simp] theorem State.restoreMask_svcFloor (m : BitVec 2) : (s.restoreMask m).svcFloor = s.svcFloor := rfl
@[simp] theorem State.restoreMask_coreI (m : BitVec 2) : (s.restoreMask m).coreI = m.getLsbD 1 := rfl
@[simp] theorem State.restoreMask_coreF (m : BitVec 2) : (s.restoreMask m).coreF = m.getLsbD 0 := rfl
@[simp] theorem State.restoreMask_trapTable (m : BitVec 2) : (s.restoreMask m).trapTable = s.trapTable := rfl
@[simp] theorem State.restoreMask_mem (m : BitVec 2) : (s.restoreMask m).mem = s.mem := rfl
@[simp] theorem State.restoreMask_busy (m : BitVec 2) : (s.restoreMask m).busy = s.busy := rfl
@[simp] theorem State.restoreMask_rsp (m : BitVec 2) : (s.restoreMask m).rsp = s.rsp := rfl
@[simp] theorem State.restoreMask_events (m : BitVec 2) : (s.restoreMask m).events = s.events := rfl
@[simp] theorem State.restoreMask_params (m : BitVec 2) : (s.restoreMask m).params = s.params := rfl
@[simp] theorem State.restoreMask_agenda (m : BitVec 2) : (s.restoreMask m).agenda = s.agenda := rfl
@[simp] theorem State.restoreMask_code (m : BitVec 2) : (s.restoreMask m).code = s.code := rfl
@[simp] theorem State.restoreMask_ext (m : BitVec 2) : (s.restoreMask m).ext = s.ext := rfl
@[simp] theorem State.restoreMask_callbacks (m : BitVec 2) : (s.restoreMask m).callbacks = s.callbacks := rfl
@[simp] theorem State.restoreMask_results (m : BitVec 2) : (s.restoreMask m).results = s.results := rfl
@[simp] theorem State.restoreMask_invoked (m : BitVec 2) : (s.restoreMask m).invoked = s.invoked := rfl
@[simp] theorem State.restoreMask_freeCount (m : BitVec 2) : (s.restoreMask m).freeCount = s.freeCount := rfl

@[simp] theorem State.push_rings (ts : List Task) : (s.push ts).rings = s.rings := rfl
@[simp] theorem State.push_ports (ts : List Task) : (s.push ts).ports = s.ports := rfl
@[simp] theorem State.push_sources (ts : List Task) : (s.push ts).sources = s.sources := rfl
@[simp] theorem State.push_svcFloor (ts : List Task) : (s.push ts).svcFloor = s.svcFloor := rfl
@[simp] theorem State.push_coreI (ts : List Task) : (s.push ts).coreI = s.coreI := rfl
@[simp] theorem State.push_coreF (ts : List Task) : (s.push ts).coreF = s.coreF := rfl
@[simp] theorem State.push_trapTable (ts : List Task) : (s.push ts).trapTable = s.trapTable := rfl
@[simp] theorem State.push_mem (ts : List Task) : (s.push ts).mem = s.mem := rfl
@[simp] theorem State.push_busy (ts : List Task) : (s.push ts).busy = s.busy := rfl
@[simp] theorem State.push_rsp (ts : List Task) : (s.push ts).rsp = s.rsp := rfl
@[simp] theorem State.push_events (ts : List Task) : (s.push ts).events = s.events := rfl
@[simp] theorem State.push_params (ts : List Task) : (s.push ts).params = s.params := rfl
@[simp] theorem State.push_agenda (ts : List Task) : (s.push ts).agenda = s.agenda := rfl
@[simp] theorem State.push_code (ts : List Task) : (s.push ts).code = ts ++ s.code := rfl
@[simp] theorem State.push_ext (ts : List Task) : (s.push ts).ext = s.ext := rfl
@[simp] theorem State.push_callbacks (ts : List Task) : (s.push ts).callbacks = s.callbacks := rfl
@[simp] theorem State.push_results (ts : List Task) : (s.push ts).results = s.results := rfl
@[simp] theorem State.push_invoked (ts : List Task) : (s.push ts).invoked = s.invoked := rfl
@[simp] theorem State.push_freeCount (ts : List Task) : (s.push ts).freeCount = s.freeCount := rfl

@[simp] theorem State.giveResult_rings (st : Status) (v : Word) : (s.giveResult st v).rings = s.rings := rfl
@[simp] theorem State.giveResult_ports (st : Status) (v : Word) : (s.giveResult st v).ports = s.ports := rfl
@[simp] theorem State.giveResult_sources (st : Status) (v : Word) : (s.giveResult st v).sources = s.sources := rfl
@[simp] theorem State.giveResult_svcFloor (st : Status) (v : Word) : (s.giveResult st v).svcFloor = s.svcFloor := rfl
@[simp] theorem State.giveResult_coreI (st : Status) (v : Word) : (s.giveResult st v).coreI = s.coreI := rfl
@[simp] theorem State.giveResult_coreF (st : Status) (v : Word) : (s.giveResult st v).coreF = s.coreF := rfl
@[simp] theorem State.giveResult_trapTable (st : Status) (v : Word) : (s.giveResult st v).trapTable = s.trapTable := rfl
@[simp] theorem State.giveResult_mem (st : Status) (v : Word) : (s.giveResult st v).mem = s.mem := rfl
@[simp] theorem State.giveResult_busy (st : Status) (v : Word) : (s.giveResult st v).busy = s.busy := rfl
@[simp] theorem State.giveResult_rsp (st : Status) (v : Word) : (s.giveResult st v).rsp = s.rsp := rfl
@[simp] theorem State.giveResult_events (st : Status) (v : Word) : (s.giveResult st v).events = s.events := rfl
@[simp] theorem State.giveResult_params (st : Status) (v : Word) : (s.giveResult st v).params = s.params := rfl
@[simp] theorem State.giveResult_agenda (st : Status) (v : Word) : (s.giveResult st v).agenda = s.agenda := rfl
@[simp] theorem State.giveResult_code (st : Status) (v : Word) : (s.giveResult st v).code = s.code := rfl
@[simp] theorem State.giveResult_ext (st : Status) (v : Word) : (s.giveResult st v).ext = s.ext := rfl
@[simp] theorem State.giveResult_callbacks (st : Status) (v : Word) : (s.giveResult st v).callbacks = s.callbacks := rfl
@[simp] theorem State.giveResult_results (st : Status) (v : Word) : (s.giveResult st v).results = s.results ++ [⟨st, v⟩] := rfl
@[simp] theorem State.giveResult_invoked (st : Status) (v : Word) : (s.giveResult st v).invoked = s.invoked := rfl
@[simp] theorem State.giveResult_freeCount (st : Status) (v : Word) : (s.giveResult st v).freeCount = s.freeCount := rfl

@[simp] theorem State.respond_ring (st : Status) (aux : BitVec 8) (d : Word) (r' : Nat) : (s.respond st aux d).ring r' = s.ring r' := rfl
@[simp] theorem State.respond_port (st : Status) (aux : BitVec 8) (d : Word) (p' : Nat) : (s.respond st aux d).port p' = s.port p' := rfl
@[simp] theorem State.respond_source (st : Status) (aux : BitVec 8) (d : Word) (i' : Nat) : (s.respond st aux d).source i' = s.source i' := rfl
@[simp] theorem State.respond_readByte (st : Status) (aux : BitVec 8) (d : Word) (a' : Nat) : (s.respond st aux d).readByte a' = s.readByte a' := rfl
@[simp] theorem State.respond_nRings (st : Status) (aux : BitVec 8) (d : Word) : (s.respond st aux d).nRings = s.nRings := rfl
@[simp] theorem State.respond_nPorts (st : Status) (aux : BitVec 8) (d : Word) : (s.respond st aux d).nPorts = s.nPorts := rfl
@[simp] theorem State.respond_nSrc (st : Status) (aux : BitVec 8) (d : Word) : (s.respond st aux d).nSrc = s.nSrc := rfl

@[simp] theorem State.fail_ring (st : Status) (r' : Nat) : (s.fail st).ring r' = s.ring r' := rfl
@[simp] theorem State.fail_port (st : Status) (p' : Nat) : (s.fail st).port p' = s.port p' := rfl
@[simp] theorem State.fail_source (st : Status) (i' : Nat) : (s.fail st).source i' = s.source i' := rfl
@[simp] theorem State.fail_readByte (st : Status) (a' : Nat) : (s.fail st).readByte a' = s.readByte a' := rfl
@[simp] theorem State.fail_nRings (st : Status) : (s.fail st).nRings = s.nRings := rfl
@[simp] theorem State.fail_nPorts (st : Status) : (s.fail st).nPorts = s.nPorts := rfl
@[simp] theorem State.fail_nSrc (st : Status) : (s.fail st).nSrc = s.nSrc := rfl

@[simp] theorem State.hold_ring (i : Instr) (r' : Nat) : (s.hold i).ring r' = s.ring r' := rfl
@[simp] theorem State.hold_port (i : Instr) (p' : Nat) : (s.hold i).port p' = s.port p' := rfl
@[simp] theorem State.hold_source (i : Instr) (i' : Nat) : (s.hold i).source i' = s.source i' := rfl
@[simp] theorem State.hold_readByte (i : Instr) (a' : Nat) : (s.hold i).readByte a' = s.readByte a' := rfl
@[simp] theorem State.hold_nRings (i : Instr) : (s.hold i).nRings = s.nRings := rfl
@[simp] theorem State.hold_nPorts (i : Instr) : (s.hold i).nPorts = s.nPorts := rfl
@[simp] theorem State.hold_nSrc (i : Instr) : (s.hold i).nSrc = s.nSrc := rfl

@[simp] theorem State.emit_ring (e : Event) (r' : Nat) : (s.emit e).ring r' = s.ring r' := rfl
@[simp] theorem State.emit_port (e : Event) (p' : Nat) : (s.emit e).port p' = s.port p' := rfl
@[simp] theorem State.emit_source (e : Event) (i' : Nat) : (s.emit e).source i' = s.source i' := rfl
@[simp] theorem State.emit_readByte (e : Event) (a' : Nat) : (s.emit e).readByte a' = s.readByte a' := rfl
@[simp] theorem State.emit_nRings (e : Event) : (s.emit e).nRings = s.nRings := rfl
@[simp] theorem State.emit_nPorts (e : Event) : (s.emit e).nPorts = s.nPorts := rfl
@[simp] theorem State.emit_nSrc (e : Event) : (s.emit e).nSrc = s.nSrc := rfl

@[simp] theorem State.writeByte_ring (a : Nat) (v : Byte) (r' : Nat) : (s.writeByte a v).ring r' = s.ring r' := rfl
@[simp] theorem State.writeByte_port (a : Nat) (v : Byte) (p' : Nat) : (s.writeByte a v).port p' = s.port p' := rfl
@[simp] theorem State.writeByte_source (a : Nat) (v : Byte) (i' : Nat) : (s.writeByte a v).source i' = s.source i' := rfl
@[simp] theorem State.writeByte_nRings (a : Nat) (v : Byte) : (s.writeByte a v).nRings = s.nRings := rfl
@[simp] theorem State.writeByte_nPorts (a : Nat) (v : Byte) : (s.writeByte a v).nPorts = s.nPorts := rfl
@[simp] theorem State.writeByte_nSrc (a : Nat) (v : Byte) : (s.writeByte a v).nSrc = s.nSrc := rfl

@[simp] theorem State.restoreMask_ring (m : BitVec 2) (r' : Nat) : (s.restoreMask m).ring r' = s.ring r' := rfl
@[simp] theorem State.restoreMask_port (m : BitVec 2) (p' : Nat) : (s.restoreMask m).port p' = s.port p' := rfl
@[simp] theorem State.restoreMask_source (m : BitVec 2) (i' : Nat) : (s.restoreMask m).source i' = s.source i' := rfl
@[simp] theorem State.restoreMask_readByte (m : BitVec 2) (a' : Nat) : (s.restoreMask m).readByte a' = s.readByte a' := rfl
@[simp] theorem State.restoreMask_nRings (m : BitVec 2) : (s.restoreMask m).nRings = s.nRings := rfl
@[simp] theorem State.restoreMask_nPorts (m : BitVec 2) : (s.restoreMask m).nPorts = s.nPorts := rfl
@[simp] theorem State.restoreMask_nSrc (m : BitVec 2) : (s.restoreMask m).nSrc = s.nSrc := rfl

@[simp] theorem State.push_ring (ts : List Task) (r' : Nat) : (s.push ts).ring r' = s.ring r' := rfl
@[simp] theorem State.push_port (ts : List Task) (p' : Nat) : (s.push ts).port p' = s.port p' := rfl
@[simp] theorem State.push_source (ts : List Task) (i' : Nat) : (s.push ts).source i' = s.source i' := rfl
@[simp] theorem State.push_readByte (ts : List Task) (a' : Nat) : (s.push ts).readByte a' = s.readByte a' := rfl
@[simp] theorem State.push_nRings (ts : List Task) : (s.push ts).nRings = s.nRings := rfl
@[simp] theorem State.push_nPorts (ts : List Task) : (s.push ts).nPorts = s.nPorts := rfl
@[simp] theorem State.push_nSrc (ts : List Task) : (s.push ts).nSrc = s.nSrc := rfl

@[simp] theorem State.giveResult_ring (st : Status) (v : Word) (r' : Nat) : (s.giveResult st v).ring r' = s.ring r' := rfl
@[simp] theorem State.giveResult_port (st : Status) (v : Word) (p' : Nat) : (s.giveResult st v).port p' = s.port p' := rfl
@[simp] theorem State.giveResult_source (st : Status) (v : Word) (i' : Nat) : (s.giveResult st v).source i' = s.source i' := rfl
@[simp] theorem State.giveResult_readByte (st : Status) (v : Word) (a' : Nat) : (s.giveResult st v).readByte a' = s.readByte a' := rfl
@[simp] theorem State.giveResult_nRings (st : Status) (v : Word) : (s.giveResult st v).nRings = s.nRings := rfl
@[simp] theorem State.giveResult_nPorts (st : Status) (v : Word) : (s.giveResult st v).nPorts = s.nPorts := rfl
@[simp] theorem State.giveResult_nSrc (st : Status) (v : Word) : (s.giveResult st v).nSrc = s.nSrc := rfl

@[simp] theorem State.setRing_nRings (r : Nat) (x : Ring) : (s.setRing r x).nRings = s.nRings := by
  simp [State.nRings, State.setRing]
@[simp] theorem State.setRing_nPorts (r : Nat) (x : Ring) : (s.setRing r x).nPorts = s.nPorts := rfl
@[simp] theorem State.setRing_nSrc (r : Nat) (x : Ring) : (s.setRing r x).nSrc = s.nSrc := rfl
@[simp] theorem State.setRing_port (r : Nat) (x : Ring) (p' : Nat) : (s.setRing r x).port p' = s.port p' := rfl
@[simp] theorem State.setRing_source (r : Nat) (x : Ring) (i' : Nat) : (s.setRing r x).source i' = s.source i' := rfl
@[simp] theorem State.setRing_readByte (r : Nat) (x : Ring) (a : Nat) : (s.setRing r x).readByte a = s.readByte a := rfl

/-- Reading a ring record after a write of one. -/
theorem State.ring_setRing (r j : Nat) (x : Ring) :
    (s.setRing r x).ring j = if r = j ∧ r < s.nRings then x else s.ring j := by
  simp only [State.ring, State.setRing, State.nRings, List.getD_eq_getElem?_getD, List.getElem?_set]
  split <;> split <;> simp_all

@[simp] theorem State.ring_setRing_self (r : Nat) (x : Ring) (h : r < s.nRings) : (s.setRing r x).ring r = x := by
  simp [State.ring_setRing, h]

theorem State.ring_setRing_ne (r j : Nat) (x : Ring) (h : r ≠ j) : (s.setRing r x).ring j = s.ring j := by
  simp [State.ring_setRing, h]

/-- A ring record of the state is one of its list, or the reset record where there is none. -/
theorem State.ring_mem (r : Nat) (h : r < s.nRings) : s.ring r ∈ s.rings := by
  have h' : r < s.rings.length := h
  simp [State.ring, List.getD_eq_getElem?_getD, List.getElem?_eq_getElem h']

theorem State.ring_of_ge (r : Nat) (h : s.nRings ≤ r) : s.ring r = Ring.reset := by
  have h' : s.rings.length ≤ r := h
  simp [State.ring, List.getD_eq_getElem?_getD, List.getElem?_eq_none h']

@[simp] theorem State.setPort_nPorts (p : Nat) (q : Port) : (s.setPort p q).nPorts = s.nPorts := by
  simp [State.nPorts, State.setPort]
@[simp] theorem State.setPort_nRings (p : Nat) (q : Port) : (s.setPort p q).nRings = s.nRings := rfl
@[simp] theorem State.setPort_nSrc (p : Nat) (q : Port) : (s.setPort p q).nSrc = s.nSrc := rfl
@[simp] theorem State.setPort_ring (p : Nat) (q : Port) (r' : Nat) : (s.setPort p q).ring r' = s.ring r' := rfl
@[simp] theorem State.setPort_source (p : Nat) (q : Port) (i' : Nat) : (s.setPort p q).source i' = s.source i' := rfl
@[simp] theorem State.setPort_readByte (p : Nat) (q : Port) (a : Nat) : (s.setPort p q).readByte a = s.readByte a := rfl

/-- Reading a port record after a write of one. -/
theorem State.port_setPort (p j : Nat) (q : Port) :
    (s.setPort p q).port j = if p = j ∧ p < s.nPorts then q else s.port j := by
  simp only [State.port, State.setPort, State.nPorts, List.getD_eq_getElem?_getD, List.getElem?_set]
  split <;> split <;> simp_all

@[simp] theorem State.port_setPort_self (p : Nat) (q : Port) (h : p < s.nPorts) : (s.setPort p q).port p = q := by
  simp [State.port_setPort, h]

theorem State.port_setPort_ne (p j : Nat) (q : Port) (h : p ≠ j) : (s.setPort p q).port j = s.port j := by
  simp [State.port_setPort, h]

/-- A port record of the state is one of its list, or the reset record where there is none. -/
theorem State.port_mem (p : Nat) (h : p < s.nPorts) : s.port p ∈ s.ports := by
  have h' : p < s.ports.length := h
  simp [State.port, List.getD_eq_getElem?_getD, List.getElem?_eq_getElem h']

theorem State.port_of_ge (p : Nat) (h : s.nPorts ≤ p) : s.port p = Port.reset := by
  have h' : s.ports.length ≤ p := h
  simp [State.port, List.getD_eq_getElem?_getD, List.getElem?_eq_none h']

@[simp] theorem State.setSource_nSrc (i : Nat) (x : Source) : (s.setSource i x).nSrc = s.nSrc := by
  simp [State.nSrc, State.setSource]
@[simp] theorem State.setSource_nRings (i : Nat) (x : Source) : (s.setSource i x).nRings = s.nRings := rfl
@[simp] theorem State.setSource_nPorts (i : Nat) (x : Source) : (s.setSource i x).nPorts = s.nPorts := rfl
@[simp] theorem State.setSource_ring (i : Nat) (x : Source) (r' : Nat) : (s.setSource i x).ring r' = s.ring r' := rfl
@[simp] theorem State.setSource_port (i : Nat) (x : Source) (p' : Nat) : (s.setSource i x).port p' = s.port p' := rfl
@[simp] theorem State.setSource_readByte (i : Nat) (x : Source) (a : Nat) : (s.setSource i x).readByte a = s.readByte a := rfl

/-- Reading a source record after a write of one. -/
theorem State.source_setSource (i j : Nat) (x : Source) :
    (s.setSource i x).source j = if i = j ∧ i < s.nSrc then x else s.source j := by
  simp only [State.source, State.setSource, State.nSrc, List.getD_eq_getElem?_getD, List.getElem?_set]
  split <;> split <;> simp_all

@[simp] theorem State.source_setSource_self (i : Nat) (x : Source) (h : i < s.nSrc) : (s.setSource i x).source i = x := by
  simp [State.source_setSource, h]

theorem State.source_setSource_ne (i j : Nat) (x : Source) (h : i ≠ j) : (s.setSource i x).source j = s.source j := by
  simp [State.source_setSource, h]

/-- A source record of the state is one of its list, or the reset record where there is none. -/
theorem State.source_mem (i : Nat) (h : i < s.nSrc) : s.source i ∈ s.sources := by
  have h' : i < s.sources.length := h
  simp [State.source, List.getD_eq_getElem?_getD, List.getElem?_eq_getElem h']

theorem State.source_of_ge (i : Nat) (h : s.nSrc ≤ i) : s.source i = Source.reset := by
  have h' : s.sources.length ≤ i := h
  simp [State.source, List.getD_eq_getElem?_getD, List.getElem?_eq_none h']

end Sys2Proof.Machine
end

