-- ==== Sys2Proof/Laws/Memory.lean ====
section
/-!
SUPPORT. The laws of storage memory (20_memory.md R60, R68): a read after a write, and the canonical form that every
memory operation keeps.
-/

namespace Sys2Proof.Machine

theorem Memory.read?_write (m : Memory) (a b : Nat) (v : Byte) :
    (Memory.write m a v).read? b = if b = a then some v else m.read? b := by
  induction m with
  | nil => simp [Memory.write, Memory.read?]
  | cons c rest ih =>
      obtain ⟨c, u⟩ := c
      simp only [Memory.write]
      split
      · simp [Memory.read?]
      · split
        · subst_vars
          simp only [Memory.read?]
          split <;> simp_all
        · simp only [Memory.read?, ih]
          split <;> split <;> simp_all

@[simp] theorem State.readByte_writeByte_self (s : State) (a : Nat) (v : Byte) : (s.writeByte a v).readByte a = v := by
  simp [State.readByte, Memory.read?_write]

theorem State.readByte_writeByte_ne (s : State) (a b : Nat) (v : Byte) (h : b ≠ a) :
    (s.writeByte a v).readByte b = s.readByte b := by
  simp [State.readByte, Memory.read?_write, h]

/-- The addresses of a memory after a write are the old ones and the one written. -/
theorem Memory.mem_write (m : Memory) (a : Nat) (v : Byte) (c : Host.Cell) (h : c ∈ Memory.write m a v) :
    c = (a, v) ∨ c ∈ m := by
  induction m with
  | nil => simpa [Memory.write] using h
  | cons d rest ih =>
      obtain ⟨d, u⟩ := d
      simp only [Memory.write] at h
      split at h
      · simpa using h
      · split at h
        · simp only [List.mem_cons] at h ⊢
          rcases h with h | h <;> simp [h]
        · simp only [List.mem_cons] at h ⊢
          rcases h with h | h
          · exact .inr (.inl h)
          · rcases ih h with h | h <;> simp [h]

theorem Memory.wf_iff (m : Memory) :
    m.wf = true ↔ m.Pairwise (fun x y => x.1 < y.1) ∧ ∀ c ∈ m, c.1 < 2 ^ 32 := by
  simp [Memory.wf]

/-- Every write at a 32-bit address keeps the canonical form. -/
theorem Memory.wf_write (m : Memory) (a : Nat) (v : Byte) (ha : a < 2 ^ 32) (h : m.wf = true) :
    (Memory.write m a v).wf = true := by
  rw [Memory.wf_iff] at h ⊢
  obtain ⟨hp, hb⟩ := h
  refine ⟨?_, fun c hc => ?_⟩
  · clear hb
    induction m with
    | nil => simp [Memory.write]
    | cons d rest ih =>
        obtain ⟨d, u⟩ := d
        rw [List.pairwise_cons] at hp
        obtain ⟨hd, hr⟩ := hp
        simp only [Memory.write]
        split
        · rename_i hlt
          refine List.pairwise_cons.2 ⟨fun c hc => ?_, List.pairwise_cons.2 ⟨hd, hr⟩⟩
          rcases List.mem_cons.1 hc with rfl | hc
          · exact hlt
          · exact Nat.lt_trans hlt (hd c hc)
        · split
          · subst_vars
            exact List.pairwise_cons.2 ⟨hd, hr⟩
          · refine List.pairwise_cons.2 ⟨fun c hc => ?_, ih hr⟩
            rcases Memory.mem_write rest a v c hc with rfl | hc
            · show d < a
              omega
            · exact hd c hc
  · rcases Memory.mem_write m a v c hc with rfl | hc
    · exact ha
    · exact hb c hc

end Sys2Proof.Machine
end

