-- ==== Sys2Proof/Laws/Ops.lean ====
section
/-!
SUPPORT. One lemma per shared operation that says everything it can do: the operand checks, the ring paths, the
callback announcement, taking a trap, the priority encoder, and the command boundary.
-/

namespace Sys2Proof.Machine

section Operands
variable {sel : BitVec 8} {s : State} {k : Nat → State}

theorem withRing_cases : (s.nRings ≤ sel.toNat ∧ withRing sel s k = s.fail .invalidParameter) ∨
    (sel.toNat < s.nRings ∧ withRing sel s k = k sel.toNat) := by
  unfold withRing
  split
  · exact .inl ⟨‹_›, rfl⟩
  · exact .inr ⟨by omega, rfl⟩

theorem withPort_cases : (s.nPorts ≤ sel.toNat ∧ withPort sel s k = s.fail .noSuchDevice) ∨
    (sel.toNat < s.nPorts ∧ withPort sel s k = k sel.toNat) := by
  unfold withPort
  split
  · exact .inl ⟨‹_›, rfl⟩
  · exact .inr ⟨by omega, rfl⟩

theorem withConfigured_cases :
    ((s.nPorts ≤ sel.toNat ∨ (s.port sel.toNat).configured = false) ∧
      withConfigured sel s k = s.fail .noSuchDevice) ∨
    (sel.toNat < s.nPorts ∧ (s.port sel.toNat).configured = true ∧ withConfigured sel s k = k sel.toNat) := by
  unfold withConfigured
  rcases withPort_cases (sel := sel) (s := s) (k := fun p => if (s.port p).configured then k p else s.fail .noSuchDevice)
    with ⟨h, e⟩ | ⟨h, e⟩
  · exact .inl ⟨.inl h, e⟩
  · rw [e]
    cases hc : (s.port sel.toNat).configured
    · exact .inl ⟨.inr rfl, by simp⟩
    · exact .inr ⟨h, rfl, by simp⟩

theorem withSource_cases : (s.nSrc ≤ sel.toNat ∧ withSource sel s k = s.fail .invalidParameter) ∨
    (sel.toNat < s.nSrc ∧ withSource sel s k = k sel.toNat) := by
  unfold withSource
  split
  · exact .inl ⟨‹_›, rfl⟩
  · exact .inr ⟨by omega, rfl⟩

theorem withTrap_cases {kt : Fin Config.nTraps → State} :
    (Config.nTraps ≤ sel.toNat ∧ withTrap sel s kt = s.fail .invalidParameter) ∨
    (∃ h : sel.toNat < Config.nTraps, withTrap sel s kt = kt ⟨sel.toNat, h⟩) := by
  unfold withTrap
  split
  · exact .inr ⟨‹_›, rfl⟩
  · exact .inl ⟨by omega, rfl⟩

end Operands

section Ring
variable (s : State) (r : Nat)

/-- The write path (40_ring.md R102): rejected without any change, or one byte stored and the record advanced. -/
theorem State.ringWrite_cases (v : Byte) :
    ((s.ring r).isFull = true ∧ s.ringWrite r v = (false, s)) ∨
    ((s.ring r).isFull = false ∧
      s.ringWrite r v =
        (true, (s.writeByte ((s.ring r).slot (s.ring r).wr).toNat v).setRing r (s.ring r).afterWrite)) := by
  unfold State.ringWrite
  cases h : (s.ring r).isFull <;> simp [h]

/-- The read path (R104): rejected without any change, or the byte at the read index and the record advanced. -/
theorem State.ringRead_cases :
    ((s.ring r).isEmpty = true ∧ s.ringRead r = (false, 0, s)) ∨
    ((s.ring r).isEmpty = false ∧
      s.ringRead r =
        (true, s.readByte ((s.ring r).slot (s.ring r).rd).toNat, s.setRing r (s.ring r).afterRead)) := by
  unfold State.ringRead
  cases h : (s.ring r).isEmpty <;> simp [h]

end Ring

/-- The callback of a direction (42_uart_seq.md R159, R162): nothing for token 0, else one event and one note. -/
theorem State.announce_cases (s : State) (p : Nat) (d : Dir) (token : Token) :
    (token = 0 ∧ s.announce p d token = s) ∨
    (token ≠ 0 ∧ s.announce p d token =
      { s with events := s.events ++ [.callback p d token], callbacks := s.callbacks ++ [token] }) := by
  unfold State.announce
  split
  · exact .inl ⟨‹_›, rfl⟩
  · exact .inr ⟨‹_›, rfl⟩

/-- Taking a trap writes the core mask, the event stream and the core agent's program, nothing else (60_exceptions.md
R255, R256). -/
theorem State.takeTrap_eq (s : State) (c : TrapClass) :
    s.takeTrap c = { s with
      coreI := true
      coreF := if c = .fiq then true else s.coreF
      events := s.events ++ [.trap c s.coreMask (s.trapToken c)]
      code := .handler c s.coreMask (s.trapToken c) :: .resume s.rsp s.callbacks :: s.code } := by
  cases c <;> rfl

section Encoder
variable {prio : Nat → Nat} {ok : Nat → Bool}

/-- The priority encoder finds nothing exactly when nothing satisfies the test. -/
theorem pickMax_eq_none {n : Nat} : pickMax prio ok n = none ↔ ∀ i < n, ok i = false := by
  induction n with
  | zero => simp [pickMax]
  | succ n ih =>
      simp only [pickMax]
      cases h : pickMax prio ok n with
      | none =>
          rw [h] at ih
          have ih := ih.1 rfl
          constructor
          · intro hn i hi
            by_cases hin : i = n
            · subst hin
              simpa using hn
            · exact ih i (by omega)
          · intro hall
            simp [hall n (by omega)]
      | some m =>
          rw [h] at ih
          constructor
          · intro hc
            simp only at hc
            split at hc <;> cases hc
          · intro hall
            exact absurd (ih.2 fun i hi => hall i (by omega)) (by simp)

/-- What the priority encoder finds is below the bound, satisfies the test, and nothing that does outranks it. -/
theorem pickMax_spec {n v : Nat} (h : pickMax prio ok n = some v) :
    v < n ∧ ok v = true ∧ ∀ i < n, ok i = true → prio i ≤ prio v := by
  induction n generalizing v with
  | zero => simp [pickMax] at h
  | succ n ih =>
      simp only [pickMax] at h
      cases hm : pickMax prio ok n with
      | none =>
          rw [hm] at h
          have hnone := pickMax_eq_none.1 hm
          cases hok : ok n
          · simp [hok] at h
          · simp only [hok, if_true, Option.some.injEq] at h
            subst h
            refine ⟨by omega, hok, fun i hi hoi => ?_⟩
            by_cases hin : i = n
            · simp [hin]
            · simp [hnone i (by omega)] at hoi
      | some m =>
          rw [hm] at h
          obtain ⟨hmn, hmo, hmax⟩ := ih hm
          simp only at h
          split at h
          · rename_i hc
            simp only [Bool.and_eq_true, decide_eq_true_eq] at hc
            cases h
            refine ⟨by omega, hc.1, fun i hi hoi => ?_⟩
            by_cases hin : i = n
            · simp [hin]
            · have := hmax i (by omega) hoi
              omega
          · rename_i hc
            cases h
            refine ⟨by omega, hmo, fun i hi hoi => ?_⟩
            by_cases hin : i = n
            · subst hin
              simp only [hoi, Bool.true_and, decide_eq_true_eq] at hc
              omega
            · exact hmax i (by omega) hoi

/-- The encoder finds the id that satisfies the test and is outranked by none, where priorities differ. -/
theorem pickMax_of_max {n v : Nat} (hv : v < n) (hok : ok v = true)
    (hmax : ∀ i < n, ok i = true → prio i ≤ prio v)
    (hinj : ∀ i < n, ∀ j < n, prio i = prio j → i = j) : pickMax prio ok n = some v := by
  cases h : pickMax prio ok n with
  | none => simp [pickMax_eq_none.1 h v hv] at hok
  | some w =>
      obtain ⟨hw, hwo, hwm⟩ := pickMax_spec h
      rw [hinj w hw v hv (Nat.le_antisymm (hmax w hw hwo) (hwm v hv hok))]

end Encoder

theorem State.activePort_eq_some {s : State} {p : Nat} (h : s.activePort = some p) :
    p < s.nPorts ∧ (s.port p).phase ≠ .idle := by
  unfold State.activePort at h
  obtain ⟨hp, hq, -⟩ := List.findIdx?_eq_some_iff_getElem.1 h
  refine ⟨hp, ?_⟩
  simpa [State.port, List.getD_eq_getElem?_getD, List.getElem?_eq_getElem hp] using hq

theorem State.activePort_eq_none {s : State} :
    s.activePort = none ↔ ∀ p < s.nPorts, (s.port p).phase = .idle := by
  unfold State.activePort
  rw [List.findIdx?_eq_none_iff]
  constructor
  · intro h p hp
    have := h _ (State.port_mem s p hp)
    simpa using this
  · intro h q hq
    obtain ⟨i, hi, rfl⟩ := List.getElem_of_mem hq
    have := h i hi
    simpa [State.port, List.getD_eq_getElem?_getD, List.getElem?_eq_getElem hi] using this

/-- The step is the chosen move, from the agenda or by default. -/
theorem step_of_agenda {s : State} {m : Move} {rest : List Move} (h : s.agenda = m :: rest) :
    step s = performMove m { s with agenda := rest } := by
  simp [step, nextStep, h]

theorem step_of_no_agenda {s : State} (h : s.agenda = []) : step s = performMove s.defaultMove s := by
  simp [step, nextStep, h]

/-- The core agent's turn at a command boundary is its next task. -/
theorem coreMove_of_boundary {s : State} {t : Task} {rest : List Task} (hb : s.atBoundary = true)
    (hc : s.code = t :: rest) : coreMove s = runTask t { s with code := rest } := by
  simp only [State.atBoundary, Bool.and_eq_true, Option.isNone_iff_eq_none] at hb
  simp [coreMove, hb.1, hb.2, hc]

end Sys2Proof.Machine
end

