-- ==== Sys2Proof/Laws/PerInstr.lean ====
section
/-!
SUPPORT. The family of statements made per command: the encoder's word is accepted by the row of the opcode table
that carries the command's mnemonic (30_encoding.md R85, R86).
-/

namespace Sys2Proof.Laws.EncodeMatchesRow

/-- The row of the command's mnemonic accepts its encoding. -/
def Statement (i : Instr) : Prop :=
  ∃ row ∈ opcodeTable, row.mnemonic = i.mnemonic ∧ row.accepts (encode i) = true

/-- The row of the table that an opcode, a format and a mnemonic make accepts the packed word whose must-be-zero
fields are zero. -/
theorem statement_of_row {i : Instr} {op sel : BitVec 8} {a b : Word} {f : Format}
    (n : Nat) (hrow : opcodeTable[n]? = some (Row.ofFormat i.mnemonic op f)) (he : encode i = packCommand op sel a b)
    (hz : f.zerosHold sel a b = true) : Statement i :=
  ⟨_, List.mem_of_getElem? hrow, rfl, by rw [he, accepts_ofFormat, hz]; simp⟩

theorem zeros_sac {sel : BitVec 8} {a : Word} (v : Half) : Format.sac.zerosHold sel a (v.setWidth 32) = true := by
  simpa [Format.zerosHold] using high_setWidth 16 v

theorem zeros_sb8 {sel : BitVec 8} (v : Byte) : Format.sb8.zerosHold sel 0 (v.setWidth 32) = true := by
  simpa [Format.zerosHold] using high_setWidth 8 v

theorem zeros_sb1 {sel : BitVec 8} (v : BitVec 1) : Format.sb1.zerosHold sel 0 (v.setWidth 32) = true := by
  simpa [Format.zerosHold] using high_setWidth 1 v

theorem zeros_b2 (v : BitVec 2) : Format.b2.zerosHold 0 0 (v.setWidth 32) = true := by
  simpa [Format.zerosHold] using high_setWidth 2 v

theorem cbInit (ring : BitVec 8) (base : Word) (cap : Half) : Statement (.cbInit ring base cap) :=
  statement_of_row (f := .sac) 0 rfl rfl (zeros_sac cap)

theorem cbWrite (ring : BitVec 8) (v : Byte) : Statement (.cbWrite ring v) :=
  statement_of_row (f := .sb8) 1 rfl rfl (zeros_sb8 v)

theorem cbRead (ring : BitVec 8) : Statement (.cbRead ring) :=
  statement_of_row (f := .s) 2 rfl rfl rfl

theorem cbIsFull (ring : BitVec 8) : Statement (.cbIsFull ring) :=
  statement_of_row (f := .s) 3 rfl rfl rfl

theorem cbIsEmpty (ring : BitVec 8) : Statement (.cbIsEmpty ring) :=
  statement_of_row (f := .s) 4 rfl rfl rfl

theorem brgLoad (port : BitVec 8) (baud : Word) : Statement (.brgLoad port baud) :=
  statement_of_row (f := .sa) 5 rfl rfl rfl

theorem brgRead (port : BitVec 8) : Statement (.brgRead port) :=
  statement_of_row (f := .s) 6 rfl rfl rfl

theorem uartInit (port : BitVec 8) (baud : Word) (name : Word) : Statement (.uartInit port baud name) :=
  statement_of_row (f := .sab) 7 rfl rfl rfl

theorem uartSetRxCb (port : BitVec 8) (token : Token) : Statement (.uartSetRxCb port token) :=
  statement_of_row (f := .sa) 8 rfl rfl rfl

theorem uartSetTxCb (port : BitVec 8) (token : Token) : Statement (.uartSetTxCb port token) :=
  statement_of_row (f := .sa) 9 rfl rfl rfl

theorem uartRxiSet (port : BitVec 8) (v : BitVec 1) : Statement (.uartRxiSet port v) :=
  statement_of_row (f := .sb1) 10 rfl rfl (zeros_sb1 v)

theorem uartTxiSet (port : BitVec 8) (v : BitVec 1) : Statement (.uartTxiSet port v) :=
  statement_of_row (f := .sb1) 11 rfl rfl (zeros_sb1 v)

theorem uartTxfPut (port : BitVec 8) (v : Byte) : Statement (.uartTxfPut port v) :=
  statement_of_row (f := .sb8) 12 rfl rfl (zeros_sb8 v)

theorem uartRxfGet (port : BitVec 8) : Statement (.uartRxfGet port) :=
  statement_of_row (f := .s) 13 rfl rfl rfl

theorem uartStatus (port : BitVec 8) : Statement (.uartStatus port) :=
  statement_of_row (f := .s) 14 rfl rfl rfl

theorem uartIsr (port : BitVec 8) : Statement (.uartIsr port) :=
  statement_of_row (f := .s) 15 rfl rfl rfl

theorem itcInit : Statement (.itcInit) :=
  statement_of_row (f := .z) 16 rfl rfl rfl

theorem itcSetHandler (src : BitVec 8) (token : Token) : Statement (.itcSetHandler src token) :=
  statement_of_row (f := .sa) 17 rfl rfl rfl

theorem itcSetPriority (src : BitVec 8) (cls : BitVec 1) : Statement (.itcSetPriority src cls) :=
  statement_of_row (f := .sb1) 18 rfl rfl (zeros_sb1 cls)

theorem itcEnable (src : BitVec 8) : Statement (.itcEnable src) :=
  statement_of_row (f := .s) 19 rfl rfl rfl

theorem itcDisable (src : BitVec 8) : Statement (.itcDisable src) :=
  statement_of_row (f := .s) 20 rfl rfl rfl

theorem itcForce (src : BitVec 8) : Statement (.itcForce src) :=
  statement_of_row (f := .s) 21 rfl rfl rfl

theorem itcUnforce (src : BitVec 8) : Statement (.itcUnforce src) :=
  statement_of_row (f := .s) 22 rfl rfl rfl

theorem itcDisableInts : Statement (.itcDisableInts) :=
  statement_of_row (f := .z) 23 rfl rfl rfl

theorem itcRestoreInts (saved : Word) : Statement (.itcRestoreInts saved) :=
  statement_of_row (f := .a) 24 rfl rfl rfl

theorem itcReadNivec : Statement (.itcReadNivec) :=
  statement_of_row (f := .z) 25 rfl rfl rfl

theorem itcReadFivec : Statement (.itcReadFivec) :=
  statement_of_row (f := .z) 26 rfl rfl rfl

theorem itcSvcNEnter : Statement (.itcSvcNEnter) :=
  statement_of_row (f := .z) 27 rfl rfl rfl

theorem itcSvcNReturn : Statement (.itcSvcNReturn) :=
  statement_of_row (f := .z) 28 rfl rfl rfl

theorem itcSvcF : Statement (.itcSvcF) :=
  statement_of_row (f := .z) 29 rfl rfl rfl

theorem excDisableIrq : Statement (.excDisableIrq) :=
  statement_of_row (f := .z) 30 rfl rfl rfl

theorem excDisableFiq : Statement (.excDisableFiq) :=
  statement_of_row (f := .z) 31 rfl rfl rfl

theorem excDisableInts : Statement (.excDisableInts) :=
  statement_of_row (f := .z) 32 rfl rfl rfl

theorem excRestoreIrq (saved : BitVec 2) : Statement (.excRestoreIrq saved) :=
  statement_of_row (f := .b2) 33 rfl rfl (zeros_b2 saved)

theorem excRestoreFiq (saved : BitVec 2) : Statement (.excRestoreFiq saved) :=
  statement_of_row (f := .b2) 34 rfl rfl (zeros_b2 saved)

theorem excRestoreInts (saved : BitVec 2) : Statement (.excRestoreInts saved) :=
  statement_of_row (f := .b2) 35 rfl rfl (zeros_b2 saved)

theorem excSetHandler (trap : BitVec 8) (token : Token) : Statement (.excSetHandler trap token) :=
  statement_of_row (f := .sa) 36 rfl rfl rfl

theorem excGetHandler (trap : BitVec 8) : Statement (.excGetHandler trap) :=
  statement_of_row (f := .s) 37 rfl rfl rfl

end Sys2Proof.Laws.EncodeMatchesRow
end

