-- ==== Sys2Proof/Laws/Ring.lean ====
section
/-!
SUPPORT. The laws of one ring record (10_state.md R22 to R24, 40_ring.md R102, R104, R111) in unbounded arithmetic, and
of the bytes it holds (R110).
-/

namespace Sys2Proof.Machine

/-- The wrap of an index, as a number (R24). -/
theorem Ring.wrapInc_toNat (x : Ring) (i : Half) (h : i.toNat < x.cap.toNat) :
    (x.wrapInc i).toNat = if i.toNat + 1 = x.cap.toNat then 0 else i.toNat + 1 := by
  have hc : x.cap.toNat < 65536 := x.cap.isLt
  unfold Ring.wrapInc
  split
  · rfl
  · simp [BitVec.toNat_add]
    omega

/-- The address of a slot never wraps (20_memory.md R63). -/
theorem Ring.slot_toNat (x : Ring) (i : Half) (hi : i.toNat < x.cap.toNat)
    (hb : x.base.toNat + x.cap.toNat ≤ 2 ^ 32) : (x.slot i).toNat = x.base.toNat + i.toNat := by
  simp [Ring.slot, BitVec.toNat_add]
  omega

/-- A ring that is not full, or not empty, is bound where the invariant holds. -/
theorem Ring.bound_of_isFull {x : Ring} (h : x.isFull = false) : x.bound = true ∧ x.full = false := by
  simpa [Ring.isFull, and_comm] using h

theorem Ring.bound_of_isEmpty {x : Ring} (hI : x.Inv) (h : x.isEmpty = false) : x.bound = true := by
  cases hb : x.bound
  · obtain ⟨-, h1, h2, h3⟩ := hI.2 hb
    simp [Ring.isEmpty, h1, h2, h3] at h
  · rfl

/-- An accepted write raises `pending` by one (R102). -/
theorem Ring.pending_afterWrite (x : Ring) (hI : x.Inv) (h : x.isFull = false) :
    x.afterWrite.pending = x.pending + 1 := by
  obtain ⟨hb, hf⟩ := Ring.bound_of_isFull h
  obtain ⟨h1, h2, h3, h4, h5⟩ := hI.1 hb
  simp only [Ring.afterWrite, Ring.pending, beq_iff_eq, ← BitVec.toNat_inj, Ring.wrapInc_toNat x _ h3, hf,
    Bool.false_eq_true, if_false]
  split_ifs <;> omega

/-- An accepted read lowers `pending` by one (R104). -/
theorem Ring.pending_afterRead (x : Ring) (hI : x.Inv) (h : x.isEmpty = false) :
    x.afterRead.pending + 1 = x.pending := by
  obtain ⟨h1, h2, h3, h4, h5⟩ := hI.1 (Ring.bound_of_isEmpty hI h)
  simp only [Ring.isEmpty, Bool.and_eq_false_iff, beq_eq_false_iff_ne, ne_eq, ← BitVec.toNat_inj,
    Bool.not_eq_false'] at h
  simp only [← BitVec.toNat_inj] at h4
  simp only [Ring.afterRead, Ring.pending, Ring.wrapInc_toNat x _ h2, Bool.false_eq_true, if_false]
  cases hf : x.full
  · simp only [hf, Bool.false_eq_true, or_false, if_false] at *
    split_ifs <;> omega
  · have := h4 hf
    simp only [if_true]
    split_ifs <;> omega

/-- The invariant after a write and after a read (R22). -/
theorem Ring.inv_afterWrite (x : Ring) (hI : x.Inv) (h : x.isFull = false) : x.afterWrite.Inv := by
  obtain ⟨hb, hf⟩ := Ring.bound_of_isFull h
  obtain ⟨h1, h2, h3, h4, h5⟩ := hI.1 hb
  refine ⟨fun _ => ⟨h1, h2, ?_, fun hx => (by simpa [Ring.afterWrite] using hx : x.wrapInc x.wr = x.rd).symm, h5⟩,
    fun hn => ?_⟩
  · show (x.wrapInc x.wr).toNat < x.cap.toNat
    rw [Ring.wrapInc_toNat x _ h3]
    split <;> omega
  · exact absurd (hb.symm.trans hn) (by decide)

theorem Ring.inv_afterRead (x : Ring) (hI : x.Inv) (h : x.isEmpty = false) : x.afterRead.Inv := by
  have hb := Ring.bound_of_isEmpty hI h
  obtain ⟨h1, h2, h3, h4, h5⟩ := hI.1 hb
  refine ⟨fun _ => ⟨h1, ?_, h3, fun hx => absurd hx (by simp [Ring.afterRead]), h5⟩, fun hn => ?_⟩
  · show (x.wrapInc x.rd).toNat < x.cap.toNat
    rw [Ring.wrapInc_toNat x _ h2]
    split <;> omega
  · exact absurd (hb.symm.trans hn) (by decide)

/-- `pending` in closed form: where the write index stands, seen from the read index (R24). -/
theorem Ring.wr_eq_rd_add_pending (x : Ring) (hI : x.Inv) (hb : x.bound = true) :
    x.wr.toNat = (x.rd.toNat + x.pending) % x.cap.toNat := by
  obtain ⟨h1, h2, h3, h4, h5⟩ := hI.1 hb
  simp only [← BitVec.toNat_inj] at h4
  simp only [Ring.pending]
  split_ifs with hf hle
  · rw [Nat.add_mod_right, Nat.mod_eq_of_lt h2, h4 hf]
  · rw [show x.rd.toNat + (x.wr.toNat - x.rd.toNat) = x.wr.toNat by omega, Nat.mod_eq_of_lt h3]
  · rw [show x.rd.toNat + (x.wr.toNat + x.cap.toNat - x.rd.toNat) = x.wr.toNat + x.cap.toNat by omega,
      Nat.add_mod_right, Nat.mod_eq_of_lt h3]

theorem Ring.pending_le_cap (x : Ring) (hI : x.Inv) : x.pending ≤ x.cap.toNat := by
  cases hb : x.bound
  · obtain ⟨h0, h1, h2, h3⟩ := hI.2 hb
    simp [Ring.pending, h1, h2, h3]
  · obtain ⟨h1, h2, h3, h4, h5⟩ := hI.1 hb
    simp only [Ring.pending]
    split_ifs <;> omega

theorem Ring.pending_lt_cap (x : Ring) (hI : x.Inv) (h : x.isFull = false) : x.pending < x.cap.toNat := by
  obtain ⟨hb, hf⟩ := Ring.bound_of_isFull h
  obtain ⟨h1, h2, h3, h4, h5⟩ := hI.1 hb
  simp only [Ring.pending, hf, Bool.false_eq_true, if_false]
  split_ifs <;> omega

theorem Ring.isEmpty_iff_pending (x : Ring) (hI : x.Inv) : x.isEmpty = true ↔ x.pending = 0 := by
  cases he : x.isEmpty
  · have := x.pending_afterRead hI he
    simp
    omega
  · simp only [Ring.isEmpty, Bool.and_eq_true, beq_iff_eq, Bool.not_eq_true'] at he
    simp [Ring.pending, he.1, he.2]

/-- The `k`-th byte a ring holds, counted from the oldest, lies at this address (R110). -/
def Ring.address (x : Ring) (k : Nat) : Nat := x.base.toNat + (x.rd.toNat + k) % x.cap.toNat

theorem State.contents_eq (s : State) (r : Nat) (hI : (s.ring r).Inv) :
    s.contents r = (List.range (s.ring r).pending).map fun k => s.readByte ((s.ring r).address k) := by
  unfold State.contents
  apply List.map_congr_left
  intro k hk
  have hb : (s.ring r).bound = true := by
    cases hb : (s.ring r).bound
    · obtain ⟨h0, h1, h2, h3⟩ := hI.2 hb
      simp [Ring.pending, h1, h2, h3] at hk
    · rfl
  obtain ⟨h1, h2, h3, h4, h5⟩ := hI.1 hb
  have hc : (s.ring r).cap.toNat < 65536 := (s.ring r).cap.isLt
  have hm : ((s.ring r).rd.toNat + k) % (s.ring r).cap.toNat < (s.ring r).cap.toNat := Nat.mod_lt _ (by omega)
  have hn : (BitVec.ofNat 16 (((s.ring r).rd.toNat + k) % (s.ring r).cap.toNat)).toNat =
      ((s.ring r).rd.toNat + k) % (s.ring r).cap.toNat := by
    simp
    omega
  rw [Ring.slot_toNat _ _ (by rw [hn]; exact hm) h5, hn]
  rfl

end Sys2Proof.Machine
end

