-- ==== Sys2Proof/Laws/Run.lean ====
section
/-!
SUPPORT. Runs of the machine, one step at a time, and the core agent's turn at a command boundary.
-/

namespace Sys2Proof.Machine

/-- The port whose service is in progress is the active one (42_uart_seq.md R156). -/
theorem State.activePort_of_running {s : State} {p : Nat} {x : Phase} (h : s.Running p x) : s.activePort = some p := by
  obtain ⟨h1, h2, h3, h4⟩ := h
  unfold State.activePort
  rw [List.findIdx?_eq_some_iff_getElem]
  have hp : p < s.ports.length := h1
  refine ⟨hp, ?_, fun j hj => ?_⟩
  · simp only [State.port, List.getD_eq_getElem?_getD, List.getElem?_eq_getElem hp, Option.getD_some] at h2
    have h : s.ports[p].phase ≠ .idle := fun h => h3 (h2.symm.trans h)
    simpa using h
  · have hl : j < s.ports.length := by omega
    have h := h4 j hl (by omega)
    simp only [State.port, List.getD_eq_getElem?_getD, List.getElem?_eq_getElem hl, Option.getD_some] at h
    simp [h]

/-- The sequencer's move is its micro-step. -/
theorem performMove_seq {s : State} {p : Nat} {x : Phase} (h : s.Running p x) :
    performMove .seq s = .next (s.seqStep p) := by
  simp [performMove, State.seqMove, State.activePort_of_running h]

/-- A run goes on from the state its first step gives. -/
theorem run_succ {s t : State} (k : Nat) (h : step s = .next t) : Sys2Proof.core.run (k + 1) s = Sys2Proof.core.run k t := by
  have h : Sys2Proof.core.step s = .next t := h
  simp [Host.Core.run, h]

theorem run_zero (s : State) : Sys2Proof.core.run 0 s = .next s := rfl

theorem State.atBoundary_iff {s : State} : s.atBoundary = true ↔ s.busy = none ∧ s.activePort = none := by
  simp [State.atBoundary]

/-- The core agent's turn at a boundary, by the agenda: the first task of its program. -/
theorem step_core {s : State} {t : Task} {rest : List Task} {ag : List Move} (ha : s.agenda = .core :: ag)
    (hb : s.atBoundary = true) (hc : s.code = t :: rest) : step s = runTask t { s with agenda := ag, code := rest } := by
  rw [step_of_agenda ha]
  exact coreMove_of_boundary (s := { s with agenda := ag }) hb hc

/-- A run that begins with the core agent's turn. -/
theorem run_core {s u : State} {t : Task} {rest : List Task} {ag : List Move} (k : Nat) (ha : s.agenda = .core :: ag)
    (hb : s.atBoundary = true) (hc : s.code = t :: rest) (ht : runTask t { s with agenda := ag, code := rest } = .next u) :
    Sys2Proof.core.run (k + 1) s = Sys2Proof.core.run k u :=
  run_succ k ((step_core ha hb hc).trans ht)

/-- The trap logic's turn, by the agenda. -/
theorem step_trap {s : State} {ag : List Move} (ha : s.agenda = .trap :: ag) :
    step s = .next { s with agenda := ag }.trapMove := by
  rw [step_of_agenda ha]
  rfl

/-- The running sequencer's turn, by the agenda. -/
theorem step_seq {s : State} {p : Nat} {ag : List Move} (ha : s.agenda = .seq :: ag) (hp : s.activePort = some p) :
    step s = .next ({ s with agenda := ag }.seqStep p) := by
  rw [step_of_agenda ha]
  have hp : State.activePort { s with agenda := ag } = some p := hp
  simp [performMove, State.seqMove, hp]

end Sys2Proof.Machine
end

