-- ==== Sys2Proof/Tests/Slice0.lean ====
section
/-!
SUPPORT. Tests: the ill-formed terms, the words of every command written out from 30_encoding.md R80 and R85, one or
two steps for each command with results from 95_test_vectors.md, and for every statement with hypotheses a state that
meets them.
-/

namespace Sys2Proof.Tests

open Sys2Proof.Machine

/-! ### States and observations -/

/-- The state after an outcome, and the first state where there is none. -/
def after (s : State) : Outcome → State
  | .next t => t
  | _ => s

/-- The response in an outcome, as status code, `aux` and `data`. -/
def rspOf : Outcome → Option (BitVec 4 × BitVec 8 × Word)
  | .next t => t.rsp.map fun r => (r.status.code, r.aux, r.data)
  | _ => none

/-- Whether an outcome is the next state given. -/
def goesTo (o : Outcome) (t : State) : Bool :=
  match o with
  | .next u => decide (u = t)
  | _ => false

/-- Whether an outcome is a fault. -/
def faults : Outcome → Bool
  | .fault _ => true
  | _ => false

/-- The run of `k` steps. -/
def runs (k : Nat) (s : State) : Outcome := Sys2Proof.core.run k s

/-- From reset, `UART_BUF_CAP = 4` (95_test_vectors.md). -/
def base : State := State.resetWith { Params.reference with bufCap := 4 }

/-- Ring 0 with capacity 3 at 0x00400000, its bytes 0x41 0x42 0x43. -/
def ring0 (rd wr : Half) (full : Bool) : State :=
  { base with
    rings := base.rings.set 0 ⟨true, 0x00400000, 3, rd, wr, full⟩
    mem := [(0x00400000, 0x41), (0x00400001, 0x42), (0x00400002, 0x43)] }

/-- Port 0 configured as in V-UART-1. -/
def port0 : State := base.initPort 0 115200

/-- Port 0 configured, then changed. -/
def port0With (f : Port → Port) : State := port0.setPort 0 (f (port0.port 0))

/-- A service of port 0 in a phase, as it comes up in a run. -/
def service (x : Phase) (f : Port → Port) : State :=
  { port0With (fun q => { f q with phase := x }) with busy := some (.uartIsr 0) }

/-- Sources 2 and 6 enabled and forced, source 6 with a handler (V-ITC-5). -/
def pending26 : State :=
  (base.setSource 2 ⟨true, false, true, 0, false⟩).setSource 6 ⟨true, false, true, 0x8000, false⟩

/-- Source 4 fast, enabled and forced (44_itc.md R208). -/
def pendingFast4 : State := base.setSource 4 ⟨true, true, true, 0x9000, false⟩

/-- A state about to issue a word. -/
def issuing (s : State) (w : Command) : State := { s with code := [.cmd w], agenda := [.core] }

/-! ### Ill-formed terms -/

/-- The counts of the reference parameters. -/
def limits : Limits := ⟨4, 2, 11⟩

theorem test_refuses_cb_init_ring : Instr.operandError limits (.cbInit 4 0x00400000 4) = some .invalidParameter := by decide
theorem test_refuses_cb_init_cap : Instr.operandError limits (.cbInit 0 0x00400000 0) = some .invalidParameter := by decide
theorem test_refuses_cb_init_region : Instr.operandError limits (.cbInit 0 0xFFFFFFFE 3) = some .invalidParameter := by decide
theorem test_refuses_ring_id : Instr.operandError limits (.cbRead 4) = some .invalidParameter := by decide
theorem test_refuses_brg_port : Instr.operandError limits (.brgLoad 2 9600) = some .noSuchDevice := by decide
theorem test_refuses_uart_init_port : Instr.operandError limits (.uartInit 2 9600 0) = some .noSuchDevice := by decide
theorem test_refuses_uart_init_name : Instr.operandError limits (.uartInit 1 9600 0) = some .invalidArgument := by decide
theorem test_refuses_uart_port : Instr.operandError limits (.uartIsr 5) = some .noSuchDevice := by decide
theorem test_refuses_source_id : Instr.operandError limits (.itcEnable 11) = some .invalidParameter := by decide
theorem test_refuses_trap_id : Instr.operandError limits (.excSetHandler 8 1) = some .invalidParameter := by decide

theorem test_accepts_boundary_operands :
    (Instr.cbInit 3 0xFFFFFFFD 3).wellFormed limits = true ∧ (Instr.itcEnable 10).wellFormed limits = true ∧
    (Instr.excGetHandler 7).wellFormed limits = true ∧ (Instr.uartInit 1 0 1).wellFormed limits = true := by decide

/-! ### Words (30_encoding.md R80, R85; the words are those of 95_test_vectors.md where it has one) -/

theorem test_decode_cb_init : decode 0x10000040000000000004 = .ok (.cbInit 0 0x00400000 4) := by decide
theorem test_decode_cb_write : decode 0x110200000000000000FF = .ok (.cbWrite 2 0xFF) := by decide
theorem test_decode_cb_read : decode 0x12000000000000000000 = .ok (.cbRead 0) := by decide
theorem test_decode_cb_is_full : decode 0x13010000000000000000 = .ok (.cbIsFull 1) := by decide
theorem test_decode_cb_is_empty : decode 0x14020000000000000000 = .ok (.cbIsEmpty 2) := by decide
theorem test_decode_brg_load : decode 0x20000001C20000000000 = .ok (.brgLoad 0 115200) := by decide
theorem test_decode_brg_read : decode 0x21010000000000000000 = .ok (.brgRead 1) := by decide
theorem test_decode_uart_init : decode 0x30010000258000001000 = .ok (.uartInit 1 9600 0x1000) := by decide
theorem test_decode_uart_set_rx_cb : decode 0x31000000200100000000 = .ok (.uartSetRxCb 0 0x2001) := by decide
theorem test_decode_uart_set_tx_cb : decode 0x32000000200200000000 = .ok (.uartSetTxCb 0 0x2002) := by decide
theorem test_decode_uart_rxi_set : decode 0x33010000000000000001 = .ok (.uartRxiSet 1 1) := by decide
theorem test_decode_uart_txi_set : decode 0x34000000000000000001 = .ok (.uartTxiSet 0 1) := by decide
theorem test_decode_uart_txf_put : decode 0x35000000000000000042 = .ok (.uartTxfPut 0 0x42) := by decide
theorem test_decode_uart_rxf_get : decode 0x36000000000000000000 = .ok (.uartRxfGet 0) := by decide
theorem test_decode_uart_status : decode 0x37010000000000000000 = .ok (.uartStatus 1) := by decide
theorem test_decode_uart_isr : decode 0x38050000000000000000 = .ok (.uartIsr 5) := by decide
theorem test_decode_itc_init : decode 0x40000000000000000000 = .ok (.itcInit) := by decide
theorem test_decode_itc_set_handler : decode 0x41050000800500000000 = .ok (.itcSetHandler 5 0x8005) := by decide
theorem test_decode_itc_set_priority : decode 0x42050000000000000001 = .ok (.itcSetPriority 5 1) := by decide
theorem test_decode_itc_enable : decode 0x430A0000000000000000 = .ok (.itcEnable 10) := by decide
theorem test_decode_itc_disable : decode 0x44060000000000000000 = .ok (.itcDisable 6) := by decide
theorem test_decode_itc_force : decode 0x45030000000000000000 = .ok (.itcForce 3) := by decide
theorem test_decode_itc_unforce : decode 0x46080000000000000000 = .ok (.itcUnforce 8) := by decide
theorem test_decode_itc_disable_ints : decode 0x47000000000000000000 = .ok (.itcDisableInts) := by decide
theorem test_decode_itc_restore_ints : decode 0x48000000001200000000 = .ok (.itcRestoreInts 0x12) := by decide
theorem test_decode_itc_read_nivec : decode 0x49000000000000000000 = .ok (.itcReadNivec) := by decide
theorem test_decode_itc_read_fivec : decode 0x4A000000000000000000 = .ok (.itcReadFivec) := by decide
theorem test_decode_itc_svc_n_enter : decode 0x4B000000000000000000 = .ok (.itcSvcNEnter) := by decide
theorem test_decode_itc_svc_n_return : decode 0x4C000000000000000000 = .ok (.itcSvcNReturn) := by decide
theorem test_decode_itc_svc_f : decode 0x4D000000000000000000 = .ok (.itcSvcF) := by decide
theorem test_decode_exc_disable_irq : decode 0x50000000000000000000 = .ok (.excDisableIrq) := by decide
theorem test_decode_exc_disable_fiq : decode 0x51000000000000000000 = .ok (.excDisableFiq) := by decide
theorem test_decode_exc_disable_ints : decode 0x52000000000000000000 = .ok (.excDisableInts) := by decide
theorem test_decode_exc_restore_irq : decode 0x53000000000000000001 = .ok (.excRestoreIrq 1) := by decide
theorem test_decode_exc_restore_fiq : decode 0x54000000000000000002 = .ok (.excRestoreFiq 2) := by decide
theorem test_decode_exc_restore_ints : decode 0x55000000000000000003 = .ok (.excRestoreInts 3) := by decide
theorem test_decode_exc_set_handler : decode 0x56060000A00600000000 = .ok (.excSetHandler 6 0xA006) := by decide
theorem test_decode_exc_get_handler : decode 0x57070000000000000000 = .ok (.excGetHandler 7) := by decide

/-- V-ENC-1 to V-ENC-11: reserved opcodes and must-be-zero bits, one word for each format. -/
theorem test_decode_illegal :
    decode 0x00000000000000000000 = .error (.reservedOp 0x00) ∧ decode 0xFF000000000000000000 = .error (.reservedOp 0xFF) ∧
    decode 0x12000000000100000000 = .error (.mustBeZero 0x12) ∧ decode 0x10000040000000010004 = .error (.mustBeZero 0x10) ∧
    decode 0x11000000000000000141 = .error (.mustBeZero 0x11) ∧ decode 0x40010000000000000000 = .error (.mustBeZero 0x40) ∧
    decode 0x55000000000000000004 = .error (.mustBeZero 0x55) ∧ decode 0x33000000000000000002 = .error (.mustBeZero 0x33) ∧
    decode 0x48010000001200000000 = .error (.mustBeZero 0x48) ∧ decode 0x20000000000000000001 = .error (.mustBeZero 0x20) := by
  decide

/-- The widest operands come back from their words. -/
theorem test_encode_widest :
    encode (.cbInit 0xFF 0xFFFFFFFF 0xFFFF) = 0x10FFFFFFFFFF0000FFFF ∧
    encode (.uartInit 0xFF 0xFFFFFFFF 0xFFFFFFFF) = 0x30FFFFFFFFFFFFFFFFFF ∧
    encode (.excRestoreInts 3) = 0x55000000000000000003 := by decide

/-- 30_encoding.md R81: 11 digits, 1 status, 2 aux, 8 data; the fields are those of 41_brg.md (V-BRG-1), V-ITC-5, and
60_exceptions.md R240. -/
theorem test_response_word :
    Response.word ⟨.ok, 0, 0x02FF270F⟩ = 0x00002FF270F ∧ Response.word ⟨.ok, 6, 6⟩ = 0x00600000006 ∧
    Response.word ⟨.invalidArgument, 0xFF, 0xFFFFFFFF⟩ = 0x3FFFFFFFFFF ∧
    Response.word ⟨.illegalCommand, 0xFF, 0xFFFFFFFF⟩ = 0xFFFFFFFFFFF ∧
    Response.ofWord? 0x2FFFFFFFFFF = some ⟨.noSuchDevice, 0xFF, 0xFFFFFFFF⟩ ∧ Response.ofWord? 0x40000000000 = none := by
  decide

/-! ### One step for each command -/

/-- 40_ring.md R101, the example. -/
theorem test_cb_init :
    rspOf (exec (.cbInit 0 0x00400000 4) base) = some (0, 0, 0) ∧
    (after base (exec (.cbInit 0 0x00400000 4) base)).ring 0 = ⟨true, 0x00400000, 4, 0, 0, false⟩ := by decide

/-- V-RING-10, V-RING-11. -/
theorem test_cb_init_top :
    rspOf (exec (.cbInit 0 0xFFFFFFFD 3) base) = some (0, 0, 0) ∧
    rspOf (exec (.cbInit 0 0xFFFFFFFE 3) base) = some (1, 0xFF, 0xFFFFFFFF) := by decide

/-- V-RING-4: the index wraps and the ring is full. -/
theorem test_cb_write_wraps :
    rspOf (exec (.cbWrite 0 0x43) (ring0 0 2 false)) = some (0, 0, 1) ∧
    (after base (exec (.cbWrite 0 0x43) (ring0 0 2 false))).ring 0 = ⟨true, 0x00400000, 3, 0, 0, true⟩ ∧
    (after base (exec (.cbWrite 0 0x43) (ring0 0 2 false))).readByte 0x00400002 = 0x43 := by decide

/-- V-RING-7: rejected, the oldest byte is not overwritten. -/
theorem test_cb_write_full :
    goesTo (exec (.cbWrite 0 0x44) (ring0 0 0 true))
      { ring0 0 0 true with rsp := answer 0 0 } = true := by decide

/-- V-RING-5. -/
theorem test_cb_read_full :
    rspOf (exec (.cbRead 0) (ring0 0 0 true)) = some (0, 0, 0x141) ∧
    (after base (exec (.cbRead 0) (ring0 0 0 true))).ring 0 = ⟨true, 0x00400000, 3, 1, 0, false⟩ := by decide

/-- V-RING-6, V-RING-8. -/
theorem test_cb_read_wraps :
    rspOf (exec (.cbRead 0) (ring0 2 0 false)) = some (0, 0, 0x143) ∧
    (after base (exec (.cbRead 0) (ring0 2 0 false))).ring 0 = ⟨true, 0x00400000, 3, 0, 0, false⟩ ∧
    rspOf (exec (.cbRead 0) (ring0 1 1 false)) = some (0, 0, 0) := by decide

/-- R107, the example; V-RING-9. -/
theorem test_cb_is_full :
    rspOf (exec (.cbIsFull 0) (ring0 2 2 true)) = some (0, 0, 1) ∧
    rspOf (exec (.cbIsFull 0) (ring0 2 2 false)) = some (0, 0, 0) ∧
    rspOf (exec (.cbIsFull 0) base) = some (0, 0, 1) := by decide

/-- R108, the example; V-RING-9. -/
theorem test_cb_is_empty :
    rspOf (exec (.cbIsEmpty 0) (ring0 2 2 true)) = some (0, 0, 0) ∧
    rspOf (exec (.cbIsEmpty 0) (ring0 2 2 false)) = some (0, 0, 1) ∧
    rspOf (exec (.cbIsEmpty 0) base) = some (0, 0, 1) := by decide

/-- V-BRG-1: the product is not wrapped, the quotient is truncated. -/
theorem test_brg_load :
    rspOf (exec (.brgLoad 0 115200) base) = some (0, 0, 0x02FF270F) ∧
    rspOf (exec (.brgLoad 0 429540) base) = some (0, 0, 0x0B2F270F) ∧
    rspOf (exec (.brgLoad 0 9831384) base) = some (0, 0, 0x0000270F) ∧
    rspOf (exec (.brgLoad 0 4294967295) base) = some (0, 0, 0xDCEB270F) := by decide

/-- V-BRG-2. -/
theorem test_brg_read :
    rspOf (exec (.brgRead 1) base) = some (0, 0, 0) ∧
    rspOf (exec (.brgRead 2) base) = some (2, 0xFF, 0xFFFFFFFF) ∧
    rspOf (exec (.brgRead 0) (base.initPort 0 9600)) = some (0, 0, 0x003F270F) := by decide

/-- V-UART-1. -/
theorem test_uart_init :
    (port0.port 0).configured = true ∧ (port0.port 0).rxIe = true ∧ (port0.port 0).txIe = false ∧
    (port0.port 0).rxLevel = 1 ∧ (port0.port 0).txLevel = 31 ∧ (port0.port 0).brInc = 767 ∧
    port0.ring 1 = ⟨true, 0x00400100, 4, 0, 0, false⟩ ∧ port0.source 1 = ⟨true, false, false, 0xFFFFFF00, false⟩ := by decide

/-- V-ENC-15, V-ENC-16: the id wins over the name. -/
theorem test_uart_init_errors :
    rspOf (exec (.uartInit 2 9600 0) base) = some (2, 0xFF, 0xFFFFFFFF) ∧
    rspOf (exec (.uartInit 1 9600 0) base) = some (3, 0xFF, 0xFFFFFFFF) := by decide

/-- R145, the example. -/
theorem test_uart_set_rx_cb :
    rspOf (exec (.uartSetRxCb 0 0x2001) port0) = some (0, 0, 0) ∧
    ((after base (exec (.uartSetRxCb 0 0x2001) port0)).port 0).rxCb = 0x2001 := by decide

/-- V-UART-5. -/
theorem test_uart_set_tx_cb :
    rspOf (exec (.uartSetTxCb 0 0x2002) port0) = some (0, 0, 0) ∧
    ((after base (exec (.uartSetTxCb 0 0x2002) port0)).port 0).txCb = 0x2002 := by decide

/-- V-UART-4. -/
theorem test_uart_rxi_set :
    rspOf (exec (.uartRxiSet 0 0) port0) = some (0, 0, 1) ∧
    ((after base (exec (.uartRxiSet 0 0) port0)).port 0).rxIe = false := by decide

/-- V-UART-4: the port's request rises at once. -/
theorem test_uart_txi_set :
    rspOf (exec (.uartTxiSet 0 1) port0) = some (0, 0, 0) ∧
    ((after base (exec (.uartTxiSet 0 1) port0)).port 0).txIe = true ∧
    (after base (exec (.uartTxiSet 0 1) port0)).irqReq = true := by decide

/-- R150. -/
theorem test_uart_txf_put :
    rspOf (exec (.uartTxfPut 0 0x42) port0) = some (0, 0, 0) ∧
    ((after base (exec (.uartTxfPut 0 0x42) port0)).port 0).txf = [0x42] := by decide

/-- V-UART-6. -/
theorem test_uart_txf_put_holds :
    goesTo (exec (.uartTxfPut 0 0x55) (port0With fun q => { q with txf := List.replicate 32 0 }))
      { port0With fun q => { q with txf := List.replicate 32 0 } with busy := some (.uartTxfPut 0 0x55) } = true := by decide

/-- R151, the example. -/
theorem test_uart_rxf_get :
    rspOf (exec (.uartRxfGet 0) (port0With fun q => { q with rxf := [0x58, 0x59] })) = some (0, 0, 0x58) ∧
    ((after base (exec (.uartRxfGet 0) (port0With fun q => { q with rxf := [0x58, 0x59] }))).port 0).rxf = [0x59] := by decide

/-- V-UART-7. -/
theorem test_uart_rxf_get_holds :
    goesTo (exec (.uartRxfGet 0) port0) { port0 with busy := some (.uartRxfGet 0) } = true := by decide

/-- V-UART-1, V-UART-3, V-UART-6. -/
theorem test_uart_status :
    rspOf (exec (.uartStatus 0) port0) = some (0, 0, 0x00200026) ∧
    rspOf (exec (.uartStatus 0) (port0With fun q => { q with rxf := [0x58], txf := [0x42] })) = some (0, 0, 0x001F0137) ∧
    rspOf (exec (.uartStatus 0) (port0With fun q => { q with txf := List.replicate 32 0 })) = some (0, 0, 0x00000004) := by decide

/-- V-ENC-17. -/
theorem test_uart_status_unconfigured :
    rspOf (exec (.uartStatus 1) base) = some (2, 0xFF, 0xFFFFFFFF) := by decide

/-- R153; V-ENC-18. -/
theorem test_uart_isr :
    ((after base (exec (.uartIsr 0) port0)).port 0).phase = .rxTest ∧
    (after base (exec (.uartIsr 0) port0)).busy = some (.uartIsr 0) ∧
    rspOf (exec (.uartIsr 5) port0) = some (2, 0xFF, 0xFFFFFFFF) := by decide

/-- R195. -/
theorem test_itc_init :
    ((after base (exec .itcInit pending26)).source 6 = Source.reset) ∧
    (after base (exec .itcInit pending26)).irqReq = false := by decide

/-- R196, the example. -/
theorem test_itc_set_handler :
    ((after base (exec (.itcSetHandler 5 0x8000) base)).source 5).handler = 0x8000 ∧
    rspOf (exec (.itcSetHandler 11 1) base) = some (1, 0xFF, 0xFFFFFFFF) := by decide

/-- R197, the example. -/
theorem test_itc_set_priority :
    (after base (exec (.itcSetPriority 6 1) pending26)).fiqReq = true ∧ pending26.fiqReq = false ∧
    (after base (exec (.itcSetPriority 4 0) pendingFast4)).fiqReq = false := by decide

/-- V-ENC-12, V-ENC-13. -/
theorem test_itc_enable :
    rspOf (exec (.itcEnable 10) base) = some (0, 0, 0) ∧
    ((after base (exec (.itcEnable 10) base)).source 10).enable = true ∧
    rspOf (exec (.itcEnable 11) base) = some (1, 0xFF, 0xFFFFFFFF) := by decide

/-- V-ITC-5. -/
theorem test_itc_disable :
    (after base (exec (.itcDisable 6) pending26)).nivector = some 2 ∧ pending26.nivector = some 6 := by decide

/-- R200, the example. -/
theorem test_itc_force :
    ((after base (exec (.itcForce 7) base)).source 7).forced = true ∧
    (after base (exec (.itcForce 7) base)).pend 7 = false := by decide

/-- R201. -/
theorem test_itc_unforce :
    (after base (exec (.itcUnforce 6) pending26)).nivector = some 2 ∧
    ((after base (exec (.itcUnforce 6) pending26)).source 6).forced = false := by decide

/-- R202. -/
theorem test_itc_disable_ints :
    rspOf (exec (.itcDisableInts) pending26) = some (0, 0, 0x44) ∧
    (after base (exec .itcDisableInts pending26)).enableWord = 0 := by decide

/-- V-ITC-1: a write, and bits 31..11 are ignored. -/
theorem test_itc_restore_ints :
    (after base (exec (.itcRestoreInts 0xFFFFF812) pending26)).enableWord = 0x12 := by decide

/-- V-ITC-5. -/
theorem test_itc_read_nivec :
    rspOf (exec (.itcReadNivec) pending26) = some (0, 6, 6) ∧
    rspOf (exec (.itcReadNivec) base) = some (0, 0xFF, 0xFFFFFFFF) := by decide

/-- V-ITC-3. -/
theorem test_itc_read_fivec :
    rspOf (exec (.itcReadFivec) pendingFast4) = some (0, 4, 4) ∧
    rspOf (exec (.itcReadFivec) pending26) = some (0, 0xFF, 0xFFFFFFFF) := by decide

/-- R206, the example. -/
theorem test_itc_svc_n_enter :
    rspOf (exec (.itcSvcNEnter) pending26) = some (0, 6, 0x8000) ∧
    (after base (exec .itcSvcNEnter pending26)).svcFloor = 7 ∧ (after base (exec .itcSvcNEnter pending26)).irqReq = false := by decide

/-- V-ITC-2. -/
theorem test_itc_svc_n_enter_spurious :
    rspOf (exec (.itcSvcNEnter) base) = some (0, 0xFF, 0) := by decide

/-- R207. -/
theorem test_itc_svc_n_return :
    (after base (exec .itcSvcNReturn { pending26 with svcFloor := 7 })).nivector = some 6 := by decide

/-- R208, the example; V-ITC-2. -/
theorem test_itc_svc_f :
    rspOf (exec (.itcSvcF) pendingFast4) = some (0, 4, 0x9000) ∧ rspOf (exec (.itcSvcF) base) = some (0, 0xFF, 0) := by decide

/-- V-EXC-1. -/
theorem test_exc_disable_irq :
    rspOf (exec (.excDisableIrq) { base with coreI := false, coreF := false }) = some (0, 0, 0) ∧
    (after base (exec .excDisableIrq { base with coreI := false, coreF := false })).coreMask = 2 := by decide

/-- V-EXC-1. -/
theorem test_exc_disable_fiq :
    rspOf (exec (.excDisableFiq) { base with coreF := false }) = some (0, 0, 2) ∧
    (after base (exec .excDisableFiq { base with coreF := false })).coreMask = 3 := by decide

/-- V-EXC-1. -/
theorem test_exc_disable_ints :
    rspOf (exec (.excDisableInts) base) = some (0, 0, 3) ∧
    (after base (exec .excDisableInts { base with coreI := false, coreF := false })).coreMask = 3 := by decide

/-- V-EXC-1: only bit 1 of the operand is used. -/
theorem test_exc_restore_irq :
    (after base (exec (.excRestoreIrq 1) base)).coreMask = 1 := by decide

/-- R224, the example. -/
theorem test_exc_restore_fiq :
    (after base (exec (.excRestoreFiq 2) base)).coreMask = 2 := by decide

/-- V-EXC-1. -/
theorem test_exc_restore_ints :
    (after base (exec (.excRestoreInts 2) base)).coreMask = 2 ∧ (after base (exec (.excRestoreInts 1) base)).coreMask = 1 := by decide

/-- V-EXC-2. -/
theorem test_exc_set_handler :
    (after base (exec (.excSetHandler 6 0xA006) base)).trapTable[6] = 0xA006 ∧
    rspOf (exec (.excSetHandler 8 1) base) = some (1, 0xFF, 0xFFFFFFFF) := by decide

/-- V-EXC-2. -/
theorem test_exc_get_handler :
    rspOf (exec (.excGetHandler 7) { base with trapTable := base.trapTable.set 7 0xA007 }) = some (0, 0, 0xA007) ∧
    rspOf (exec (.excGetHandler 8) base) = some (1, 0xFF, 0xFFFFFFFF) := by decide

/-! ### One step of the other agents -/

/-- V-BRG-4, cycle 3. -/
theorem test_brg_tick :
    ((after base (performMove (.brgTick 0) (port0With fun q => { q with brInc := 4000, brAcc := 8000 }))).port 0).brAcc = 2001 ∧
    (after base (performMove (.brgTick 0) (port0With fun q => { q with brInc := 4000, brAcc := 8000 }))).events =
      port0.events ++ [.brgTick 0] := by decide

/-- V-LINE-1: a byte beyond the 32 is lost. -/
theorem test_line_rx_lost :
    goesTo (performMove (.lineRx 0 0x21) (port0With fun q => { q with rxf := List.replicate 32 1 }))
      (port0With fun q => { q with rxf := List.replicate 32 1 }) = true := by decide

/-- V-LINE-2. -/
theorem test_line_tx :
    ((after base (performMove (.lineTx 0) (port0With fun q => { q with txf := [0x41, 0x42] }))).port 0).txf = [0x42] ∧
    (after base (performMove (.lineTx 0) (port0With fun q => { q with txf := [0x41, 0x42] }))).events =
      port0.events ++ [.lineOut 0 0x41] := by decide

/-- V-ITC-4. -/
theorem test_ext_irq :
    (after base (performMove (.extIrq 7 true) (base.setSource 7 ⟨true, false, false, 0, false⟩))).nivector = some 7 := by decide

/-- V-TRAP-1: the fast trap is taken first. -/
theorem test_trap_fiq_first :
    (after base (performMove .trap { pending26.setSource 3 ⟨true, true, true, 0, false⟩ with coreI := false, coreF := false })).events =
      [.trap .fiq 0 0] := by decide

/-- V-TRAP-2. -/
theorem test_trap_irq :
    (after base (performMove .trap { pending26 with coreI := false })).events = [.trap .irq 1 0] ∧
    (after base (performMove .trap { pending26 with coreI := false })).coreMask = 3 := by decide

/-! ### States that meet the hypotheses of the statements -/

/-- Port 0 configured meets the invariant. -/
theorem inv_port0 : port0.Inv :=
  ⟨by decide, by decide, by decide, by decide, by decide, by decide, by decide, by decide⟩

/-- Reset with the parameters of the tests meets the invariant. -/
theorem inv_base : base.Inv :=
  ⟨by decide, by decide, by decide, by decide, by decide, by decide, by decide, by decide⟩

/-- Pending sources do not break the invariant. -/
theorem inv_pending26 : pending26.Inv :=
  ⟨by decide, by decide, by decide, by decide, by decide, by decide, by decide, by decide⟩

theorem witness_EncodeOfDecode :
    decode 0x10FFFFFFFFFF0000FFFF = .ok (.cbInit 0xFF 0xFFFFFFFF 0xFFFF) := by decide

theorem witness_DecodeMatchesRows :
    decode 0x55000000000000000003 = .ok (.excRestoreInts 3) ∧
    ∃ row ∈ opcodeTable, row.accepts 0x55000000000000000003 = true := by decide

theorem witness_StepIsAgentMove :
    { base with agenda := [.trap, .core] }.agenda = .trap :: [.core] ∧ base.agenda = [] := by decide

theorem witness_StepRunsDecodedCommand :
    (issuing base 0x12000000000000000000).Issues 0x12000000000000000000 [] [] ∧
    { base with code := [.cmd 0x12000000000000000000] }.Issues 0x12000000000000000000 [] [] ∧
    decode 0x12000000000000000000 = .ok (.cbRead 0) := by decide

theorem witness_StepRunsPresentedWord :
    decodeTableWord 80 0x12000000000000000000 = some (.cbRead 0) ∧
    decodeTableWord 80 0x30FFFFFFFFFFFFFFFFFF = some (.uartInit 0xFF 0xFFFFFFFF 0xFFFFFFFF) := by decide

theorem witness_IllegalWordChangesNothing :
    (∀ row ∈ opcodeTable, row.accepts 0x12000000000100000000 = false) ∧
    (∀ row ∈ opcodeTable, row.accepts 0x15000000000000000000 = false) ∧
    (∀ row ∈ opcodeTable, opOf row.value ≠ opOf 0x15000000000000000000) := by decide

theorem witness_StepNeverRefuses :
    faults (step { port0 with
      code := [.sendTest 0 0xFFFFFFFF 2 1], rsp := answer 0 0, agenda := [.core] }) = true ∧
    faults (step { port0 with
      code := [.receiveStore 0 0xFFFFFFFF 2 1], rsp := answer 0 0x141, agenda := [.core] }) = true ∧
    faults (step { port0 with
      code := [.receiveStore 0 0xFFFFFFFF 2 0], rsp := answer 0 0x141, agenda := [.core] }) = false := by decide

theorem witness_OperandErrorsFail :
    (Instr.cbInit 4 0 1).operandError base.limits = some .invalidParameter ∧
    (Instr.uartInit 1 0 0).operandError base.limits = some .invalidArgument ∧
    (Instr.uartTxfPut 2 0).operandError base.limits = some .noSuchDevice ∧
    (Instr.excGetHandler 8).operandError base.limits = some .invalidParameter := by decide

theorem witness_PortCheckFails :
    (base.nPorts ≤ (2#8).toNat ∨ (base.port 2).configured = false) ∧ 1 < base.nPorts ∧ (base.port 1).configured = false := by decide

theorem witness_ErrorResponseChangesNothing :
    ∃ t, exec (.itcEnable 11) base = .next t ∧ t.busy = none ∧ t.rsp = some ⟨.invalidParameter, 0xFF, 0xFFFFFFFF⟩ := ⟨_, rfl, by decide, by decide⟩

theorem witness_CbInitBindsRing :
    base.nRings ≤ (4#8).toNat ∧ (3#8).toNat < base.nRings ∧
    2 ^ 32 < (0xFFFFFFFE#32).toNat + (3#16).toNat ∧ (0xFFFFFFFD#32).toNat + (3#16).toNat ≤ 2 ^ 32 ∧
    (0#32).toNat + (1#16).toNat ≤ 2 ^ 32 := by decide

theorem witness_CbWriteStoresByte :
    base.nRings ≤ (4#8).toNat ∧ (base.ring 3).bound = false ∧ (0#8).toNat < (ring0 0 2 false).nRings ∧
    ((ring0 0 0 true).ring 0).full = true ∧ ((ring0 0 2 false).ring 0).full = false ∧
    ((ring0 0 2 false).ring 0).bound = true ∧ ((ring0 0 2 false).ring 0).Inv ∧ ((ring0 0 0 false).ring 0).Inv := by decide

theorem witness_CbReadTakesByte :
    base.nRings ≤ (4#8).toNat ∧ (0#8).toNat < (ring0 1 1 false).nRings ∧
    ((ring0 1 1 false).ring 0).rd = ((ring0 1 1 false).ring 0).wr ∧ ((ring0 1 1 false).ring 0).full = false ∧
    ((ring0 2 0 false).ring 0).rd ≠ ((ring0 2 0 false).ring 0).wr ∧ ((ring0 2 0 false).ring 0).Inv ∧
    ((ring0 0 0 true).ring 0).full = true ∧ ((ring0 0 0 true).ring 0).Inv := by decide

theorem witness_CbPredicatesAnswer :
    base.nRings ≤ (4#8).toNat ∧ (3#8).toNat < base.nRings ∧ (0#8).toNat < base.nRings ∧
    (base.ring 3).Inv ∧ (base.ring 3).bound = false ∧ (0#8).toNat < (ring0 2 2 true).nRings ∧
    ((ring0 2 2 true).ring 0).bound = true := by decide

theorem witness_RingTransitions :
    ((ring0 1 1 false).ring 0).Inv ∧ ((ring0 1 1 false).ring 0).classOf = some .empty ∧
    ((ring0 2 1 false).ring 0).Inv ∧ ((ring0 2 1 false).ring 0).classOf = some .partly ∧
    ((ring0 2 1 false).ring 0).pending = 2 ∧ ((ring0 1 2 false).ring 0).pending = 1 ∧
    ((ring0 2 2 true).ring 0).Inv ∧ ((ring0 2 2 true).ring 0).classOf = some .fullState ∧
    (⟨true, 0xFFFFFFFF, 1, 0, 0, true⟩ : Machine.Ring).Inv ∧ (base.ring 0).Inv ∧ (base.ring 0).classOf = none := ⟨by decide, by decide, by decide, by decide, by decide, by decide, by decide, by decide, by decide, by decide,
    by decide⟩

theorem witness_WriteAppendsToRing :
    (0#8).toNat < (ring0 0 2 false).nRings ∧ ((ring0 0 2 false).ring 0).Inv ∧ ((ring0 0 2 false).ring 0).isFull = false ∧
    ((ring0 0 2 false).ring 0).Disjoint ((ring0 0 2 false).ring 1) ∧ (port0.ring 0).Disjoint (port0.ring 1) ∧
    (port0.ring 1).Inv ∧ (port0.ring 0).isFull = false := by decide

theorem witness_ReadTakesOldestOfRing :
    (ring0 2 2 true).contents 0 = [0x43, 0x41, 0x42] ∧ ((ring0 2 2 true).ring 0).Inv ∧
    (ring0 2 0 false).contents 0 = [0x43] := by decide

theorem witness_BrgLoadComputesDivisor :
    (767#16) = BitVec.ofNat 16 ((115200#32).toNat * 9999 / (base.params.coreClock / 16)) ∧
    base.nPorts ≤ (2#8).toNat ∧ (1#8).toNat < base.nPorts := by decide

theorem witness_BrgReadAnswersDivisor :
    base.nPorts ≤ (2#8).toNat ∧ (1#8).toNat < base.nPorts := by decide

theorem witness_BrgTickCounts :
    (base.port 0).brMod = 0 ∧ ((base.initPort 0 0).port 0).brInc = 0 ∧
    (port0.port 0).brMod ≠ 0 ∧ (port0.port 0).brInc ≠ 0 ∧ (port0.port 0).brInc.toNat ≤ (port0.port 0).brMod.toNat ∧
    (port0.port 0).brAcc.toNat < (port0.port 0).brMod.toNat ∧
    ((base.initPort 0 1500000).port 0).brInc.toNat = ((base.initPort 0 1500000).port 0).brMod.toNat ∧
    ((base.initPort 0 1500151).port 0).brMod.toNat < ((base.initPort 0 1500151).port 0).brInc.toNat := by decide

/-- A divider of modulus 3 and increment 2, about to run its three cycles. -/
def tick3 : State :=
  { port0With (fun q => { q with brMod := 3, brInc := 2, brAcc := 1 }) with
    agenda := [.brgTick 0, .brgTick 0, .brgTick 0] }

theorem witness_BrgTickRate :
    (tick3.port 0).brgCounts = true ∧ (tick3.port 0).brAcc.toNat < (tick3.port 0).brMod.toNat ∧
    tick3.agenda = List.replicate (tick3.port 0).brMod.toNat (.brgTick 0) ++ [] ∧
    goesTo (runs 3 tick3) { tick3 with agenda := [], events := tick3.events ++ [.brgTick 0, .brgTick 0] } = true := by decide

theorem witness_UartInitConfiguresPort :
    base.nPorts ≤ (2#8).toNat ∧ (1#8).toNat < base.nPorts ∧ base.params.wire 1 = ⟨2, 0x00400200, 0x00400300, ⟨18, 19, 20, 21⟩⟩ := by decide

theorem witness_UartSetCallbacks :
    port0.nPorts ≤ (2#8).toNat ∧ (port0.port 1).configured = false ∧ (0#8).toNat < port0.nPorts ∧ (port0.port 0).configured = true := by decide

theorem witness_UartEnablesExchange :
    port0.nPorts ≤ (2#8).toNat ∧ (port0.port 1).configured = false ∧ (0#8).toNat < port0.nPorts ∧ (port0.port 0).configured = true := by decide

theorem witness_UartTxfPutQueuesOrHolds :
    port0.nPorts ≤ (2#8).toNat ∧ (0#8).toNat < port0.nPorts ∧
    ((port0With fun q => { q with txf := List.replicate 31 0 }).port 0).configured = true ∧
    ((port0With fun q => { q with txf := List.replicate 31 0 }).port 0).txf.length < 32 ∧
    ((port0With fun q => { q with txf := List.replicate 32 0 }).port 0).configured = true ∧
    32 ≤ ((port0With fun q => { q with txf := List.replicate 32 0 }).port 0).txf.length := by decide

theorem witness_UartRxfGetTakesOrHolds :
    port0.nPorts ≤ (2#8).toNat ∧ (0#8).toNat < port0.nPorts ∧ (port0.port 0).configured = true ∧ (port0.port 0).rxf = [] ∧
    ((port0With fun q => { q with rxf := [0x58] }).port 0).configured = true ∧
    ((port0With fun q => { q with rxf := [0x58] }).port 0).rxf = 0x58 :: [] := by decide

theorem witness_UartStatusShowsFlags :
    port0.nPorts ≤ (2#8).toNat ∧ (0#8).toNat < port0.nPorts ∧ (port0.port 0).configured = true ∧ (port0.port 0).Inv ∧
    ((port0With fun q => { q with txf := List.replicate 32 0, rxf := List.replicate 32 0 }).port 0).Inv := by decide

theorem witness_UartIsrStartsService :
    port0.nPorts ≤ (2#8).toNat ∧ (port0.port 1).configured = false ∧ (0#8).toNat < port0.nPorts ∧ (port0.port 0).configured = true := by decide

/-- A held `UART_TXF_PUT`. -/
def heldPut : State :=
  { port0With (fun q => { q with txf := 0x11 :: List.replicate 31 0 }) with busy := some (.uartTxfPut 0 0x55) }

theorem witness_LineLiftsHold :
    heldPut.activePort = none ∧ (0#8).toNat < heldPut.nPorts ∧ (heldPut.port 0).configured = true ∧
    heldPut.busy = some (.uartTxfPut 0 0x55) ∧ (heldPut.port 0).txf = 0x11 :: List.replicate 31 0 ∧
    { port0 with busy := some (.uartRxfGet 0) }.activePort = none ∧ (port0.port 0).rxf = [] := by decide

theorem witness_SequencerReceives :
    (service .rxTest id).Running 0 .rxTest ∧
    (service .rxDrain fun q => { q with rxf := [0x58] }).Running 0 .rxDrain ∧ ((service .rxDrain id).ring 0).isFull = false ∧
    ((service .rxDrain fun q => { q with rxf := [0x58] }).port 0).rxf = 0x58 :: [] ∧
    (service .rxDrain id).Running 0 .rxDrain ∧ ((service .rxDrain id).port 0).rxf = [] ∧
    ((service .rxDrain id).setRing 0 ⟨true, 0x00400000, 4, 1, 1, true⟩).Running 0 .rxDrain ∧
    (((service .rxDrain id).setRing 0 ⟨true, 0x00400000, 4, 1, 1, true⟩).ring 0).isFull = true := by decide

theorem witness_SequencerTransmits :
    (service .txTest fun q => { q with txIe := true, txf := [0] }).Running 0 .txTest ∧
    ((service .txTest fun q => { q with txIe := true, txf := [0] }).port 0).configured = true ∧
    ((service .txTest fun q => { q with txIe := true, txf := [0] }).port 0).txLevel.toNat ≤ 32 - 1 ∧
    (service .txTest id).Running 0 .txTest ∧ ((service .txTest id).port 0).txIe = false ∧
    ((service .txFill id).setRing 1 ⟨true, 0x00400100, 4, 0, 1, false⟩).Running 0 .txFill ∧
    (((service .txFill id).setRing 1 ⟨true, 0x00400100, 4, 0, 1, false⟩).ring 1).isEmpty = false ∧
    ((service .txFill id).port 0).txf.length < 32 ∧ ((service .txFill id).ring 1).isEmpty = true := by decide

theorem witness_ServiceExcludesCoreSide :
    (service .rxTest id).Running 0 .rxTest ∧ (Move.lineRx 0 0x21).offCore = true ∧ Move.lineRx 0 0x21 ≠ .seq ∧
    ∃ t, performMove (.lineRx 0 0x21) (service .rxTest id) = .next t := ⟨by decide, by decide, by decide, _, rfl⟩

/-- A service of port 0 with one byte to move, line events between its micro-steps, and the turns R163 counts. -/
def serving : State :=
  { service .rxTest (fun q => { q with rxf := [0x58] }) with
    agenda := .seq :: .lineRx 0 0x59 :: List.replicate 11 .seq }

theorem inv_serving : serving.Inv :=
  ⟨by decide, by decide, by decide, by decide, by decide, by decide, by decide, by decide⟩

theorem witness_ServiceTerminates :
    serving.Inv ∧ serving.Running 0 .rxTest ∧ serving.agenda = serving.agenda ++ [] ∧
    (∀ m ∈ serving.agenda, m.offCore = true) ∧
    4 + (serving.ring 0).cap.toNat + (serving.ring 1).cap.toNat ≤ serving.agenda.count .seq := ⟨inv_serving, by decide, by decide, by decide, by decide⟩

theorem witness_LineMovesBytes :
    (port0.port 0).configured = true ∧ (port0.port 0).rxf.length < 32 ∧ (port0.port 1).configured = false ∧
    ((port0With fun q => { q with rxf := List.replicate 31 0 }).port 0).rxf.length < 32 ∧
    32 ≤ ((port0With fun q => { q with rxf := List.replicate 32 0 }).port 0).rxf.length ∧
    ((port0With fun q => { q with txf := [0x41] }).port 0).configured = true ∧
    ((port0With fun q => { q with txf := [0x41] }).port 0).txf = 0x41 :: [] ∧ (port0.port 0).txf = [] := by decide

theorem witness_ItcSetHandlerAndClass :
    base.nSrc ≤ (11#8).toNat ∧ (10#8).toNat < base.nSrc := by decide

theorem witness_ItcBitCommands :
    base.nSrc ≤ (11#8).toNat ∧ (10#8).toNat < base.nSrc ∧ (0#8).toNat < base.nSrc := by decide

theorem witness_ItcMaskSaveRestore :
    pending26.nSrc ≤ 32 ∧ (State.resetWith { Params.reference with nSrc := 32 }).nSrc ≤ 32 ∧
    ∃ t, exec .itcDisableInts pending26 = .next t := ⟨by decide, by decide, _, rfl⟩

theorem witness_PendingVectors :
    pending26.Inv ∧ pending26.irqReq = true ∧ pending26.nivector = some 6 ∧ port0.Inv ∧ port0.intSrc 1 = false := ⟨inv_pending26, by decide, by decide, inv_port0, by decide⟩

theorem witness_ItcVectorReads :
    base.nivector = none ∧ base.fivector = none ∧ pending26.nivector = some 6 ∧ pendingFast4.fivector = some 4 := by decide

theorem witness_ItcServiceCommands :
    base.nivector = none ∧ pending26.nivector = some 6 ∧ pending26.params.prio 6 < 63 ∧ base.fivector = none ∧
    pendingFast4.fivector = some 4 ∧ (∃ t, exec .itcSvcNEnter pending26 = .next t) ∧
    pending26.params.prio 2 ≤ pending26.params.prio 6 := ⟨by decide, by decide, by decide, by decide, by decide, ⟨_, rfl⟩, by decide⟩

theorem witness_ExtIrqSetsLevel :
    (∀ w ∈ base.params.wires, w.src ≠ 10) ∧ 10 < base.nSrc ∧ (∀ w ∈ base.params.wires, w.src ≠ 0) ∧ 0 < base.nSrc ∧
    ∃ w ∈ base.params.wires, w.src = 1 := by decide

theorem witness_ExcDisableMasks :
    (3#32) = 0#30 ++ BitVec.ofBool base.coreI ++ BitVec.ofBool base.coreF := by decide

theorem witness_ExcTrapTable :
    8 ≤ (8#8).toNat ∧ (7#8).toNat < 8 ∧ (0#8).toNat < 8 := by decide

theorem witness_IrqEntry :
    pending26.irqReq = true ∧ { pending26 with coreI := false }.coreI = false ∧
    { pending26 with coreI := false }.irqReq = true ∧ { pending26 with coreI := false }.atBoundary = true ∧
    pending26.fiqReq = false ∧ base.coreF = true := by decide

theorem witness_FiqEntry :
    { pendingFast4 with coreF := false }.fiqReq = true ∧ { pendingFast4 with coreF := false }.coreF = false ∧
    { pendingFast4 with coreF := false }.atBoundary = true := by decide

theorem witness_TrapsOnlyAtBoundary :
    goesTo (step { pending26 with coreI := false, agenda := [.trap] })
      (after base (step { pending26 with coreI := false, agenda := [.trap] })) = true ∧
    (after base (step { pending26 with coreI := false, agenda := [.trap] })).events = pending26.events ++ [.trap .irq 1 0] ∧
    (after base (step { pendingFast4 with coreF := false })).events = pendingFast4.events ++ [.trap .fiq 2 0] ∧
    heldPut.atBoundary = false ∧ base.irqReq = false ∧ base.fiqReq = false := by decide

/-- An IRQ about to be taken, entry 6 replaced, five turns given. -/
def trapReplaced : State :=
  { pending26 with
    coreI := false, trapTable := base.trapTable.set 6 0xA006, agenda := .trap :: List.replicate 4 .core,
    code := [.sendByte 0 0x41], rsp := answer 0 7 }

/-- An IRQ about to be taken by the default path, nine turns given. -/
def trapDefault : State :=
  { pending26 with coreI := false, agenda := .trap :: List.replicate 8 .core, code := [.sendByte 0 0x41], rsp := answer 0 7 }

theorem witness_TrapReturnRestoresMask :
    trapReplaced.irqEnabled = true ∧ trapReplaced.trapTable[6] ≠ 0 ∧ trapReplaced.ext = [] ∧
    trapReplaced.agenda = .trap :: .core :: .core :: .core :: .core :: [] ∧
    goesTo (runs 5 trapReplaced)
      { trapReplaced with agenda := [], events := [.trap .irq 1 0xA006], invoked := [0xA006] } = true := by decide

theorem witness_DefaultIrqRunsHandler :
    trapDefault.irqEnabled = true ∧ trapDefault.trapTable[6] = 0 ∧ trapDefault.nivector = some 6 ∧ trapDefault.nSrc ≤ 32 ∧
    (trapDefault.source 6).handler ≠ 0 ∧ (trapDefault.source 6).handler.toNat < 0xFFFFFF00 ∧ trapDefault.ext = [] ∧
    trapDefault.agenda = .trap :: List.replicate 8 .core ++ [] ∧
    goesTo (runs 9 trapDefault)
      { trapDefault with agenda := [], svcFloor := 0, events := [.trap .irq 1 0], invoked := [0x8000] } = true := by decide

theorem witness_HandlerSequences :
    base.atBoundary = true ∧ port0.atBoundary = true ∧ 0xFFFFFF00 ≤ (0xFFFFFF01#32).toNat ∧
    (0xFFFFFF01#32).toNat < 0xFFFFFF00 + port0.nPorts ∧ (0xFFFFFEFF#32).toNat < 0xFFFFFF00 ∧
    0xFFFFFF00 + port0.nPorts ≤ (0xFFFFFF02#32).toNat ∧ (service .rxDrain fun q => { q with rxCb := 0x2001 }).Running 0 .rxDrain := by decide

/-- V-API-2 in small: one free slot in the TX ring, "AB" in the caller's buffer. -/
def sending : State :=
  { port0.setRing 1 ⟨true, 0x00400100, 4, 0, 3, false⟩ with
    mem := [(0x00400100, 0x70), (0x00400101, 0x71), (0x00400102, 0x72), (0x00500000, 0x41), (0x00500001, 0x42)]
    code := [.send 0 0x00500000 2], agenda := List.replicate 6 .core }

theorem inv_sending : sending.Inv :=
  ⟨by decide, by decide, by decide, by decide, by decide, by decide, by decide, by decide⟩

/-- V-API-5: ring 0 holds 0x58, the RX FIFO 0x59. -/
def receiving : State :=
  { (port0With fun q => { q with rxf := [0x59] }).setRing 0 ⟨true, 0x00400000, 4, 0, 1, false⟩ with
    mem := [(0x00400000, 0x58)], code := [.receiveByte 0], agenda := List.replicate 5 .core }

theorem inv_receiving : receiving.Inv :=
  ⟨by decide, by decide, by decide, by decide, by decide, by decide, by decide, by decide⟩

theorem witness_SendCopiesWhatFits :
    sending.Inv ∧ sending.atBoundary = true ∧ sending.code = .send 0 0x00500000 2 :: [] ∧
    (0#8).toNat < sending.nPorts ∧ (sending.port 0).configured = true ∧ (0x00500000#32) ≠ 0 ∧
    (0x00500000#32).toNat + (2#32).toNat ≤ 2 ^ 32 ∧
    (sending.ring 1).base.toNat + (sending.ring 1).cap.toNat ≤ (0x00500000#32).toNat ∧
    1 = min (2#32).toNat (sending.ring 1).free ∧ sending.agenda = List.replicate (2 * 1 + 4) .core ++ [] ∧
    (after base (runs 6 sending)).contents 1 = sending.contents 1 ++ [0x41] ∧
    (after base (runs 6 sending)).results = [⟨.ok, 1⟩] := ⟨inv_sending, by decide, by decide, by decide, by decide, by decide, by decide, by decide, by decide, by decide, by decide,
    by decide⟩

theorem witness_ReceiveBytePrefersRing :
    receiving.Inv ∧ receiving.atBoundary = true ∧ receiving.code = .receiveByte 0 :: [] ∧ (0#8).toNat < receiving.nPorts ∧
    (receiving.port 0).configured = true ∧ receiving.contents 0 = 0x58 :: [] ∧
    receiving.agenda = List.replicate 5 .core ++ [] ∧ (after base (runs 5 receiving)).results = [⟨.ok, 0x58⟩] := ⟨inv_receiving, by decide, by decide, by decide, by decide, by decide, by decide, by decide⟩

/-- The core agent about to make a store of its own, at the top of memory. -/
def storing : State := { base with code := [.store 0xFFFFFFFF 0x41], agenda := [.core] }

/-- `UART_RECEIVE` about to store the byte it has read, at the top of memory. -/
def receiveStoring : State := { port0 with code := [.receiveStore 0 0xFFFFFFFE 2 1], rsp := answer 0 0x141, agenda := [.core] }

theorem witness_StoresAreOneByte :
    (issuing (ring0 0 2 false) 0x11000000000000000044).stepStores = some 0x00400002 ∧
    (∃ t, step (issuing (ring0 0 2 false) 0x11000000000000000044) = .next t) ∧
    (issuing (ring0 0 0 true) 0x11000000000000000044).stepStores = none ∧
    (∃ t, exec (.cbRead 0) (ring0 0 0 true) = .next t) ∧ (∃ t, exec (.cbWrite 0 0x44) (ring0 0 2 false) = .next t) ∧
    ((ring0 0 0 true).ring 0).isFull = true ∧ (∃ t, performMove .trap base = .next t) ∧
    (service .rxDrain fun q => { q with rxf := [0x58] }).Running 0 .rxDrain ∧
    (service .rxDrain fun q => { q with rxf := [0x58] }).stepStores = some 0x00400000 ∧
    ((service .rxDrain id).port 0).rxf = [] ∧ (service .rxDrain id).stepStores = none ∧
    (∃ t, performMove .seq (service .rxDrain id) = .next t) := ⟨by decide, ⟨_, rfl⟩, by decide, ⟨_, rfl⟩, ⟨_, rfl⟩, by decide, ⟨_, rfl⟩, by decide, by decide, by decide, by decide, ⟨_, rfl⟩⟩

theorem witness_StoresAreOneByte_core :
    storing.atBoundary = true ∧ storing.code = .store 0xFFFFFFFF 0x41 :: [] ∧ storing.stepStores = some 0xFFFFFFFF ∧
    (after base (step storing)).readByte 0xFFFFFFFF = 0x41 ∧
    receiveStoring.atBoundary = true ∧ receiveStoring.code = .receiveStore 0 0xFFFFFFFE 2 1 :: [] ∧
    receiveStoring.rsp = answer 0 0x141 ∧ (0xFFFFFFFE#32).toNat + (1#32).toNat < 2 ^ 32 ∧
    receiveStoring.stepStores = some 0xFFFFFFFF ∧
    (after base (step receiveStoring)).readByte 0xFFFFFFFF = 0x41 := by decide

theorem witness_BoundAndConfiguredForever :
    (port0.ring 0).bound = true ∧ (port0.port 0).configured = true ∧
    ∃ t, step (issuing port0 0x30000001C20000001000) = .next t := ⟨by decide, by decide, _, rfl⟩

theorem witness_StepKeepsInv :
    port0.Inv ∧ ∃ t, step (issuing port0 0x30000001C20000001000) = .next t := ⟨inv_port0, _, rfl⟩

/-! ### The interface of the model -/

/-- The instruction the host presents is the next step's. -/
theorem test_withFetchWord :
    goesTo (step (State.reset.withFetchWord 80 0x43030000000000000000))
      { State.reset.setSource 3 { Source.reset with enable := true } with rsp := answer 0 0 } = true := by decide

end Sys2Proof.Tests
end

