-- ==== Sys2Proof/Proofs/Schedule.lean ====
section
/-!
PROOFS. The step as the move of the agent chosen (00_scope.md R11).
-/

namespace Sys2Proof.Proofs

open Sys2Proof.Machine

/-- The order of the default choice: service, then trap, then core agent (log entry 3; 60_exceptions.md R257). -/
theorem defaultMove_eq_ite (s : State) :
    s.defaultMove = if s.activePort.isSome then .seq else if s.fiqEnabled || s.irqEnabled then .trap else .core := rfl

/-- Settles O5: the agenda's case and the empty agenda's case of the step, the latter with the default choice spelled out. -/
theorem stepIsAgentMove : Obligations.StepIsAgentMove := by
  unfold Obligations.StepIsAgentMove
  intro s
  constructor
  · intro m ag hagenda
    exact step_of_agenda hagenda
  · intro hempty
    rw [step_of_no_agenda hempty, defaultMove_eq_ite]

end Sys2Proof.Proofs
end

