-- ==== Sys2Proof/Proofs/Invariant.lean ====
section
/-!
PROOFS. The invariant of the machine (`State.Inv`): met after reset, kept by every step (10_state.md R22, R27, R31, R41;
42_uart_seq.md R156).

The registers are legal by themselves (`Legal`); what ties them to the command port depends on whether a service runs.
So every state that meets the invariant is of one of two kinds: at rest, with every sequencer idle (`Resting`), where
the core agent may move, or in the service of one port (`Serving`), where only that port's sequencer does. Each kind
has one rule per state operation, and each step is a walk along those rules.
-/

namespace Sys2Proof.Proofs

open Sys2Proof.Machine

/-! ### The two kinds of state that meet the invariant -/

/-- Every register and the memory hold legal values: the invariant without its clause about the service. -/
structure Legal (s : State) : Prop where
  params : s.params.Valid
  nPorts : s.nPorts = s.params.nPorts
  nRings : s.nRings = 2 * s.params.nPorts
  nSrc : s.nSrc = s.params.nSrc
  rings : ∀ r ∈ s.rings, r.Inv
  ports : ∀ q ∈ s.ports, q.Inv
  floor : s.svcFloor.toNat ≤ s.nSrc
  mem : s.mem.wf = true

/-- Legal registers, every sequencer idle. Nothing is said of the command in progress. -/
structure Resting (s : State) : Prop extends Legal s where
  idle : ∀ p, (s.port p).phase = .idle

/-- Legal registers, the `UART_ISR` of the Configured port `p` in progress, every other sequencer idle (R156). -/
structure Serving (s : State) (p : Nat) : Prop extends Legal s where
  lt : p < s.nPorts
  busy : s.busy = some (.uartIsr (BitVec.ofNat 8 p))
  configured : (s.port p).configured = true
  others : ∀ j, j ≠ p → (s.port j).phase = .idle

/-- What the legal values are about; of the sources only their number counts. -/
def regs (s : State) : Params × List Ring × List Port × Nat × BitVec 6 × Memory :=
  (s.params, s.rings, s.ports, s.nSrc, s.svcFloor, s.mem)

/-- Where an outcome is a next state, that state meets the invariant. -/
def NextInv (o : Outcome) : Prop := ∀ t, o = .next t → t.Inv

variable {s t : State}

theorem inv_iff : s.Inv ↔ Legal s ∧ s.ServiceInv := by
  constructor
  · rintro ⟨hparams, ⟨hports, hrings, hsrc⟩, hring, hport, hfloor, hmem, hservice⟩
    exact ⟨⟨hparams, hports, hrings, hsrc, hring, hport, hfloor, hmem⟩, hservice⟩
  · rintro ⟨h, hservice⟩
    exact ⟨h.params, ⟨h.nPorts, h.nRings, h.nSrc⟩, h.rings, h.ports, h.floor, h.mem, hservice⟩

theorem regs_eq_iff : regs t = regs s ↔ t.params = s.params ∧ t.rings = s.rings ∧ t.ports = s.ports ∧
    t.nSrc = s.nSrc ∧ t.svcFloor = s.svcFloor ∧ t.mem = s.mem := by
  simp only [regs, Prod.mk.injEq]

theorem regs_setSource (s : State) (i : Nat) (x : Source) : regs (s.setSource i x) = regs s := by
  simp [regs]

@[simp] theorem nextInv_next : NextInv (.next t) ↔ t.Inv :=
  ⟨fun h => h t rfl, fun h _ hu => by cases hu; exact h⟩

@[simp] theorem nextInv_fault (r : Fault) : NextInv (.fault r) := fun _ hu => by cases hu

/-! ### One port record, one ring record -/

theorem port_eq_of_ports (hp : t.ports = s.ports) (p : Nat) : t.port p = s.port p := by
  rw [State.port, State.port, hp]

theorem nPorts_eq_of_ports (hp : t.ports = s.ports) : t.nPorts = s.nPorts := by
  rw [State.nPorts, State.nPorts, hp]

/-- A loaded divider is in range and its accumulator is clear (41_brg.md R121). -/
theorem portInv_loadBaud {q : Port} (h : q.Inv) (clock : Nat) (baud : Word) : (q.loadBaud clock baud).Inv := by
  obtain ⟨hrxf, htxf, hrxLevel, htxLevel, -, -, hquiet⟩ := h
  refine ⟨hrxf, htxf, hrxLevel, htxLevel, .inr rfl, fun _ => ?_, hquiet⟩
  show (0 : Half).toNat < (BitVec.ofNat 16 Config.brgMod).toNat
  decide

theorem portInv_initialised {q : Port} (h : q.Inv) (clock : Nat) (baud : Word) : (q.initialised clock baud).Inv := by
  obtain ⟨-, -, -, -, hmod, hacc, -⟩ := portInv_loadBaud h clock baud
  have hrxLevel : Config.rxTrig.toNat ≤ Config.fifoDepth := by decide
  have htxLevel : Config.txTrig.toNat ≤ Config.fifoDepth := by decide
  exact ⟨Nat.zero_le _, Nat.zero_le _, hrxLevel, htxLevel, hmod, hacc, nofun⟩

theorem rxf_length_le {q : Port} (h : q.Inv) : q.rxf.length ≤ Config.fifoDepth := h.1

theorem txf_length_le {q : Port} (h : q.Inv) : q.txf.length ≤ Config.fifoDepth := h.2.1

/-- A FIFO whose head is taken stays within its depth. -/
theorem length_le_of_eq_cons {xs rest : List Byte} {v : Byte} {n : Nat} (hxs : xs = v :: rest) (h : xs.length ≤ n) :
    rest.length ≤ n := by
  subst hxs
  exact (Nat.le_succ _).trans h

/-- The enables, the FIFOs within their depth and the phase of a Configured port are free. -/
theorem portInv_control {q : Port} (h : q.Inv) (hc : q.configured = true) (rxIe txIe : Bool) {rxf txf : List Byte}
    (hrxf : rxf.length ≤ Config.fifoDepth) (htxf : txf.length ≤ Config.fifoDepth) (x : Phase) :
    Port.Inv { q with rxIe := rxIe, txIe := txIe, rxf := rxf, txf := txf, phase := x } := by
  obtain ⟨-, -, hrxLevel, htxLevel, hmod, hacc, -⟩ := h
  exact ⟨hrxf, htxf, hrxLevel, htxLevel, hmod, hacc, fun hn => absurd (hc.symm.trans hn) (by decide)⟩

theorem portInv_enables {q : Port} (h : q.Inv) (hc : q.configured = true) (rxIe txIe : Bool) (x : Phase) :
    Port.Inv { q with rxIe := rxIe, txIe := txIe, phase := x } :=
  portInv_control h hc rxIe txIe (rxf_length_le h) (txf_length_le h) x

/-- The accumulator of a counting divider may hold any value below the modulus (41_brg.md R124). -/
theorem portInv_brAcc {q : Port} (h : q.Inv) {acc : Nat} (hacc : acc < q.brMod.toNat) :
    Port.Inv { q with brAcc := BitVec.ofNat 16 acc } := by
  obtain ⟨hrxf, htxf, hrxLevel, htxLevel, hmod, -, hquiet⟩ := h
  refine ⟨hrxf, htxf, hrxLevel, htxLevel, hmod, fun _ => ?_, hquiet⟩
  show (BitVec.ofNat 16 acc).toNat < q.brMod.toNat
  rw [BitVec.toNat_ofNat]
  exact (Nat.mod_le _ _).trans_lt hacc

theorem portInv_reset : Port.reset.Inv := by decide

theorem ringInv_reset : Ring.reset.Inv := by decide

/-- A ring bound to a non-empty region inside the address space (40_ring.md R100, R101). -/
theorem ringInv_init {base : Word} {cap : Half} (hcap : 1 ≤ cap.toNat) (hbase : base.toNat + cap.toNat ≤ 2 ^ 32) :
    (Ring.init base cap).Inv :=
  ⟨fun _ => ⟨hcap, hcap, hcap, fun _ => rfl, hbase⟩, nofun⟩

/-! ### Legal registers: a rule per state operation -/

namespace Legal

theorem port (h : Legal s) (p : Nat) : (s.port p).Inv := by
  by_cases hp : p < s.nPorts
  · exact h.ports _ (s.port_mem p hp)
  · rw [s.port_of_ge p (by omega)]
    exact portInv_reset

theorem ring (h : Legal s) (r : Nat) : (s.ring r).Inv := by
  by_cases hr : r < s.nRings
  · exact h.rings _ (s.ring_mem r hr)
  · rw [s.ring_of_ge r (by omega)]
    exact ringInv_reset

theorem congr (h : Legal s) (hregs : regs t = regs s) : Legal t := by
  obtain ⟨hparams, hrings, hports, hsrc, hfloor, hmem⟩ := regs_eq_iff.1 hregs
  exact
    { params := hparams ▸ h.params
      nPorts := by rw [State.nPorts, hports, hparams]; exact h.nPorts
      nRings := by rw [State.nRings, hrings, hparams]; exact h.nRings
      nSrc := by rw [hsrc, hparams]; exact h.nSrc
      rings := hrings ▸ h.rings
      ports := hports ▸ h.ports
      floor := by rw [hfloor, hsrc]; exact h.floor
      mem := hmem ▸ h.mem }

theorem setPort (h : Legal s) (p : Nat) {q : Port} (hq : q.Inv) : Legal (s.setPort p q) where
  __ := h
  nPorts := (s.setPort_nPorts p q).trans h.nPorts
  ports := fun x hx => (List.mem_or_eq_of_mem_set hx).elim (h.ports x) (fun hxq => hxq ▸ hq)

theorem setRing (h : Legal s) (r : Nat) {x : Ring} (hx : x.Inv) : Legal (s.setRing r x) where
  __ := h
  nRings := (s.setRing_nRings r x).trans h.nRings
  rings := fun y hy => (List.mem_or_eq_of_mem_set hy).elim (h.rings y) (fun hyx => hyx ▸ hx)

theorem writeByte (h : Legal s) {a : Nat} (ha : a < 2 ^ 32) (v : Byte) : Legal (s.writeByte a v) where
  __ := h
  mem := Memory.wf_write _ _ _ ha h.mem

theorem setFloor (h : Legal s) {x : BitVec 6} (hx : x.toNat ≤ s.nSrc) : Legal { s with svcFloor := x } where
  __ := h
  floor := hx

theorem ringWrite (h : Legal s) (r : Nat) (v : Byte) : Legal (s.ringWrite r v).2 := by
  rcases s.ringWrite_cases r v with ⟨-, he⟩ | ⟨hfull, he⟩
  · exact he ▸ h
  · rw [he]
    exact (h.writeByte (BitVec.isLt _) v).setRing r (Ring.inv_afterWrite _ (h.ring r) hfull)

theorem ringRead (h : Legal s) (r : Nat) : Legal (s.ringRead r).2.2 := by
  rcases s.ringRead_cases r with ⟨-, he⟩ | ⟨hempty, he⟩
  · exact he ▸ h
  · rw [he]
    exact h.setRing r (Ring.inv_afterRead _ (h.ring r) hempty)

/-- `prio(v) + 1` is a legal floor and fits its register (44_itc.md R191, R206; log entry 11). -/
theorem floor_of_prio (h : Legal s) {v : Nat} (hv : v < s.nSrc) :
    (BitVec.ofNat 6 (s.params.prio v + 1)).toNat ≤ s.nSrc := by
  obtain ⟨-, -, -, -, -, -, -, -, hprio, -⟩ := h.params
  have hlt : s.params.prio v < s.params.nSrc := hprio v (List.mem_range.2 (h.nSrc ▸ hv))
  rw [BitVec.toNat_ofNat]
  exact (Nat.mod_le _ _).trans (h.nSrc ▸ hlt)

/-- The region of a port's ring is non-empty and inside the address space (R6, R7). -/
theorem ringInv_of_base (h : Legal s) {b : Word} (hb : b.toNat ∈ s.params.bases) :
    (Ring.init b s.params.bufCap).Inv := by
  obtain ⟨-, -, -, -, -, hcap, hregion, -, -, -⟩ := h.params
  exact ringInv_init hcap (hregion _ hb)

theorem bases_mem (h : Legal s) {p : Nat} (hp : p < s.nPorts) :
    (s.params.wire p).rxBase.toNat ∈ s.params.bases ∧ (s.params.wire p).txBase.toNat ∈ s.params.bases := by
  have hlen : p < s.params.wires.length := hp.trans_eq h.nPorts
  have hwire : s.params.wire p ∈ s.params.wires := by
    simp [Params.wire, List.getD_eq_getElem?_getD, List.getElem?_eq_getElem hlen]
  exact ⟨List.mem_flatMap.2 ⟨_, hwire, by simp⟩, List.mem_flatMap.2 ⟨_, hwire, by simp⟩⟩

end Legal

/-! ### The ring paths write no port and leave the command port alone -/

theorem ringWrite_frame (s : State) (r : Nat) (v : Byte) :
    (s.ringWrite r v).2.ports = s.ports ∧ (s.ringWrite r v).2.busy = s.busy := by
  rcases s.ringWrite_cases r v with ⟨-, he⟩ | ⟨-, he⟩ <;> simp [he]

theorem ringRead_frame (s : State) (r : Nat) :
    (s.ringRead r).2.2.ports = s.ports ∧ (s.ringRead r).2.2.busy = s.busy := by
  rcases s.ringRead_cases r with ⟨-, he⟩ | ⟨-, he⟩ <;> simp [he]

/-! ### The service clause -/

theorem mayBeBusy_congr (hp : t.ports = s.ports) (i : Instr) : t.mayBeBusy i = s.mayBeBusy i := by
  cases i <;> simp only [State.mayBeBusy, port_eq_of_ports hp, nPorts_eq_of_ports hp]

theorem inv_congr (h : s.Inv) (hregs : regs t = regs s) (hbusy : t.busy = s.busy) : t.Inv := by
  obtain ⟨-, -, hports, -, -, -⟩ := regs_eq_iff.1 hregs
  obtain ⟨hlegal, hphase, hmay⟩ := inv_iff.1 h
  refine inv_iff.2 ⟨hlegal.congr hregs, ?_, ?_⟩
  · simpa only [port_eq_of_ports hports, nPorts_eq_of_ports hports, hbusy] using hphase
  · rw [hbusy, show t.mayBeBusy = s.mayBeBusy from funext (mayBeBusy_congr hports)]
    exact hmay

theorem inv_emit (h : s.Inv) (e : Event) : (s.emit e).Inv := inv_congr h rfl rfl

/-- A field that the written record has as before reads as before at every port. -/
theorem apply_port_setPort {α : Type} (f : Port → α) (s : State) {p : Nat} {q : Port} (hf : f q = f (s.port p))
    (j : Nat) : f ((s.setPort p q).port j) = f (s.port j) := by
  rw [s.port_setPort]
  split
  next hj =>
    obtain ⟨hpj, -⟩ := hj
    rw [hf, hpj]
  next => rfl

/-- A port record may change under the invariant where its phase and whether it is Configured stay (R82, R156). -/
theorem inv_setPort (h : s.Inv) (p : Nat) {q : Port} (hq : q.Inv) (hphase : q.phase = (s.port p).phase)
    (hconf : q.configured = (s.port p).configured) : (s.setPort p q).Inv := by
  obtain ⟨hlegal, hrun, hmay⟩ := inv_iff.1 h
  have hphases := apply_port_setPort Port.phase s hphase
  have hconfs := apply_port_setPort Port.configured s hconf
  have hsame : (s.setPort p q).mayBeBusy = s.mayBeBusy := by
    funext i
    cases i <;> simp only [State.mayBeBusy, hphases, hconfs, State.setPort_nPorts]
  refine inv_iff.2 ⟨hlegal.setPort p hq, ?_, ?_⟩
  · simpa only [hphases, State.setPort_nPorts, State.setPort_busy] using hrun
  · rw [hsame]
    exact hmay

theorem resting_of_inv (h : s.Inv) (hp : s.activePort = none) : Resting s where
  __ := (inv_iff.1 h).1
  idle := fun p => by
    by_cases hlt : p < s.nPorts
    · exact State.activePort_eq_none.1 hp p hlt
    · rw [s.port_of_ge p (by omega)]
      rfl

/-- A port id fits the operand that names it (R6). -/
theorem toNat_ofNat_port (h : Legal s) {p : Nat} (hp : p < s.nPorts) : (BitVec.ofNat 8 p).toNat = p := by
  obtain ⟨⟨-, hmax⟩, -⟩ := h.params
  have := h.nPorts
  rw [BitVec.toNat_ofNat]
  omega

theorem serving_of_inv (h : s.Inv) {p : Nat} (hp : s.activePort = some p) : Serving s p := by
  obtain ⟨hlegal, hrun, hmay⟩ := inv_iff.1 h
  obtain ⟨hlt, hphase⟩ := State.activePort_eq_some hp
  have hbusy := hrun p (List.mem_range.2 hlt) hphase
  have hid := toNat_ofNat_port hlegal hlt
  refine ⟨hlegal, hlt, hbusy, ?_, fun j hj => ?_⟩
  · simp only [hbusy, Option.all_some, State.mayBeBusy, hid, Bool.and_eq_true] at hmay
    obtain ⟨⟨-, hconf⟩, -⟩ := hmay
    exact hconf
  · by_cases hjlt : j < s.nPorts
    · by_contra hne
      have hsame : BitVec.ofNat 8 j = BitVec.ofNat 8 p := by
        simpa [hbusy] using (hrun j (List.mem_range.2 hjlt) hne).symm
      exact hj (by rw [← toNat_ofNat_port hlegal hjlt, hsame, hid])
    · rw [s.port_of_ge j (by omega)]
      rfl

/-! ### At rest: a rule per state operation -/

namespace Resting

theorem of_legal (h : Resting s) (ht : Legal t) (hports : t.ports = s.ports) : Resting t :=
  ⟨ht, fun p => port_eq_of_ports hports p ▸ h.idle p⟩

theorem congr (h : Resting s) (hregs : regs t = regs s) : Resting t := by
  obtain ⟨-, -, hports, -, -, -⟩ := regs_eq_iff.1 hregs
  exact h.of_legal (h.toLegal.congr hregs) hports

theorem setPort (h : Resting s) (p : Nat) {q : Port} (hq : q.Inv) (hphase : q.phase = .idle) :
    Resting (s.setPort p q) where
  __ := h.toLegal.setPort p hq
  idle := fun j => by
    rw [s.port_setPort]
    split
    next => exact hphase
    next => exact h.idle j

theorem setRing (h : Resting s) (r : Nat) {x : Ring} (hx : x.Inv) : Resting (s.setRing r x) :=
  h.of_legal (h.toLegal.setRing r hx) rfl

theorem setSource (h : Resting s) (i : Nat) (x : Source) : Resting (s.setSource i x) :=
  h.congr (regs_setSource s i x)

theorem inv_of_busy (h : Resting s) (hmay : s.busy.all s.mayBeBusy = true) : s.Inv :=
  inv_iff.2 ⟨h.toLegal, fun p _ hp => absurd (h.idle p) hp, hmay⟩

theorem inv_of_not_busy (h : Resting s) (hb : s.busy = none) : s.Inv := h.inv_of_busy (by rw [hb]; rfl)

theorem respond (h : Resting s) (st : Status) (aux : BitVec 8) (d : Word) : (s.respond st aux d).Inv :=
  inv_of_not_busy (h.congr rfl : Resting (s.respond st aux d)) rfl

/-- A command that writes none of the registers the legal values are about, and answers. -/
theorem respond_of_regs (h : Resting s) (hregs : regs t = regs s) (st : Status) (aux : BitVec 8) (d : Word) :
    (t.respond st aux d).Inv :=
  (h.congr hregs).respond st aux d

theorem fail (h : Resting s) (st : Status) : (s.fail st).Inv := h.respond st _ _

/-- A command that the spec lets wait is held (R268). -/
theorem hold (h : Resting s) {i : Instr} (hi : s.mayBeBusy i = true) : (s.hold i).Inv :=
  inv_of_busy (h.congr rfl : Resting (s.hold i)) ((mayBeBusy_congr rfl i).trans hi)

/-- The operand checks either fail or go on with an id in range. -/
theorem withRing (h : Resting s) {sel : BitVec 8} {k : Nat → State} (hk : ∀ r, (k r).Inv) :
    NextInv (.next (Machine.withRing sel s k)) := by
  rcases withRing_cases (sel := sel) (s := s) (k := k) with ⟨-, he⟩ | ⟨-, he⟩ <;> rw [he, nextInv_next]
  · exact h.fail _
  · exact hk _

theorem withPort (h : Resting s) {sel : BitVec 8} {k : Nat → State} (hk : ∀ p < s.nPorts, (k p).Inv) :
    NextInv (.next (Machine.withPort sel s k)) := by
  rcases withPort_cases (sel := sel) (s := s) (k := k) with ⟨-, he⟩ | ⟨hlt, he⟩ <;> rw [he, nextInv_next]
  · exact h.fail _
  · exact hk _ hlt

theorem withConfigured (h : Resting s) {sel : BitVec 8} {k : Nat → State}
    (hk : sel.toNat < s.nPorts → (s.port sel.toNat).configured = true → (k sel.toNat).Inv) :
    NextInv (.next (Machine.withConfigured sel s k)) := by
  rcases withConfigured_cases (sel := sel) (s := s) (k := k) with ⟨-, he⟩ | ⟨hlt, hc, he⟩ <;>
    rw [he, nextInv_next]
  · exact h.fail _
  · exact hk hlt hc

theorem withSource (h : Resting s) {sel : BitVec 8} {k : Nat → State} (hk : ∀ i, (k i).Inv) :
    NextInv (.next (Machine.withSource sel s k)) := by
  rcases withSource_cases (sel := sel) (s := s) (k := k) with ⟨-, he⟩ | ⟨-, he⟩ <;> rw [he, nextInv_next]
  · exact h.fail _
  · exact hk _

theorem withTrap (h : Resting s) {sel : BitVec 8} {k : Fin Config.nTraps → State} (hk : ∀ i, (k i).Inv) :
    NextInv (.next (Machine.withTrap sel s k)) := by
  rcases withTrap_cases (sel := sel) (s := s) (kt := k) with ⟨-, he⟩ | ⟨hlt, he⟩ <;> rw [he, nextInv_next]
  · exact h.fail _
  · exact hk _

/-- A source's registers are written and the command is answered. -/
theorem withSource_setSource (h : Resting s) (sel : BitVec 8) (x : Nat → Source) :
    NextInv (.next (Machine.withSource sel s fun i => (s.setSource i (x i)).respond .ok 0 0)) :=
  h.withSource fun i => (h.setSource i (x i)).respond _ _ _

/-- A Configured port's registers are written and the command is answered. -/
theorem withConfigured_setPort (h : Resting s) (sel : BitVec 8) {q : Nat → Port} (d : Nat → Word)
    (hq : ∀ p, (s.port p).configured = true → (q p).Inv) (hphase : ∀ p, (q p).phase = (s.port p).phase) :
    NextInv (.next (Machine.withConfigured sel s fun p => (s.setPort p (q p)).respond .ok 0 (d p))) :=
  h.withConfigured fun _ hc => (h.setPort _ (hq _ hc) ((hphase _).trans (h.idle _))).respond _ _ _

end Resting

/-! ### In a service: a rule per state operation -/

namespace Serving

variable {p : Nat}

theorem of_legal (h : Serving s p) (ht : Legal t) (hports : t.ports = s.ports) (hbusy : t.busy = s.busy) :
    Serving t p where
  __ := ht
  lt := nPorts_eq_of_ports hports ▸ h.lt
  busy := hbusy.trans h.busy
  configured := port_eq_of_ports hports p ▸ h.configured
  others := fun j hj => port_eq_of_ports hports j ▸ h.others j hj

theorem setPort (h : Serving s p) {q : Port} (hq : q.Inv) (hc : q.configured = true) : Serving (s.setPort p q) p where
  __ := h.toLegal.setPort p hq
  lt := (s.setPort_nPorts p q).symm ▸ h.lt
  busy := h.busy
  configured := by rw [s.port_setPort_self p q h.lt]; exact hc
  others := fun j hj => by rw [s.port_setPort_ne p j q hj.symm]; exact h.others j hj

theorem announce (h : Serving s p) (d : Dir) (token : Token) : Serving (s.announce p d token) p := by
  rcases s.announce_cases p d token with ⟨-, he⟩ | ⟨-, he⟩ <;> rw [he]
  · exact h
  · exact h.of_legal (h.toLegal.congr rfl) rfl rfl

theorem ringWrite (h : Serving s p) (r : Nat) (v : Byte) : Serving (s.ringWrite r v).2 p :=
  h.of_legal (h.toLegal.ringWrite r v) (ringWrite_frame s r v).1 (ringWrite_frame s r v).2

theorem ringRead (h : Serving s p) (r : Nat) : Serving (s.ringRead r).2.2 p :=
  h.of_legal (h.toLegal.ringRead r) (ringRead_frame s r).1 (ringRead_frame s r).2

/-- While the sequencer runs, the service agrees with the command port. -/
theorem inv (h : Serving s p) (hphase : (s.port p).phase ≠ .idle) : s.Inv := by
  refine inv_iff.2 ⟨h.toLegal, fun j _ hj => ?_, ?_⟩
  · have hjp : j = p := by
      by_contra hne
      exact hj (h.others j hne)
    rw [hjp, h.busy]
  · simp [h.busy, State.mayBeBusy, toNat_ofNat_port h.toLegal h.lt, h.lt, h.configured, hphase]

/-- The running port's record after a write that leaves it running. -/
theorem inv_setPort (h : Serving s p) {q : Port} (hq : q.Inv) (hc : q.configured = true) (hphase : q.phase ≠ .idle) :
    (s.setPort p q).Inv :=
  (h.setPort hq hc).inv (by rw [s.port_setPort_self p q h.lt]; exact hphase)

theorem setPhase (h : Serving s p) {x : Phase} (hx : x ≠ .idle) : (s.setPhase p x).Inv :=
  h.inv_setPort (h.toLegal.port p) h.configured hx

/-- The service ends: its sequencer joins the others at rest, and `UART_ISR` is answered. -/
theorem endService (h : Serving s p) : (s.endService p).Inv := by
  have hrest : Resting (s.setPhase p .idle) :=
    { h.toLegal.setPort p (q := { s.port p with phase := .idle }) (h.toLegal.port p) with
      idle := fun j => by
        rw [State.setPhase, s.port_setPort]
        split
        next => rfl
        next hj => exact h.others j fun hjp => hj ⟨hjp.symm, h.lt⟩ }
  exact hrest.respond _ _ _

end Serving

/-! ### The commands -/

/-- `UART_INIT` binds both rings of the port to its regions and loads its registers; the phase is not written. -/
theorem resting_initPort (h : Resting s) {p : Nat} (hp : p < s.nPorts) (baud : Word) : Resting (s.initPort p baud) := by
  obtain ⟨hrx, htx⟩ := h.toLegal.bases_mem hp
  have hport : Resting (s.setPort p ((s.port p).initialised s.params.coreClock baud)) :=
    h.setPort p (portInv_initialised (h.toLegal.port p) _ _) (h.idle p)
  have hemit : Resting ((s.setPort p ((s.port p).initialised s.params.coreClock baud)).emit
      (.pinRoute p (s.params.wire p).pins)) := hport.congr rfl
  exact ((hemit.setRing (rxRing p) (h.toLegal.ringInv_of_base hrx)).setRing (txRing p)
    (h.toLegal.ringInv_of_base htx)).setSource _ _

theorem execCbInit_inv (h : Resting s) (sel : BitVec 8) (base : Word) (cap : Half) :
    NextInv (execCbInit sel base cap s) := by
  refine h.withRing fun r => ?_
  split
  · exact h.fail _
  · split
    · exact h.fail _
    · have hcap : 1 ≤ cap.toNat := by bv_omega
      exact (h.setRing r (ringInv_init hcap (by omega))).respond _ _ _

theorem execUartInit_inv (h : Resting s) (sel : BitVec 8) (baud name : Word) :
    NextInv (execUartInit sel baud name s) := by
  refine h.withPort fun p hp => ?_
  split
  · exact h.fail _
  · exact (resting_initPort h hp baud).respond _ _ _

theorem execUartTxfPut_inv (h : Resting s) (sel : BitVec 8) (v : Byte) : NextInv (execUartTxfPut sel v s) := by
  refine h.withConfigured fun hlt hc => ?_
  have hq := h.toLegal.port sel.toNat
  split
  next hspace =>
    have hlen : ((s.port sel.toNat).txf ++ [v]).length ≤ Config.fifoDepth := by
      simpa [Port.txSpace] using hspace
    exact (h.setPort _ (portInv_control hq hc _ _ (rxf_length_le hq) hlen _) (h.idle _)).respond _ _ _
  next => exact h.hold (by simp [State.mayBeBusy, hlt, hc])

theorem execUartRxfGet_inv (h : Resting s) (sel : BitVec 8) : NextInv (execUartRxfGet sel s) := by
  refine h.withConfigured fun hlt hc => ?_
  have hq := h.toLegal.port sel.toNat
  split
  next v rest hrxf =>
    have hlen := length_le_of_eq_cons hrxf (rxf_length_le hq)
    exact (h.setPort _ (portInv_control hq hc _ _ hlen (txf_length_le hq) _) (h.idle _)).respond _ _ _
  next => exact h.hold (by simp [State.mayBeBusy, hlt, hc])

/-- `UART_ISR` starts the one service that is then in progress (R153, R156). -/
theorem execUartIsr_inv (h : Resting s) (sel : BitVec 8) : NextInv (execUartIsr sel s) := by
  refine h.withConfigured fun hlt hc => ?_
  have hq : Port.Inv { s.port sel.toNat with phase := .rxTest } := h.toLegal.port sel.toNat
  have hserving : Serving ((s.setPort sel.toNat { s.port sel.toNat with phase := .rxTest }).hold (.uartIsr sel))
      sel.toNat :=
    { (h.toLegal.setPort sel.toNat hq).congr rfl with
      lt := (s.setPort_nPorts _ _).symm ▸ hlt
      busy := by rw [State.hold_busy, BitVec.ofNat_toNat, BitVec.setWidth_eq]
      configured := by rw [State.hold_port, s.port_setPort_self _ _ hlt]; exact hc
      others := fun j hj => by rw [State.hold_port, s.port_setPort_ne _ _ _ hj.symm]; exact h.idle j }
  have hrunning := hserving.inv (by rw [State.hold_port, s.port_setPort_self _ _ hlt]; nofun)
  exact inv_congr hrunning rfl rfl

theorem execItcSvcNEnter_inv (h : Resting s) : NextInv (execItcSvcNEnter s) := by
  rw [execItcSvcNEnter, nextInv_next]
  split
  next => exact h.respond _ _ _
  next v hv =>
    have hlegal := h.toLegal.setFloor (h.toLegal.floor_of_prio (pickMax_spec hv).1)
    exact (h.of_legal hlegal rfl).respond _ _ _

theorem execItcSvcF_inv (h : Resting s) : NextInv (execItcSvcF s) := by
  rw [execItcSvcF, nextInv_next]
  split <;> exact h.respond _ _ _

theorem answerVector_inv (h : Resting s) (v : Option Nat) : (s.answerVector v).Inv := by
  cases v <;> exact h.respond _ _ _

/-- The registers of all sources may be written at once (44_itc.md R195, R202, R203). -/
theorem resting_setSources (h : Resting s) {xs : List Source} (hlen : xs.length = s.sources.length) :
    Resting { s with sources := xs } := h.congr (by simp [regs, State.nSrc, hlen])

theorem resting_clearFloor (h : Resting s) : Resting { s with svcFloor := 0 } :=
  h.of_legal (h.toLegal.setFloor (Nat.zero_le _)) rfl

/-- Every command issued or tried again with all sequencers idle ends in a state that meets the invariant: answered,
held, or in the service it started. -/
theorem exec_inv (h : Resting s) (i : Instr) : NextInv (exec i s) := by
  have hport := h.toLegal.port
  cases i with
  | cbInit sel base cap => exact execCbInit_inv h sel base cap
  | cbWrite sel v =>
      exact h.withRing fun r =>
        (h.of_legal (h.toLegal.ringWrite r v) (ringWrite_frame s r v).1).respond _ _ _
  | cbRead sel =>
      exact h.withRing fun r => (h.of_legal (h.toLegal.ringRead r) (ringRead_frame s r).1).respond _ _ _
  | cbIsFull sel => exact h.withRing fun r => h.respond _ _ _
  | cbIsEmpty sel => exact h.withRing fun r => h.respond _ _ _
  | brgLoad sel baud =>
      exact h.withPort fun p _ => (h.setPort p (portInv_loadBaud (hport p) _ _) (h.idle p)).respond _ _ _
  | brgRead sel => exact h.withPort fun p _ => h.respond _ _ _
  | uartInit sel baud name => exact execUartInit_inv h sel baud name
  | uartSetRxCb sel token => exact h.withConfigured_setPort sel _ (fun p _ => hport p) (fun _ => rfl)
  | uartSetTxCb sel token => exact h.withConfigured_setPort sel _ (fun p _ => hport p) (fun _ => rfl)
  | uartRxiSet sel v =>
      exact h.withConfigured_setPort sel _ (fun p hc => portInv_enables (hport p) hc _ _ _) (fun _ => rfl)
  | uartTxiSet sel v =>
      exact h.withConfigured_setPort sel _ (fun p hc => portInv_enables (hport p) hc _ _ _) (fun _ => rfl)
  | uartTxfPut sel v => exact execUartTxfPut_inv h sel v
  | uartRxfGet sel => exact execUartRxfGet_inv h sel
  | uartStatus sel => exact h.withConfigured fun _ _ => h.respond _ _ _
  | uartIsr sel => exact execUartIsr_inv h sel
  | itcInit =>
      exact nextInv_next.2
        ((resting_clearFloor (resting_setSources h (List.length_map Source.cleared))).respond _ _ _)
  | itcSetHandler sel token => exact h.withSource_setSource sel _
  | itcSetPriority sel cls => exact h.withSource_setSource sel _
  | itcEnable sel => exact h.withSource_setSource sel _
  | itcDisable sel => exact h.withSource_setSource sel _
  | itcForce sel => exact h.withSource_setSource sel _
  | itcUnforce sel => exact h.withSource_setSource sel _
  | itcDisableInts =>
      exact nextInv_next.2 ((resting_setSources h (List.length_map Source.disabled)).respond _ _ _)
  | itcRestoreInts saved => exact nextInv_next.2 ((resting_setSources h List.length_mapIdx).respond _ _ _)
  | itcReadNivec => exact nextInv_next.2 (answerVector_inv h _)
  | itcReadFivec => exact nextInv_next.2 (answerVector_inv h _)
  | itcSvcNEnter => exact execItcSvcNEnter_inv h
  | itcSvcNReturn => exact nextInv_next.2 ((resting_clearFloor h).respond _ _ _)
  | itcSvcF => exact execItcSvcF_inv h
  | excDisableIrq => exact nextInv_next.2 (h.respond_of_regs (t := { s with coreI := true }) rfl _ _ _)
  | excDisableFiq => exact nextInv_next.2 (h.respond_of_regs (t := { s with coreF := true }) rfl _ _ _)
  | excDisableInts => exact nextInv_next.2 (h.respond_of_regs (t := { s with coreI := true, coreF := true }) rfl _ _ _)
  | excRestoreIrq saved => exact nextInv_next.2 (h.respond_of_regs (t := { s with coreI := saved.getLsbD 1 }) rfl _ _ _)
  | excRestoreFiq saved => exact nextInv_next.2 (h.respond_of_regs (t := { s with coreF := saved.getLsbD 0 }) rfl _ _ _)
  | excRestoreInts saved => exact nextInv_next.2 (h.respond_of_regs (t := s.restoreMask saved) rfl _ _ _)
  | excSetHandler sel token =>
      exact h.withTrap fun i =>
        h.respond_of_regs (t := { s with trapTable := s.trapTable.set i token }) rfl _ _ _
  | excGetHandler sel => exact h.withTrap fun t => h.respond _ _ _

/-! ### The core agent -/

theorem runWord_inv (h : Resting s) (w : Command) : NextInv (runWord w s) := by
  rw [runWord]
  split
  next i _ => exact exec_inv h i
  next => exact nextInv_next.2 (h.fail _)

theorem issueThen_inv (h : Resting s) (i : Instr) (task : Task) : NextInv (issueThen i task s) :=
  exec_inv (s := s.push [task]) (h.congr rfl) i

theorem push_inv (h : s.Inv) (ts : List Task) : NextInv (.next (s.push ts)) := nextInv_next.2 (inv_congr h rfl rfl)

theorem giveResult_inv (h : s.Inv) (st : Status) (v : Word) : NextInv (.next (s.giveResult st v)) :=
  nextInv_next.2 (inv_congr h rfl rfl)

theorem onData_inv (h : s.Inv) {k : Word → Outcome} (hk : ∀ d, NextInv (k d)) : NextInv (onData s k) := by
  rw [onData]
  split
  · exact hk _
  · exact giveResult_inv h _ _

theorem withBuffer_inv (h : s.Inv) {p : BitVec 8} {buf : Word} {k : State → Outcome} (hk : NextInv (k s)) :
    NextInv (withBuffer p buf s k) := by
  rw [withBuffer]
  split
  · exact giveResult_inv h _ _
  · split
    · exact giveResult_inv h _ _
    · exact hk

theorem nextInv_ite {c : Prop} [Decidable c] {x y : Outcome} (hx : NextInv x) (hy : ¬ c → NextInv y) :
    NextInv (if c then x else y) := by
  split
  · exact hx
  · exact hy ‹_›

theorem writeByte_inv (h : Resting s) (hb : s.busy = none) {a : Nat} (ha : a < 2 ^ 32) (v : Byte) :
    (s.writeByte a v).Inv :=
  (h.of_legal (h.toLegal.writeByte ha v) rfl).inv_of_not_busy hb

theorem runHandler_inv (h : Resting s) (hb : s.busy = none) (token : Token) : NextInv (runHandler token s) := by
  have hinv := h.inv_of_not_busy hb
  rw [runHandler]
  refine nextInv_ite (nextInv_next.2 hinv) fun _ => ?_
  split
  next p _ => exact issueThen_inv (s := { s with callbacks := [] }) (h.congr rfl) _ _
  next => exact push_inv hinv _

theorem runExternal_inv (h : s.Inv) (token : Token) : NextInv (.next (s.runExternal token)) := by
  rw [nextInv_next, State.runExternal]
  split <;> exact inv_congr h rfl rfl

/-- Each task of the core agent issues at most one command, at a command boundary, or writes a byte of its own, or
changes only the core agent's own records. -/
theorem runTask_inv (h : Resting s) (hb : s.busy = none) (task : Task) : NextInv (runTask task s) := by
  have hinv := h.inv_of_not_busy hb
  have hissue := issueThen_inv h
  cases task with
  | cmd w => exact runWord_inv h w
  | issue i => exact exec_inv h i
  | store addr v => exact nextInv_next.2 (writeByte_inv h hb addr.isLt v)
  | sendByte p c => exact hissue _ _
  | sendByteMasked p c => exact onData_inv hinv fun d => push_inv hinv _
  | sendByteLoop p c sv => exact onData_inv hinv fun _ => hissue _ _
  | sendByteTest p c sv => exact onData_inv hinv fun e => nextInv_ite (hissue _ _) fun _ => hissue _ _
  | sendByteFlush p c sv => exact onData_inv hinv fun w => hissue _ _
  | sendByteRestore p sv => exact onData_inv hinv fun _ => hissue _ _
  | receiveByte p => exact hissue _ _
  | receiveByteMasked p => exact onData_inv hinv fun _ => hissue _ _
  | receiveByteTest p => exact onData_inv hinv fun e => nextInv_ite (hissue _ _) fun _ => hissue _ _
  | receiveByteGot p => exact onData_inv hinv fun w => hissue _ _
  | send p buf count => exact withBuffer_inv hinv (hissue _ _)
  | sendLoop p buf count n => exact onData_inv hinv fun _ => nextInv_ite (hissue _ _) fun _ => hissue _ _
  | sendTest p buf count n =>
      exact onData_inv hinv fun f => nextInv_ite (hissue _ _) fun _ =>
        nextInv_ite (nextInv_fault _) fun _ => hissue _ _
  | receive p buf count => exact withBuffer_inv hinv (hissue _ _)
  | receiveLoop p buf count n => exact onData_inv hinv fun _ => nextInv_ite (hissue _ _) fun _ => hissue _ _
  | receiveTest p buf count n => exact onData_inv hinv fun e => nextInv_ite (hissue _ _) fun _ => hissue _ _
  | receiveStore p buf count n =>
      exact onData_inv hinv fun w => nextInv_ite (nextInv_fault _) fun hin =>
        push_inv (writeByte_inv h hb (Nat.not_le.1 hin) _) _
  | finish v => exact onData_inv hinv fun _ => giveResult_inv hinv _ _
  | handler cls saved token => cases cls <;> exact push_inv hinv _
  | serviceNormal => exact hissue _ _
  | serviceNormalEntered => exact nextInv_ite (nextInv_next.2 hinv) fun _ => push_inv hinv _
  | serviceFast => exact hissue _ _
  | serviceFastEntered => exact nextInv_ite (nextInv_next.2 hinv) fun _ => push_inv hinv _
  | runHandler token => exact runHandler_inv h hb token
  | runCallbacks => exact push_inv hinv _
  | external token => exact runExternal_inv hinv token
  | resume rsp callbacks => exact nextInv_next.2 (inv_congr hinv rfl rfl)

theorem coreMove_inv (h : s.Inv) : NextInv (coreMove s) := by
  rw [coreMove]
  split
  next => exact nextInv_next.2 h
  next hactive =>
    have hrest := resting_of_inv h hactive
    split
    next i _ => exact exec_inv hrest i
    next hb =>
      split
      next => exact nextInv_next.2 h
      next task rest _ => exact runTask_inv (s := { s with code := rest }) (hrest.congr rfl) hb task

/-! ### The other agents -/

theorem trapMove_inv (h : s.Inv) : s.trapMove.Inv := by
  have htake : ∀ c, (s.takeTrap c).Inv := fun c => by
    rw [s.takeTrap_eq c]
    exact inv_congr h rfl rfl
  rw [State.trapMove]
  split
  · exact htake _
  · split
    · exact htake _
    · exact h

theorem lineRx_inv (h : s.Inv) (p : Nat) (v : Byte) : (s.lineRx p v).Inv := by
  have hq := (inv_iff.1 h).1.port p
  rw [State.lineRx]
  split
  next hroom =>
    obtain ⟨hc, hlen⟩ : (s.port p).configured = true ∧ (s.port p).rxf.length < Config.fifoDepth := by
      simpa using hroom
    have hlen' : ((s.port p).rxf ++ [v]).length ≤ Config.fifoDepth := by simpa using hlen
    exact inv_setPort h p (portInv_control hq hc _ _ hlen' (txf_length_le hq) _) rfl rfl
  next => exact h

theorem lineTx_inv (h : s.Inv) (p : Nat) : (s.lineTx p).Inv := by
  have hq := (inv_iff.1 h).1.port p
  rw [State.lineTx]
  split
  next v rest hc htxf =>
    have hlen := length_le_of_eq_cons htxf (txf_length_le hq)
    exact inv_emit (inv_setPort h p (portInv_control hq hc _ _ (rxf_length_le hq) hlen _) rfl rfl) _
  next => exact h

theorem extIrq_inv (h : s.Inv) (src : Nat) (level : Bool) : (s.extIrq src level).Inv := by
  rw [State.extIrq]
  split
  next => exact h
  next => exact inv_congr h (regs_setSource s _ _) rfl

/-- The accumulator stays below the modulus: the sum of two values below twice the modulus is reduced once (R124). -/
theorem brgTick_inv (h : s.Inv) (p : Nat) : (s.brgTick p).Inv := by
  have hq := (inv_iff.1 h).1.port p
  rw [State.brgTick]
  dsimp only
  split
  next hcounts =>
    have hacc : (s.port p).brAcc.toNat < (s.port p).brMod.toNat := by
      obtain ⟨-, -, -, -, -, hacc, -⟩ := hq
      exact hacc hcounts
    have hinc : (s.port p).brInc.toNat ≤ (s.port p).brMod.toNat := by
      simp only [Port.brgCounts, Bool.and_eq_true, decide_eq_true_eq] at hcounts
      exact hcounts.2
    have hstep : ∀ acc < (s.port p).brMod.toNat,
        (s.setPort p { s.port p with brAcc := BitVec.ofNat 16 acc }).Inv :=
      fun _ hlt => inv_setPort h p (portInv_brAcc hq hlt) rfl rfl
    split
    · exact inv_emit (hstep _ (by omega)) _
    · exact hstep _ (by omega)
  next =>
    split
    · split <;> exact inv_congr h rfl rfl
    · exact h

section Sequencer
variable {p : Nat}

theorem seqRxTest_inv (h : Serving s p) : (s.seqRxTest p).Inv := by
  rw [State.seqRxTest]
  split <;> exact h.setPhase (by decide)

theorem seqRxMove_inv (h : Serving s p) (hphase : (s.port p).phase = .rxDrain) {v : Byte} {rest : List Byte}
    (hrxf : (s.port p).rxf = v :: rest) : (s.seqRxMove p v rest).Inv := by
  have hq := h.toLegal.port p
  have hlen := length_le_of_eq_cons hrxf (rxf_length_le hq)
  have htaken : Serving (s.setPort p { s.port p with rxf := rest }) p :=
    h.setPort (portInv_control hq h.configured _ _ hlen (txf_length_le hq) _) h.configured
  refine (htaken.ringWrite (rxRing p) v).inv ?_
  rw [port_eq_of_ports (ringWrite_frame _ _ _).1, s.port_setPort_self p _ h.lt]
  exact fun hidle => absurd (hphase.symm.trans hidle) (by decide)

theorem seqRxEnd_inv (h : Serving s p) : (s.seqRxEnd p).Inv := by
  have ht := h.announce .rx (s.port p).rxCb
  have hq := ht.toLegal.port p
  exact ht.inv_setPort (portInv_enables hq ht.configured _ _ _) ht.configured nofun

theorem seqTxTest_inv (h : Serving s p) : (s.seqTxTest p).Inv := by
  rw [State.seqTxTest]
  split
  · exact h.setPhase (by decide)
  · exact h.endService

theorem seqTxMove_inv (h : Serving s p) (hphase : (s.port p).phase = .txFill) (hspace : (s.port p).txSpace = true) :
    (s.seqTxMove p).Inv := by
  have ht := h.ringRead (txRing p)
  have hsame := port_eq_of_ports (ringRead_frame s (txRing p)).1 p
  have hq := ht.toLegal.port p
  have hlen : (((s.ringRead (txRing p)).2.2.port p).txf ++ [(s.ringRead (txRing p)).2.1]).length
      ≤ Config.fifoDepth := by
    rw [hsame]
    simpa [Port.txSpace] using hspace
  refine ht.inv_setPort (portInv_control hq ht.configured _ _ (rxf_length_le hq) hlen _) ht.configured fun hidle => ?_
  exact absurd (hphase.symm.trans ((congrArg Port.phase hsame).symm.trans hidle)) (by decide)

theorem seqTxEnd_inv (h : Serving s p) : (s.seqTxEnd p).Inv := by
  have ht := h.announce .tx (s.port p).txCb
  have hq := ht.toLegal.port p
  refine Serving.endService (ht.setPort ?_ ht.configured)
  exact portInv_enables hq ht.configured _ _ _

/-- Each micro-step of a running service leaves the service running, or ends it with its answer (R157 to R163). -/
theorem seqStep_inv (h : Serving s p) (hrun : (s.port p).phase ≠ .idle) : (s.seqStep p).Inv := by
  rw [State.seqStep]
  split
  next hphase => exact absurd hphase hrun
  next => exact seqRxTest_inv h
  next hphase =>
    split
    next v rest _ hrxf => exact seqRxMove_inv h hphase hrxf
    next => exact seqRxEnd_inv h
  next => exact seqTxTest_inv h
  next hphase =>
    split
    next hmove =>
      simp only [Bool.and_eq_true] at hmove
      exact seqTxMove_inv h hphase hmove.2
    next => exact seqTxEnd_inv h

end Sequencer

theorem seqMove_inv (h : s.Inv) : s.seqMove.Inv := by
  rw [State.seqMove]
  split
  next p hp => exact seqStep_inv (serving_of_inv h hp) (State.activePort_eq_some hp).2
  next => exact h

/-! ### Every step, and reset -/

theorem performMove_inv (h : s.Inv) (m : Move) : NextInv (performMove m s) := by
  cases m with
  | core => exact coreMove_inv h
  | trap => exact nextInv_next.2 (trapMove_inv h)
  | seq => exact nextInv_next.2 (seqMove_inv h)
  | lineRx p v => exact nextInv_next.2 (lineRx_inv h p v)
  | lineTx p => exact nextInv_next.2 (lineTx_inv h p)
  | extIrq src level => exact nextInv_next.2 (extIrq_inv h src level)
  | brgTick p => exact nextInv_next.2 (brgTick_inv h p)

/-- For all legal parameters, the registers after reset are legal and every sequencer is idle (R280). -/
theorem resting_resetWith {P : Params} (hP : P.Valid) : Resting (State.resetWith P) where
  params := hP
  nPorts := List.length_replicate
  nRings := List.length_replicate
  nSrc := List.length_replicate
  rings := fun _ hr => List.eq_of_mem_replicate hr ▸ ringInv_reset
  ports := fun _ hq => List.eq_of_mem_replicate hq ▸ portInv_reset
  floor := Nat.zero_le _
  mem := rfl
  idle := fun p => by
    have hp : (State.resetWith P).port p = Port.reset :=
      List.getElem?_getD_replicate_default_eq _ _ _
    rw [hp]
    rfl

theorem reference_valid : Params.reference.Valid := by decide

/-- Settles O59: reset with any legal parameters is at rest with no command in progress, and the reference parameters
are legal. -/
theorem resetMeetsInv : Obligations.ResetMeetsInv := by
  unfold Obligations.ResetMeetsInv
  exact (resting_resetWith reference_valid).inv_of_not_busy rfl

/-- Settles O60: the step is the move of one agent, and every move keeps the invariant. -/
theorem stepKeepsInv : Obligations.StepKeepsInv := by
  unfold Obligations.StepKeepsInv
  intro s t hinv hstep
  cases hagenda : s.agenda with
  | nil => exact performMove_inv hinv s.defaultMove t ((step_of_no_agenda hagenda).symm.trans hstep)
  | cons m rest =>
      have hrest : State.Inv { s with agenda := rest } := inv_congr hinv rfl rfl
      exact performMove_inv hrest m t ((step_of_agenda hagenda).symm.trans hstep)

end Sys2Proof.Proofs
end

