-- ==== Sys2Proof/Proofs/Memory.lean ====
section
/-!
PROOFS. What a step does to storage memory, and how it can end (20_memory.md R60, R62, R67).

Both statements come from one walk along the model. Each command, task, micro-step and move is given the address the
claim computes for it, and every step is shown to end safely: in a state whose memory differs by at most the byte at
that address, or in the one fault there is, an access past the top of memory.
-/

namespace Sys2Proof.Proofs

open Sys2Proof.Machine

/-- From `s` to `t` memory stays, or one byte is written at the address `a?` names. -/
def WritesAt (a? : Option Nat) (s t : State) : Prop :=
  t.mem = s.mem ∨ ∃ a v, a? = some a ∧ t.mem = s.mem.write a v

/-- A step from `s` ends safely: in a state that differs in memory at most at `a?`, or, where `past` holds, in the one
fault. No step is refused. -/
inductive Safe (a? : Option Nat) (past : Prop) (s : State) : Outcome → Prop
  | next {t : State} (h : WritesAt a? s t) : Safe a? past s (.next t)
  | fault (h : past) : Safe a? past s (.fault .addressOutside)

/-- A task whose own access would be past the top of memory (43_uart_api.md R182, R183). -/
def PastMemory (task : Task) : Prop :=
  ∃ p buf count n, 2 ^ 32 ≤ buf.toNat + n.toNat ∧
    (task = .sendTest p buf count n ∨ task = .receiveStore p buf count n)

/-- The core agent can fault: it is at a command boundary, and its next task accesses past the top of memory. -/
def CoreFaults (s : State) : Prop := s.atBoundary = true ∧ ∃ task rest, s.code = task :: rest ∧ PastMemory task

/-- The address the step of an agent stores to: `stepStores` without the choice of the agent. -/
def moveStores (s : State) : Move → Option Nat
  | .core => s.coreStores
  | .seq => s.seqStores
  | _ => none

variable {s t u : State} {a? : Option Nat} {past : Prop}

/-! ### One byte at most -/

namespace WritesAt

/-- No address, no change. -/
theorem mem_eq (h : WritesAt a? s t) (hnone : a? = none) : t.mem = s.mem := by
  obtain hmem | ⟨a, v, ha, -⟩ := h
  · exact hmem
  · cases ha.symm.trans hnone

/-- Every other byte reads as before. -/
theorem readByte_eq (h : WritesAt a? s t) {b : Nat} (hb : a? ≠ some b) : t.readByte b = s.readByte b := by
  obtain hmem | ⟨a, v, rfl, hmem⟩ := h
  · rw [State.readByte, State.readByte, hmem]
  · have hne : b ≠ a := fun hba => hb (hba ▸ rfl)
    rw [State.readByte, hmem]
    exact s.readByte_writeByte_ne a b v hne

end WritesAt

/-- What a byte reads after a store of one, at any address (20_memory.md R68). -/
theorem readByte_writeByte (s : State) (a : Nat) (v : Byte) (b : Nat) :
    (s.writeByte a v).readByte b = if b = a then v else s.readByte b := by
  split
  next hb => rw [hb, State.readByte_writeByte_self]
  next hb => exact s.readByte_writeByte_ne a b v hb

namespace Safe

/-- A step that leaves memory as it is. -/
theorem same (h : t.mem = s.mem) : Safe a? past s (.next t) := .next (.inl h)

/-- Only the memory a step starts from matters. -/
theorem of_mem {o : Outcome} (h : Safe a? past u o) (hmem : u.mem = s.mem) : Safe a? past s o := by
  cases h with
  | next hu =>
      rw [WritesAt, hmem] at hu
      exact .next hu
  | fault hpast => exact .fault hpast

theorem weaken {past' : Prop} {o : Outcome} (h : Safe a? past s o) (himp : past → past') : Safe a? past' s o := by
  cases h with
  | next ht => exact .next ht
  | fault hpast => exact .fault (himp hpast)

theorem writesAt {o : Outcome} (h : Safe a? past s o) (ho : o = .next t) : WritesAt a? s t := by
  subst ho
  cases h with
  | next ht => exact ht

theorem not_refused {o : Outcome} (h : Safe a? past s o) (r : Refusal) : o ≠ .refused r := by
  rintro rfl
  cases h

theorem past_of_fault {o : Outcome} (h : Safe a? past s o) {f : Fault} (ho : o = .fault f) :
    f = .addressOutside ∧ past := by
  subst ho
  cases h with
  | fault hpast => exact ⟨rfl, hpast⟩

end Safe

/-! ### The store of a ring -/

theorem ringStores_of_full {r : Nat} (h : (s.ring r).isFull = true) : s.ringStores r = none := if_pos h

theorem ringStores_of_room {r : Nat} (h : (s.ring r).isFull = false) :
    s.ringStores r = some ((s.ring r).slot (s.ring r).wr).toNat := if_neg (by simp [h])

/-- The only byte a write to a ring can store is the one at its write index. -/
theorem ringStores_ne {r b : Nat} (hb : b ≠ ((s.ring r).slot (s.ring r).wr).toNat) : s.ringStores r ≠ some b := by
  cases hfull : (s.ring r).isFull
  · rw [ringStores_of_room hfull]
    exact fun h => hb (Option.some.inj h).symm
  · rw [ringStores_of_full hfull]
    nofun

/-- A ring that does not exist reads as an unbound one, which reports full (10_state.md R24). -/
theorem ringStores_of_ge {r : Nat} (h : s.nRings ≤ r) : s.ringStores r = none :=
  ringStores_of_full (by rw [s.ring_of_ge r h]; rfl)

theorem ringWrite_writesAt (s : State) (r : Nat) (v : Byte) : WritesAt (s.ringStores r) s (s.ringWrite r v).2 := by
  rcases s.ringWrite_cases r v with ⟨-, he⟩ | ⟨hroom, he⟩ <;> rw [he]
  · exact .inl rfl
  · exact .inr ⟨_, v, ringStores_of_room hroom, rfl⟩

theorem ringRead_mem (s : State) (r : Nat) : (s.ringRead r).2.2.mem = s.mem := by
  rcases s.ringRead_cases r with ⟨-, he⟩ | ⟨-, he⟩
  · rw [he]
  · rw [he]
    rfl

/-! ### The operand checks and the shared operations store nothing of their own -/

section Operands
variable {sel : BitVec 8} {k : Nat → State}

theorem withRing_writesAt (hk : WritesAt a? s (k sel.toNat)) : WritesAt a? s (withRing sel s k) := by
  rcases withRing_cases (sel := sel) (s := s) (k := k) with ⟨-, he⟩ | ⟨-, he⟩ <;> rw [he]
  · exact .inl rfl
  · exact hk

theorem withRing_mem (hk : (k sel.toNat).mem = s.mem) : (withRing sel s k).mem = s.mem :=
  (withRing_writesAt (.inl hk)).mem_eq rfl

theorem withPort_mem (hk : (k sel.toNat).mem = s.mem) : (withPort sel s k).mem = s.mem := by
  rcases withPort_cases (sel := sel) (s := s) (k := k) with ⟨-, he⟩ | ⟨-, he⟩ <;> rw [he]
  · rfl
  · exact hk

theorem withConfigured_mem (hk : (k sel.toNat).mem = s.mem) : (withConfigured sel s k).mem = s.mem := by
  rcases withConfigured_cases (sel := sel) (s := s) (k := k) with ⟨-, he⟩ | ⟨-, -, he⟩ <;> rw [he]
  · rfl
  · exact hk

theorem withSource_mem (hk : (k sel.toNat).mem = s.mem) : (withSource sel s k).mem = s.mem := by
  rcases withSource_cases (sel := sel) (s := s) (k := k) with ⟨-, he⟩ | ⟨-, he⟩ <;> rw [he]
  · rfl
  · exact hk

theorem withTrap_mem {k : Fin Config.nTraps → State} (hk : ∀ i, (k i).mem = s.mem) :
    (withTrap sel s k).mem = s.mem := by
  rcases withTrap_cases (sel := sel) (s := s) (kt := k) with ⟨-, he⟩ | ⟨hlt, he⟩ <;> rw [he]
  · rfl
  · exact hk _

end Operands

theorem announce_mem (s : State) (p : Nat) (d : Dir) (token : Token) : (s.announce p d token).mem = s.mem := by
  rcases s.announce_cases p d token with ⟨-, he⟩ | ⟨-, he⟩ <;> rw [he]

theorem answerVector_mem (s : State) (v : Option Nat) : (s.answerVector v).mem = s.mem := by
  cases v <;> rfl

/-! ### The commands -/

theorem execCbInit_safe (sel : BitVec 8) (base : Word) (cap : Half) : Safe none past s (execCbInit sel base cap s) := by
  refine .same (withRing_mem ?_)
  split
  · rfl
  · split <;> rfl

theorem execUartInit_safe (sel : BitVec 8) (baud name : Word) : Safe none past s (execUartInit sel baud name s) := by
  refine .same (withPort_mem ?_)
  split <;> rfl

theorem execUartTxfPut_safe (sel : BitVec 8) (v : Byte) : Safe none past s (execUartTxfPut sel v s) := by
  refine .same (withConfigured_mem ?_)
  split <;> rfl

theorem execUartRxfGet_safe (sel : BitVec 8) : Safe none past s (execUartRxfGet sel s) := by
  refine .same (withConfigured_mem ?_)
  split <;> rfl

theorem execItcSvcNEnter_safe : Safe none past s (execItcSvcNEnter s) := by
  refine .same ?_
  split <;> rfl

theorem execItcSvcF_safe : Safe none past s (execItcSvcF s) := by
  refine .same ?_
  split <;> rfl

/-- Every command ends in a next state, and only an accepted `CB_WRITE` stores (20_memory.md R67). -/
theorem exec_safe (s : State) (i : Instr) : Safe (s.commandStores i) past s (exec i s) := by
  cases i with
  | cbInit sel base cap => exact execCbInit_safe sel base cap
  | cbWrite sel v => exact .next (withRing_writesAt (ringWrite_writesAt s sel.toNat v))
  | cbRead sel => exact .same (withRing_mem (ringRead_mem s sel.toNat))
  | cbIsFull sel => exact .same (withRing_mem rfl)
  | cbIsEmpty sel => exact .same (withRing_mem rfl)
  | brgLoad sel baud => exact .same (withPort_mem rfl)
  | brgRead sel => exact .same (withPort_mem rfl)
  | uartInit sel baud name => exact execUartInit_safe sel baud name
  | uartSetRxCb sel token => exact .same (withConfigured_mem rfl)
  | uartSetTxCb sel token => exact .same (withConfigured_mem rfl)
  | uartRxiSet sel v => exact .same (withConfigured_mem rfl)
  | uartTxiSet sel v => exact .same (withConfigured_mem rfl)
  | uartTxfPut sel v => exact execUartTxfPut_safe sel v
  | uartRxfGet sel => exact execUartRxfGet_safe sel
  | uartStatus sel => exact .same (withConfigured_mem rfl)
  | uartIsr sel => exact .same (withConfigured_mem rfl)
  | itcInit => exact .same rfl
  | itcSetHandler sel token => exact .same (withSource_mem rfl)
  | itcSetPriority sel cls => exact .same (withSource_mem rfl)
  | itcEnable sel => exact .same (withSource_mem rfl)
  | itcDisable sel => exact .same (withSource_mem rfl)
  | itcForce sel => exact .same (withSource_mem rfl)
  | itcUnforce sel => exact .same (withSource_mem rfl)
  | itcDisableInts => exact .same rfl
  | itcRestoreInts saved => exact .same rfl
  | itcReadNivec => exact .same (answerVector_mem s _)
  | itcReadFivec => exact .same (answerVector_mem s _)
  | itcSvcNEnter => exact execItcSvcNEnter_safe
  | itcSvcNReturn => exact .same rfl
  | itcSvcF => exact execItcSvcF_safe
  | excDisableIrq => exact .same rfl
  | excDisableFiq => exact .same rfl
  | excDisableInts => exact .same rfl
  | excRestoreIrq saved => exact .same rfl
  | excRestoreFiq saved => exact .same rfl
  | excRestoreInts saved => exact .same rfl
  | excSetHandler sel token => exact .same (withTrap_mem fun _ => rfl)
  | excGetHandler sel => exact .same (withTrap_mem fun _ => rfl)

theorem exec_writesAt {i : Instr} (h : exec i s = .next t) : WritesAt (s.commandStores i) s t :=
  (exec_safe (past := False) s i).writesAt h

theorem commandStores_of_ne_cbWrite {i : Instr} (h : ∀ sel v, i ≠ .cbWrite sel v) : s.commandStores i = none := by
  cases i with
  | cbWrite sel v => exact absurd rfl (h sel v)
  | _ => rfl

/-! ### The core agent -/

theorem runWord_safe (s : State) (w : Command) : Safe (s.taskStores (.cmd w)) past s (runWord w s) := by
  rw [runWord, State.taskStores]
  cases decode w with
  | ok i => exact exec_safe s i
  | error e => exact .same rfl

/-- A task that issues a command stores what the command stores. -/
theorem issueThen_safe (past : Prop) (s : State) (i : Instr) (task : Task) :
    Safe (s.commandStores i) past s (issueThen i task s) :=
  (exec_safe (s.push [task]) i).of_mem rfl

theorem ite_safe {c : Prop} [Decidable c] {x y : Outcome} (hx : c → Safe a? past s x) (hy : ¬ c → Safe a? past s y) :
    Safe a? past s (if c then x else y) := by
  split
  next hc => exact hx hc
  next hc => exact hy hc

/-- An error status ends the pseudo-instruction with nothing stored. -/
theorem onData_safe {k : Word → Outcome} (hk : s.lastRsp.status = .ok → Safe a? past s (k s.lastRsp.data)) :
    Safe a? past s (onData s k) :=
  ite_safe hk fun _ => .same rfl

theorem withBuffer_safe {p : BitVec 8} {buf : Word} {k : State → Outcome} (hk : Safe a? past s (k s)) :
    Safe a? past s (withBuffer p buf s k) :=
  ite_safe (fun _ => .same rfl) fun _ => ite_safe (fun _ => .same rfl) fun _ => hk

theorem runHandler_safe (s : State) (token : Token) : Safe none past s (runHandler token s) := by
  refine ite_safe (fun _ => .same rfl) fun _ => ?_
  split
  next p _ => exact (issueThen_safe past { s with callbacks := [] } (.uartIsr p) _).of_mem rfl
  next => exact .same rfl

theorem runExternal_mem (s : State) (token : Token) : (s.runExternal token).mem = s.mem := by
  rw [State.runExternal]
  split <;> rfl

/-- A step of `UART_SEND` reads the next byte and writes it to the TX ring, unless the ring is full or the byte is past
the top of memory (43_uart_api.md R182). -/
theorem sendTest_safe (s : State) (p : BitVec 8) (buf count n : Word) :
    Safe (s.taskStores (.sendTest p buf count n)) (PastMemory (.sendTest p buf count n)) s
      (runTask (.sendTest p buf count n) s) := by
  rw [runTask]
  refine onData_safe fun hok => ite_safe (fun hfull => ?_) fun hroom => ite_safe (fun hpast => ?_) fun _ => ?_
  · have hnone : s.taskStores (.sendTest p buf count n) = none := if_neg fun ⟨_, hroom⟩ => hroom hfull
    rw [hnone]
    exact issueThen_safe _ s (.uartTxiSet p 1) _
  · exact .fault ⟨p, buf, count, n, hpast, .inl rfl⟩
  · have hslot : s.taskStores (.sendTest p buf count n) = s.ringStores (txRingSel p).toNat := if_pos ⟨hok, hroom⟩
    rw [hslot]
    exact issueThen_safe _ s (.cbWrite (txRingSel p) _) _

/-- A step of `UART_RECEIVE` stores the byte it has read at `buf + n`, unless that is past the top of memory (R183). -/
theorem receiveStore_safe (s : State) (p : BitVec 8) (buf count n : Word) :
    Safe (s.taskStores (.receiveStore p buf count n)) (PastMemory (.receiveStore p buf count n)) s
      (runTask (.receiveStore p buf count n) s) := by
  rw [runTask]
  refine onData_safe fun hok => ite_safe (fun hpast => ?_) fun _ => ?_
  · exact .fault ⟨p, buf, count, n, hpast, .inr rfl⟩
  · exact .next (.inr ⟨_, _, if_pos hok, rfl⟩)

/-- Each task of the core agent stores at most the one byte computed for it, and faults only past the top of memory. -/
theorem runTask_safe (s : State) (task : Task) : Safe (s.taskStores task) (PastMemory task) s (runTask task s) := by
  have hissue := fun i => issueThen_safe (PastMemory task) s i
  unfold runTask
  cases task with
  | cmd w => exact runWord_safe s w
  | issue i => exact exec_safe s i
  | store addr v => exact .next (.inr ⟨_, v, rfl, rfl⟩)
  | sendByte p c => exact hissue (.uartTxiSet p 0) _
  | sendByteMasked p c => exact onData_safe fun _ => .same rfl
  | sendByteLoop p c sv => exact onData_safe fun _ => hissue (.cbIsEmpty _) _
  | sendByteTest p c sv =>
      exact onData_safe fun _ => ite_safe (fun _ => hissue (.uartTxfPut p c) _) fun _ => hissue (.cbRead _) _
  | sendByteFlush p c sv => exact onData_safe fun _ => hissue (.uartTxfPut p _) _
  | sendByteRestore p sv => exact onData_safe fun _ => hissue (.uartTxiSet p sv) _
  | receiveByte p => exact hissue (.uartRxiSet p 0) _
  | receiveByteMasked p => exact onData_safe fun _ => hissue (.cbIsEmpty _) _
  | receiveByteTest p =>
      exact onData_safe fun _ => ite_safe (fun _ => hissue (.cbRead _) _) fun _ => hissue (.uartRxfGet p) _
  | receiveByteGot p => exact onData_safe fun _ => hissue (.uartRxiSet p 1) _
  | send p buf count => exact withBuffer_safe (hissue (.uartTxiSet p 0) _)
  | sendLoop p buf count n =>
      exact onData_safe fun _ => ite_safe (fun _ => hissue (.cbIsFull _) _) fun _ => hissue (.uartTxiSet p 1) _
  | sendTest p buf count n => exact sendTest_safe s p buf count n
  | receive p buf count => exact withBuffer_safe (hissue (.uartRxiSet p 0) _)
  | receiveLoop p buf count n =>
      exact onData_safe fun _ => ite_safe (fun _ => hissue (.cbIsEmpty _) _) fun _ => hissue (.uartRxiSet p 1) _
  | receiveTest p buf count n =>
      exact onData_safe fun _ => ite_safe (fun _ => hissue (.uartRxiSet p 1) _) fun _ => hissue (.cbRead _) _
  | receiveStore p buf count n => exact receiveStore_safe s p buf count n
  | finish v => exact onData_safe fun _ => .same rfl
  | handler cls saved token => cases cls <;> exact .same rfl
  | serviceNormal => exact hissue .itcSvcNEnter _
  | serviceNormalEntered => exact ite_safe (fun _ => .same rfl) fun _ => .same rfl
  | serviceFast => exact hissue .itcSvcF _
  | serviceFastEntered => exact ite_safe (fun _ => .same rfl) fun _ => .same rfl
  | runHandler token => exact runHandler_safe s token
  | runCallbacks => exact .same rfl
  | external token => exact .same (runExternal_mem s token)
  | resume rsp callbacks => exact .same rfl

/-- The core agent ends safely: held command, next task, or nothing to do. -/
theorem coreMove_safe (s : State) : Safe s.coreStores (CoreFaults s) s (coreMove s) := by
  cases hactive : s.activePort with
  | some p =>
      simp only [coreMove, hactive]
      exact .same rfl
  | none =>
      cases hbusy : s.busy with
      | some i =>
          simp only [coreMove, State.coreStores, hactive, hbusy]
          exact exec_safe s i
      | none =>
          cases hcode : s.code with
          | nil =>
              simp only [coreMove, hactive, hbusy, hcode]
              exact .same rfl
          | cons task rest =>
              have hboundary : s.atBoundary = true := State.atBoundary_iff.2 ⟨hbusy, hactive⟩
              have hstores : s.coreStores = State.taskStores { s with code := rest } task := by
                simp only [State.coreStores, hactive, hbusy, hcode]
                cases task <;> rfl
              rw [coreMove_of_boundary hboundary hcode, hstores]
              have htask := (runTask_safe { s with code := rest } task).of_mem (s := s) rfl
              exact htask.weaken fun hpast => ⟨hboundary, task, rest, hcode, hpast⟩

/-! ### The other agents -/

theorem trapMove_mem (s : State) : s.trapMove.mem = s.mem := by
  rw [State.trapMove]
  split
  · rfl
  · split <;> rfl

theorem lineRx_mem (s : State) (p : Nat) (v : Byte) : (s.lineRx p v).mem = s.mem := by
  rw [State.lineRx]
  split <;> rfl

theorem lineTx_mem (s : State) (p : Nat) : (s.lineTx p).mem = s.mem := by
  rw [State.lineTx]
  split <;> rfl

theorem extIrq_mem (s : State) (src : Nat) (level : Bool) : (s.extIrq src level).mem = s.mem := by
  rw [State.extIrq]
  split <;> rfl

theorem brgTick_mem (s : State) (p : Nat) : (s.brgTick p).mem = s.mem := by
  rw [State.brgTick]
  dsimp only
  split
  · split <;> rfl
  · split
    · split <;> rfl
    · rfl

theorem seqRxTest_mem (s : State) (p : Nat) : (s.seqRxTest p).mem = s.mem := by
  rw [State.seqRxTest]
  split <;> rfl

theorem seqTxTest_mem (s : State) (p : Nat) : (s.seqTxTest p).mem = s.mem := by
  rw [State.seqTxTest]
  split <;> rfl

/-- In `RX_DRAIN` the micro-step is `SEQ_RX_MOVE`, where a byte waits and the ring has room, or `SEQ_RX_END` (R158,
R159). -/
theorem seqStep_rxDrain_cases {p : Nat} (hphase : (s.port p).phase = .rxDrain) :
    (∃ v rest, (s.port p).rxf = v :: rest ∧ s.seqStep p = s.seqRxMove p v rest) ∨ s.seqStep p = s.seqRxEnd p := by
  simp only [State.seqStep, hphase]
  split
  next v rest _ hrxf => exact .inl ⟨v, rest, hrxf, rfl⟩
  next => exact .inr rfl

theorem seqStep_mem {p : Nat} (hphase : (s.port p).phase ≠ .rxDrain) : (s.seqStep p).mem = s.mem := by
  rw [State.seqStep]
  split
  next => rfl
  next => exact seqRxTest_mem s p
  next hdrain => exact absurd hdrain hphase
  next => exact seqTxTest_mem s p
  next =>
    split
    · exact ringRead_mem s (txRing p)
    · exact announce_mem s p .tx _

/-- Of the micro-steps only `SEQ_RX_MOVE` stores, the head of the RX FIFO into the RX ring (42_uart_seq.md R158). -/
theorem seqStep_writesAt (s : State) (p : Nat) :
    WritesAt (if (s.port p).phase = .rxDrain ∧ (s.port p).rxf ≠ [] then s.ringStores (rxRing p) else none) s
      (s.seqStep p) := by
  by_cases hphase : (s.port p).phase = .rxDrain
  · obtain ⟨v, rest, hrxf, he⟩ | he := seqStep_rxDrain_cases hphase
    · have hwaits : (s.port p).rxf ≠ [] := hrxf ▸ List.cons_ne_nil v rest
      rw [he, if_pos ⟨hphase, hwaits⟩]
      exact ringWrite_writesAt (s.setPort p { s.port p with rxf := rest }) (rxRing p) v
    · rw [he]
      exact .inl (announce_mem s p .rx _)
  · exact .inl (seqStep_mem hphase)

theorem seqMove_writesAt (s : State) : WritesAt s.seqStores s s.seqMove := by
  rw [State.seqMove, State.seqStores]
  cases s.activePort with
  | some p => exact seqStep_writesAt s p
  | none => exact .inl rfl

/-! ### Every step -/

theorem performMove_safe (s : State) (m : Move) : Safe (moveStores s m) (CoreFaults s) s (performMove m s) := by
  cases m with
  | core => exact coreMove_safe s
  | trap => exact .same (trapMove_mem s)
  | seq => exact .next (seqMove_writesAt s)
  | lineRx p v => exact .same (lineRx_mem s p v)
  | lineTx p => exact .same (lineTx_mem s p)
  | extIrq src level => exact .same (extIrq_mem s src level)
  | brgTick p => exact .same (brgTick_mem s p)

theorem performMove_writesAt {m : Move} (h : performMove m s = .next t) : WritesAt (moveStores s m) s t :=
  (performMove_safe s m).writesAt h

theorem moveStores_of_ne {m : Move} (hcore : m ≠ .core) (hseq : m ≠ .seq) : moveStores s m = none := by
  cases m with
  | core => exact absurd rfl hcore
  | seq => exact absurd rfl hseq
  | _ => rfl

theorem stepStores_eq (s : State) : s.stepStores = moveStores s (s.agenda.head?.getD s.defaultMove) := by
  rw [State.stepStores]
  cases s.agenda.head?.getD s.defaultMove <;> rfl

/-- Every step stores at most the one byte computed for it, is not refused, and faults only in the core agent's own
access past the top of memory. -/
theorem step_safe (s : State) : Safe s.stepStores (CoreFaults s) s (step s) := by
  rw [stepStores_eq]
  cases hagenda : s.agenda with
  | nil =>
      rw [step_of_no_agenda hagenda]
      exact performMove_safe s s.defaultMove
  | cons m rest =>
      rw [step_of_agenda hagenda]
      have hmove := (performMove_safe { s with agenda := rest } m).of_mem (s := s) rfl
      have hstores : moveStores { s with agenda := rest } m = moveStores s m := by cases m <;> rfl
      rw [hstores] at hmove
      exact hmove

theorem step_writesAt (h : step s = .next t) : WritesAt s.stepStores s t := (step_safe s).writesAt h

/-- Settles O9: a step that ends safely is not refused, and its one fault is the next task's own. -/
theorem stepNeverRefuses : Obligations.StepNeverRefuses := by
  unfold Obligations.StepNeverRefuses
  intro s
  refine ⟨(step_safe s).not_refused, fun f hf => ?_⟩
  obtain ⟨hf, hboundary, task, rest, hcode, p, buf, count, n, hpast, htask⟩ := (step_safe s).past_of_fault hf
  refine ⟨hf, hboundary, p, buf, count, n, rest, hpast, ?_⟩
  obtain rfl | rfl := htask
  · exact .inl hcode
  · exact .inr hcode

/-! ### Each form of store, with its own address -/

/-- `CB_WRITE` stores at most at the write slot, and a rejected one stores nothing (40_ring.md R102). -/
theorem cbWrite_stores_at_slot (sel : BitVec 8) (v : Byte) (h : exec (.cbWrite sel v) s = .next t) :
    (∀ b ≠ ((s.ring sel.toNat).slot (s.ring sel.toNat).wr).toNat, t.readByte b = s.readByte b) ∧
    ((s.nRings ≤ sel.toNat ∨ (s.ring sel.toNat).isFull = true) → t.mem = s.mem) := by
  have hwrites : WritesAt (s.ringStores sel.toNat) s t := exec_writesAt h
  exact ⟨fun b hb => hwrites.readByte_eq (ringStores_ne hb), fun hrejected =>
    hwrites.mem_eq (hrejected.elim ringStores_of_ge ringStores_of_full)⟩

/-- The running sequencer stores at most at the write slot of the RX ring, and only with a byte to move into a ring with
room (42_uart_seq.md R158, R159). -/
theorem sequencer_stores_at_slot {p : Nat} {x : Phase} (hrun : s.Running p x) (h : performMove .seq s = .next t) :
    (∀ b ≠ ((s.ring (rxRing p)).slot (s.ring (rxRing p)).wr).toNat, t.readByte b = s.readByte b) ∧
    ((x ≠ .rxDrain ∨ (s.port p).rxf = [] ∨ (s.ring (rxRing p)).isFull = true) → t.mem = s.mem) := by
  obtain rfl : s.seqStep p = t := by
    simpa using (performMove_seq hrun).symm.trans h
  obtain ⟨-, rfl, -, -⟩ := hrun
  have hwrites := seqStep_writesAt s p
  constructor
  · intro b hb
    refine hwrites.readByte_eq ?_
    split
    · exact ringStores_ne hb
    · nofun
  · rintro (hphase | hempty | hfull)
    · exact seqStep_mem hphase
    · exact hwrites.mem_eq (if_neg fun ⟨_, hwaits⟩ => hwaits hempty)
    · exact hwrites.mem_eq (by rw [ringStores_of_full hfull, ite_self])

/-- The core agent's own store, at a command boundary (20_memory.md R62). -/
theorem store_writes_operand {addr : Word} {v : Byte} {rest : List Task} (hboundary : s.atBoundary = true)
    (hcode : s.code = .store addr v :: rest) :
    ∃ t, performMove .core s = .next t ∧ ∀ b, t.readByte b = if b = addr.toNat then v else s.readByte b :=
  ⟨_, coreMove_of_boundary hboundary hcode, readByte_writeByte { s with code := rest } addr.toNat v⟩

/-- `UART_RECEIVE` stores the byte of the last response at `buf + n` (43_uart_api.md R183). -/
theorem receiveStore_writes_buffer {p aux : BitVec 8} {buf count n d : Word} {rest : List Task}
    (hboundary : s.atBoundary = true) (hcode : s.code = .receiveStore p buf count n :: rest)
    (hrsp : s.rsp = answer aux d) (hin : buf.toNat + n.toNat < 2 ^ 32) :
    ∃ t, performMove .core s = .next t ∧
      ∀ b, t.readByte b = if b = buf.toNat + n.toNat then d.setWidth 8 else s.readByte b := by
  have hrun : performMove .core s = .next ((State.writeByte { s with code := rest } (buf.toNat + n.toNat)
      (d.setWidth 8)).push [.receiveLoop p buf count (n + 1)]) := by
    refine (coreMove_of_boundary hboundary hcode).trans ?_
    simpa [runTask, onData, State.lastRsp, hrsp] using hin
  exact ⟨_, hrun, readByte_writeByte { s with code := rest } (buf.toNat + n.toNat) (d.setWidth 8)⟩

/-- Settles O56: the clauses are read off `step_safe`, `exec_safe`, `performMove_safe` and `seqStep_writesAt`; the two
stores of the core agent's own are run. -/
theorem storesAreOneByte : Obligations.StoresAreOneByte := by
  unfold Obligations.StoresAreOneByte
  refine ⟨fun s t hstep => ⟨fun a ha b hb => ?_, (step_writesAt hstep).mem_eq⟩, fun i s t hexec hi => ?_,
    fun sel v s t => cbWrite_stores_at_slot sel v, fun m s t hmove hcore hseq => ?_,
    fun s t p x => sequencer_stores_at_slot, fun s addr v rest => store_writes_operand,
    fun s p aux buf count n d rest => receiveStore_writes_buffer⟩
  · have hother : s.stepStores ≠ some b := fun h => hb (Option.some.inj (h.symm.trans ha))
    exact (step_writesAt hstep).readByte_eq hother
  · exact (exec_writesAt hexec).mem_eq (commandStores_of_ne_cbWrite hi)
  · exact (performMove_writesAt hmove).mem_eq (moveStores_of_ne hcore hseq)

end Sys2Proof.Proofs
end

