-- ==== Sys2Proof/Proofs/Encoding.lean ====
section
/-!
PROOFS. The decoder, the encoder and the opcode table say the same (30_encoding.md R80 to R87).

The opcode map is read three ways, once each: from a command to its arm (`decode_encode`), from an arm to the encoder's
word (`encode_of_opcodeMap`), and from a row of the table to its arm (`hasArm_of_mem`). The rest is the decoder's own
two checks (`decode_eq_ok_iff`) beside a row's mask and match (`accepts_ofFormat_iff`).
-/

namespace Sys2Proof.Proofs

variable {w : Command} {op sel : BitVec 8} {a b : Word} {f : Format} {i : Instr} {row : Row}

/-! ### The decoder's two checks -/

/-- A word decodes exactly where its opcode is in the map and the must-be-zero fields of the format are zero (R86). -/
theorem decode_eq_ok_iff : decode w = .ok i ↔
    ∃ f, opcodeMap (opOf w) (selOf w) (aOf w) (bOf w) = some (f, i) ∧
      f.zerosHold (selOf w) (aOf w) (bOf w) = true := by
  rw [decode]
  split
  next hreserved => simp [hreserved]
  next g j hmap =>
    rw [hmap]
    split
    next hz =>
      constructor
      · rintro ⟨⟩
        exact ⟨g, rfl, hz⟩
      · rintro ⟨_, ⟨⟩, -⟩
        rfl
    next hnz =>
      constructor
      · nofun
      · rintro ⟨_, ⟨⟩, hz⟩
        exact absurd hz hnz

theorem decode_packCommand (hmap : opcodeMap op sel a b = some (f, i)) (hz : f.zerosHold sel a b = true) :
    decode (packCommand op sel a b) = .ok i :=
  decode_eq_ok_iff.2 ⟨f, by simpa using hmap, by simpa using hz⟩

/-! ### From a command to its arm of the map -/

open Laws.EncodeMatchesRow in
/-- The commands with an operand narrower than its field, by the width of that operand; in every other command the
operands fill their fields, and the arm of the map is read off. -/
theorem decode_encode (i : Instr) : decode (encode i) = .ok i := by
  cases i with
  | cbInit _ _ cap => exact decode_packCommand (by simp [opcodeMap]) (zeros_sac cap)
  | cbWrite _ v | uartTxfPut _ v => exact decode_packCommand (by simp [opcodeMap]) (zeros_sb8 v)
  | uartRxiSet _ v | uartTxiSet _ v | itcSetPriority _ v =>
      exact decode_packCommand (by simp [opcodeMap]) (zeros_sb1 v)
  | excRestoreIrq saved | excRestoreFiq saved | excRestoreInts saved =>
      exact decode_packCommand (by simp [opcodeMap]) (zeros_b2 saved)
  | _ => exact decode_packCommand rfl rfl

/-- Settles O1: every command's arm of the map, with its must-be-zero fields, is the decoder's answer. -/
theorem decodeOfEncode : Obligations.DecodeOfEncode := decode_encode

/-! ### From an arm of the map to the encoder's word -/

/-- The word with the four fields given, every must-be-zero bit of the format cleared (R83). -/
def clearedWord (op sel : BitVec 8) (a b : Word) : Format → Command
  | .z => packCommand op 0 0 0
  | .s => packCommand op sel 0 0
  | .a => packCommand op 0 a 0
  | .sa => packCommand op sel a 0
  | .sab => packCommand op sel a b
  | .sac => packCommand op sel a ((b.setWidth 16).setWidth 32)
  | .sb8 => packCommand op sel 0 ((b.setWidth 8).setWidth 32)
  | .sb1 => packCommand op sel 0 ((b.setWidth 1).setWidth 32)
  | .b2 => packCommand op 0 0 ((b.setWidth 2).setWidth 32)

/-- A field whose bits from `n` up are zero is its low `n` bits. -/
theorem setWidth_setWidth_of_high_eq_zero (n : Nat) (hz : b.extractLsb' n (32 - n) = 0) :
    (b.setWidth n).setWidth 32 = b := by
  apply BitVec.eq_of_getLsbD_eq
  intro j hj
  by_cases hlow : j < n
  · simp [hlow, hj]
  · have hbit := congrArg (fun x => x.getLsbD (j - n)) hz
    have hbit : b.getLsbD j = false := by
      simpa [BitVec.getLsbD_extractLsb', show j - n < 32 - n by omega, show n + (j - n) = j by omega] using hbit
    simp [hlow, hbit]

/-- Where the must-be-zero fields hold there is nothing to clear. -/
theorem clearedWord_of_zerosHold (hz : f.zerosHold sel a b = true) :
    clearedWord op sel a b f = packCommand op sel a b := by
  cases f <;> simp only [Format.zerosHold, Bool.and_eq_true, beq_iff_eq] at hz
  case z => obtain ⟨⟨rfl, rfl⟩, rfl⟩ := hz; rfl
  case s => obtain ⟨rfl, rfl⟩ := hz; rfl
  case a => obtain ⟨rfl, rfl⟩ := hz; rfl
  case sa => subst hz; rfl
  case sab => rfl
  case sac => rw [clearedWord, setWidth_setWidth_of_high_eq_zero 16 hz]
  case sb8 => obtain ⟨rfl, hb⟩ := hz; rw [clearedWord, setWidth_setWidth_of_high_eq_zero 8 hb]
  case sb1 => obtain ⟨rfl, hb⟩ := hz; rw [clearedWord, setWidth_setWidth_of_high_eq_zero 1 hb]
  case b2 => obtain ⟨⟨rfl, rfl⟩, hb⟩ := hz; rw [clearedWord, setWidth_setWidth_of_high_eq_zero 2 hb]

/-- In every arm the command holds all the bits that its format uses, and no others. -/
theorem encode_of_opcodeMap (hmap : opcodeMap op sel a b = some (f, i)) : encode i = clearedWord op sel a b f := by
  unfold opcodeMap at hmap
  split at hmap <;> cases hmap <;> rfl

theorem encode_of_decode (h : decode w = .ok i) : encode i = w := by
  obtain ⟨f, hmap, hz⟩ := decode_eq_ok_iff.1 h
  rw [encode_of_opcodeMap hmap, clearedWord_of_zerosHold hz, packCommand_fields]

/-- Settles O2: the encoder clears the bits a format does not use, and a word that decodes has none of them set. -/
theorem encodeOfDecode : Obligations.EncodeOfDecode := fun _ _ => encode_of_decode

/-! ### From a row of the table to its arm of the map -/

/-- The mask and match of a row made from a format are the decoder's two checks (R86). -/
theorem accepts_ofFormat_iff {m : String} : (Row.ofFormat m op f).accepts w = true ↔
    opOf w = op ∧ f.zerosHold (selOf w) (aOf w) (bOf w) = true := by
  rw [← packCommand_fields w, accepts_ofFormat]
  simp

/-- An arm of the map has the row's opcode, its format and, whatever the operands, its mnemonic. -/
def HasArm (row : Row) : Prop :=
  ∃ op f, row = Row.ofFormat row.mnemonic op f ∧
    ∀ sel a b, ∃ i, opcodeMap op sel a b = some (f, i) ∧ i.mnemonic = row.mnemonic

theorem hasArm_of_mem : ∀ row ∈ opcodeTable, HasArm row := by
  simp only [opcodeTable, opcodeRowsLow, opcodeRowsHigh, List.cons_append, List.nil_append, List.forall_mem_cons,
    List.not_mem_nil, false_implies, implies_true, and_true]
  and_intros <;> exact ⟨_, _, rfl, fun _ _ _ => ⟨_, rfl, rfl⟩⟩

theorem decode_of_accepts (hrow : row ∈ opcodeTable) (hacc : row.accepts w = true) :
    ∃ i, decode w = .ok i ∧ i.mnemonic = row.mnemonic := by
  obtain ⟨op, f, hformat, hentry⟩ := hasArm_of_mem row hrow
  rw [hformat] at hacc
  obtain ⟨rfl, hz⟩ := accepts_ofFormat_iff.1 hacc
  obtain ⟨i, hmap, hname⟩ := hentry (selOf w) (aOf w) (bOf w)
  exact ⟨i, decode_eq_ok_iff.2 ⟨f, hmap, hz⟩, hname⟩

/-- A row accepts only words of its own opcode. -/
theorem opOf_of_accepts (hrow : row ∈ opcodeTable) (hacc : row.accepts w = true) : opOf row.value = opOf w := by
  obtain ⟨op, f, hformat, -⟩ := hasArm_of_mem row hrow
  rw [hformat] at hacc ⊢
  rw [(accepts_ofFormat_iff.1 hacc).1]
  exact opOf_packCommand op 0 0 0

/-- The rows have 38 different opcodes (R85). -/
theorem opcodes_distinct : opcodeTable.Pairwise fun x y => opOf x.value ≠ opOf y.value := by decide

open Laws in
/-- The model's laws of one command each, put together. -/
theorem row_accepts_encode (i : Instr) : EncodeMatchesRow.Statement i := by
  cases i with
  | cbInit ring base cap => exact EncodeMatchesRow.cbInit ring base cap
  | cbWrite ring v => exact EncodeMatchesRow.cbWrite ring v
  | cbRead ring => exact EncodeMatchesRow.cbRead ring
  | cbIsFull ring => exact EncodeMatchesRow.cbIsFull ring
  | cbIsEmpty ring => exact EncodeMatchesRow.cbIsEmpty ring
  | brgLoad port baud => exact EncodeMatchesRow.brgLoad port baud
  | brgRead port => exact EncodeMatchesRow.brgRead port
  | uartInit port baud name => exact EncodeMatchesRow.uartInit port baud name
  | uartSetRxCb port token => exact EncodeMatchesRow.uartSetRxCb port token
  | uartSetTxCb port token => exact EncodeMatchesRow.uartSetTxCb port token
  | uartRxiSet port v => exact EncodeMatchesRow.uartRxiSet port v
  | uartTxiSet port v => exact EncodeMatchesRow.uartTxiSet port v
  | uartTxfPut port v => exact EncodeMatchesRow.uartTxfPut port v
  | uartRxfGet port => exact EncodeMatchesRow.uartRxfGet port
  | uartStatus port => exact EncodeMatchesRow.uartStatus port
  | uartIsr port => exact EncodeMatchesRow.uartIsr port
  | itcInit => exact EncodeMatchesRow.itcInit
  | itcSetHandler src token => exact EncodeMatchesRow.itcSetHandler src token
  | itcSetPriority src cls => exact EncodeMatchesRow.itcSetPriority src cls
  | itcEnable src => exact EncodeMatchesRow.itcEnable src
  | itcDisable src => exact EncodeMatchesRow.itcDisable src
  | itcForce src => exact EncodeMatchesRow.itcForce src
  | itcUnforce src => exact EncodeMatchesRow.itcUnforce src
  | itcDisableInts => exact EncodeMatchesRow.itcDisableInts
  | itcRestoreInts saved => exact EncodeMatchesRow.itcRestoreInts saved
  | itcReadNivec => exact EncodeMatchesRow.itcReadNivec
  | itcReadFivec => exact EncodeMatchesRow.itcReadFivec
  | itcSvcNEnter => exact EncodeMatchesRow.itcSvcNEnter
  | itcSvcNReturn => exact EncodeMatchesRow.itcSvcNReturn
  | itcSvcF => exact EncodeMatchesRow.itcSvcF
  | excDisableIrq => exact EncodeMatchesRow.excDisableIrq
  | excDisableFiq => exact EncodeMatchesRow.excDisableFiq
  | excDisableInts => exact EncodeMatchesRow.excDisableInts
  | excRestoreIrq saved => exact EncodeMatchesRow.excRestoreIrq saved
  | excRestoreFiq saved => exact EncodeMatchesRow.excRestoreFiq saved
  | excRestoreInts saved => exact EncodeMatchesRow.excRestoreInts saved
  | excSetHandler trap token => exact EncodeMatchesRow.excSetHandler trap token
  | excGetHandler trap => exact EncodeMatchesRow.excGetHandler trap

theorem row_of_decode (h : decode w = .ok i) : ∃ row ∈ opcodeTable, row.mnemonic = i.mnemonic ∧ row.accepts w = true :=
  encode_of_decode h ▸ row_accepts_encode i

/-- Settles O3: a word that decodes is its command's encoding, which the command's row accepts; a row that accepts a
word has the arm that decodes it; and two rows differ in their opcode. -/
theorem decodeMatchesRows : Obligations.DecodeMatchesRows := by
  unfold Obligations.DecodeMatchesRows
  refine ⟨fun w i => row_of_decode, fun w row => decode_of_accepts, ?_⟩
  refine opcodes_distinct.imp_of_mem fun hx hy hne w hacc => Bool.eq_false_iff.2 fun hacc' => ?_
  exact hne ((opOf_of_accepts hx hacc).trans (opOf_of_accepts hy hacc').symm)

/-! ### Illegal words -/

theorem decode_ne_ok_of_not_accepts (h : ∀ row ∈ opcodeTable, row.accepts w = false) : decode w ≠ .ok i := by
  intro hok
  obtain ⟨row, hrow, -, hacc⟩ := row_of_decode hok
  exact Bool.false_ne_true ((h row hrow).symm.trans hacc)

/-- All but the opcodes of a list of distinct ones. -/
theorem length_opcodes_outside {ops : List (BitVec 8)} (hops : ops.Nodup) :
    ((List.range 256).filter fun n => ops.all (· != BitVec.ofNat 8 n)).length = 256 - ops.length := by
  have hlisted : ((List.range 256).filter fun n => !ops.all (· != BitVec.ofNat 8 n)).Perm (ops.map BitVec.toNat) := by
    refine (List.perm_ext_iff_of_nodup (List.nodup_range.filter _) (hops.map BitVec.toNat_injective)).2 fun n => ?_
    simp only [List.mem_filter, List.mem_range, List.not_all_eq_any_not, List.any_eq_true, List.mem_map, bne,
      Bool.not_not, beq_iff_eq]
    constructor
    · rintro ⟨hn, x, hx, rfl⟩
      exact ⟨_, hx, by rw [BitVec.toNat_ofNat, Nat.mod_eq_of_lt hn]⟩
    · rintro ⟨x, hx, rfl⟩
      exact ⟨x.isLt, x, hx, by rw [BitVec.ofNat_toNat, BitVec.setWidth_eq]⟩
  have hsplit := List.length_eq_length_filter_add (l := List.range 256) fun n => ops.all (· != BitVec.ofNat 8 n)
  rw [hlisted.length_eq, List.length_map, List.length_range] at hsplit
  omega

/-- The table leaves 256 - 38 opcodes reserved (R87). -/
theorem length_reserved_opcodes :
    ((List.range 256).filter fun n => opcodeTable.all fun row => opOf row.value != BitVec.ofNat 8 n).length = 218 := by
  have hcount := length_opcodes_outside (List.pairwise_map.2 opcodes_distinct)
  simp only [List.all_map, Function.comp_def] at hcount
  exact hcount

/-- Settles O4, by evaluation of the decoder on the nine words. -/
theorem specWordsDecode : Obligations.SpecWordsDecode := by
  unfold Obligations.SpecWordsDecode
  decide

end Sys2Proof.Proofs
end

