-- ==== Sys2Proof/Proofs/CommandPort.lean ====
section
/-!
PROOFS. What the command port answers (30_encoding.md R81, R82, R86, R87): which step issues a word, what an illegal
word does, and what an error response says of the state.

Every command ends in one of three ways (`Ends`): failed, which is `fail` of the state it began in, held, or
answered `OK`. One rule per operand check carries this through; only the first way has an error response.
-/

namespace Sys2Proof.Proofs

open Sys2Proof.Machine

variable {s t : State} {w : Command} {i : Instr} {rest : List Task} {ag : List Move}

/-! ### A word at the command port -/

theorem runWord_of_decode (h : decode w = .ok i) (s : State) : runWord w s = exec i s := by
  rw [runWord, h]

theorem runWord_of_illegal (h : ∀ i, decode w ≠ .ok i) (s : State) : runWord w s = .next (s.fail .illegalCommand) := by
  rw [runWord]
  split
  next i hok => exact absurd hok (h i)
  next => rfl

/-- Where no service runs and no trap is enabled, the reference schedule gives the core agent its turn (R257). -/
theorem defaultMove_eq_core (hboundary : s.atBoundary = true) (hfiq : s.fiqEnabled = false)
    (hirq : s.irqEnabled = false) : s.defaultMove = .core := by
  rw [defaultMove_eq_ite, (State.atBoundary_iff.1 hboundary).2, hfiq, hirq]
  rfl

/-- The issuing step, whether the agenda or the reference schedule gives the turn (R82). -/
theorem step_of_issues (h : s.Issues w rest ag) : step s = runWord w { s with code := rest, agenda := ag } := by
  obtain ⟨hboundary, hcode, hagenda | ⟨hagenda, rfl, hfiq, hirq⟩⟩ := h
  · exact step_core hagenda hboundary hcode
  · calc step s = coreMove s := by
          rw [step_of_no_agenda hagenda, defaultMove_eq_core hboundary hfiq hirq]
          rfl
      _ = runWord w { s with code := rest } := coreMove_of_boundary hboundary hcode
      _ = runWord w { s with code := rest, agenda := [] } := by rw [← hagenda]

/-- Settles O6: the issuing step, then the decoder's answer at the command port. -/
theorem stepRunsDecodedCommand : Obligations.StepRunsDecodedCommand := by
  unfold Obligations.StepRunsDecodedCommand
  intro s w rest ag hissues
  have hstep := step_of_issues hissues
  exact ⟨hstep, fun i hok => hstep.trans (runWord_of_decode hok _)⟩

theorem activePort_of_idled {ps : List Port} (hports : s.ports = ps.map Port.idled) : s.activePort = none := by
  rw [State.activePort, hports, List.findIdx?_eq_none_iff]
  intro q hq
  obtain ⟨q', -, rfl⟩ := List.mem_map.1 hq
  rfl

/-- The word presented is about to be issued, with the state's own program and agenda behind it. -/
theorem issues_presentWord (s : State) (w : Command) : (s.presentWord w).Issues w s.code s.agenda :=
  ⟨State.atBoundary_iff.2 ⟨rfl, activePort_of_idled rfl⟩, rfl, .inl rfl⟩

theorem decode_of_decodeTableWord {nbits n : Nat} (h : decodeTableWord nbits n = some i) :
    decode (BitVec.ofNat 80 (n % 2 ^ nbits)) = .ok i := by
  rw [decodeTableWord] at h
  split at h
  next j hok => rw [hok, Option.some.inj h]
  next => cases h

/-- Settles O7: the presented word is issued by the next step, whose code and agenda are those the state had. -/
theorem stepRunsPresentedWord : Obligations.StepRunsPresentedWord := by
  unfold Obligations.StepRunsPresentedWord
  intro s n i hword
  rw [State.withFetchWord, step_of_issues (issues_presentWord s _),
    runWord_of_decode (decode_of_decodeTableWord hword)]
  rfl

/-- Settles O8: a word without a row does not decode, and a row accepts only words of its own opcode. -/
theorem illegalWordChangesNothing : Obligations.IllegalWordChangesNothing := by
  unfold Obligations.IllegalWordChangesNothing
  refine ⟨fun s w hnone => ?_, rfl, length_reserved_opcodes, fun w hop row hrow => ?_⟩
  · exact runWord_of_illegal (fun i => decode_ne_ok_of_not_accepts hnone) s
  · exact Bool.eq_false_iff.2 fun hacc => hop row hrow (opOf_of_accepts hrow hacc)

/-! ### The three ways a command ends -/

/-- The errors a command of the table can end with (60_exceptions.md R240). -/
def CommandError (st : Status) : Prop := st.code = 1 ∨ st.code = 2 ∨ st.code = 3

/-- How a command issued in `s` ends: failed with nothing else changed, still in progress, or answered `OK`. -/
inductive Ends (s : State) : State → Prop
  | failed {st : Status} (hst : CommandError st) : Ends s (s.fail st)
  | held {t : State} {i : Instr} (hbusy : t.busy = some i) : Ends s t
  | answered {t : State} {aux : BitVec 8} {data : Word} (hrsp : t.rsp = answer aux data) : Ends s t

namespace Ends

theorem respond (s t : State) (aux : BitVec 8) (data : Word) : Ends s (t.respond .ok aux data) := .answered rfl

theorem hold (s t : State) (i : Instr) : Ends s (t.hold i) := .held rfl

theorem invalidParameter (s : State) : Ends s (s.fail .invalidParameter) := .failed (.inl rfl)

theorem noSuchDevice (s : State) : Ends s (s.fail .noSuchDevice) := .failed (.inr (.inl rfl))

theorem invalidArgument (s : State) : Ends s (s.fail .invalidArgument) := .failed (.inr (.inr rfl))

/-- An error response is that of a failed command. -/
theorem eq_fail_of_error (h : Ends s t) {st : Status} {aux : BitVec 8} {data : Word} (hidle : t.busy = none)
    (hrsp : t.rsp = some ⟨st, aux, data⟩) (herror : st ≠ .ok) : CommandError st ∧ t = s.fail st := by
  cases h with
  | failed hst =>
      cases hrsp
      exact ⟨hst, rfl⟩
  | held hbusy => cases hidle.symm.trans hbusy
  | answered hok =>
      cases hrsp.symm.trans hok
      exact absurd rfl herror

section Operands
variable {sel : BitVec 8} {k : Nat → State}

theorem withRing (hk : ∀ r, Ends s (k r)) : Ends s (Machine.withRing sel s k) := by
  rcases withRing_cases (sel := sel) (s := s) (k := k) with ⟨-, he⟩ | ⟨-, he⟩ <;> rw [he]
  · exact invalidParameter s
  · exact hk _

theorem withPort (hk : ∀ p, Ends s (k p)) : Ends s (Machine.withPort sel s k) := by
  rcases withPort_cases (sel := sel) (s := s) (k := k) with ⟨-, he⟩ | ⟨-, he⟩ <;> rw [he]
  · exact noSuchDevice s
  · exact hk _

theorem withConfigured (hk : ∀ p, Ends s (k p)) : Ends s (Machine.withConfigured sel s k) := by
  rcases withConfigured_cases (sel := sel) (s := s) (k := k) with ⟨-, he⟩ | ⟨-, -, he⟩ <;> rw [he]
  · exact noSuchDevice s
  · exact hk _

theorem withSource (hk : ∀ n, Ends s (k n)) : Ends s (Machine.withSource sel s k) := by
  rcases withSource_cases (sel := sel) (s := s) (k := k) with ⟨-, he⟩ | ⟨-, he⟩ <;> rw [he]
  · exact invalidParameter s
  · exact hk _

theorem withTrap {k : Fin Config.nTraps → State} (hk : ∀ n, Ends s (k n)) : Ends s (Machine.withTrap sel s k) := by
  rcases withTrap_cases (sel := sel) (s := s) (kt := k) with ⟨-, he⟩ | ⟨_, he⟩ <;> rw [he]
  · exact invalidParameter s
  · exact hk _

end Operands

theorem answerVector (s : State) (v : Option Nat) : Ends s (s.answerVector v) := by
  cases v <;> exact respond s s _ _

end Ends

/-! ### The commands -/

theorem execCbInit_ends (sel : BitVec 8) (base : Word) (cap : Half) (h : execCbInit sel base cap s = .next t) :
    Ends s t := by
  cases h
  refine .withRing fun r => ?_
  split
  · exact .invalidParameter s
  · split
    · exact .invalidParameter s
    · exact .respond s _ _ _

theorem execUartInit_ends (sel : BitVec 8) (baud name : Word) (h : execUartInit sel baud name s = .next t) :
    Ends s t := by
  cases h
  refine .withPort fun p => ?_
  split
  · exact .invalidArgument s
  · exact .respond s _ _ _

theorem execUartTxfPut_ends (sel : BitVec 8) (v : Byte) (h : execUartTxfPut sel v s = .next t) : Ends s t := by
  cases h
  refine .withConfigured fun p => ?_
  split
  · exact .respond s _ _ _
  · exact .hold s _ _

theorem execUartRxfGet_ends (sel : BitVec 8) (h : execUartRxfGet sel s = .next t) : Ends s t := by
  cases h
  refine .withConfigured fun p => ?_
  split
  · exact .respond s _ _ _
  · exact .hold s _ _

theorem execItcSvcNEnter_ends (h : execItcSvcNEnter s = .next t) : Ends s t := by
  cases h
  split <;> exact .respond s _ _ _

theorem execItcSvcF_ends (h : execItcSvcF s = .next t) : Ends s t := by
  cases h
  split <;> exact .respond s _ _ _

/-- The commands by the operand check they begin with (60_exceptions.md R241); those with a choice behind it have a
lemma of their own, and the others answer. -/
theorem exec_ends (h : exec i s = .next t) : Ends s t := by
  cases i with
  | cbInit sel base cap => exact execCbInit_ends sel base cap h
  | cbWrite | cbRead | cbIsFull | cbIsEmpty =>
      cases h
      exact .withRing fun _ => .respond s _ _ _
  | brgLoad | brgRead =>
      cases h
      exact .withPort fun _ => .respond s _ _ _
  | uartInit sel baud name => exact execUartInit_ends sel baud name h
  | uartSetRxCb | uartSetTxCb | uartRxiSet | uartTxiSet | uartStatus =>
      cases h
      exact .withConfigured fun _ => .respond s _ _ _
  | uartTxfPut sel v => exact execUartTxfPut_ends sel v h
  | uartRxfGet sel => exact execUartRxfGet_ends sel h
  | uartIsr sel =>
      cases h
      exact .withConfigured fun _ => .held rfl
  | itcSetHandler | itcSetPriority | itcEnable | itcDisable | itcForce | itcUnforce =>
      cases h
      exact .withSource fun _ => .respond s _ _ _
  | itcReadNivec | itcReadFivec =>
      cases h
      exact .answerVector s _
  | itcSvcNEnter => exact execItcSvcNEnter_ends h
  | itcSvcF => exact execItcSvcF_ends h
  | excSetHandler | excGetHandler =>
      cases h
      exact .withTrap fun _ => .respond s _ _ _
  | itcInit | itcDisableInts | itcRestoreInts | itcSvcNReturn | excDisableIrq | excDisableFiq | excDisableInts
  | excRestoreIrq | excRestoreFiq | excRestoreInts =>
      cases h
      exact .respond s _ _ _

/-! ### The response word -/

/-- The two sentinels are forty ones below the code (R81). -/
theorem packResponse_sentinels (st : Status) :
    packResponse st 0xFF 0xFFFFFFFF = st.code ++ 0xFFFFFFFFFF#40 := by
  cases st <;> rfl

/-- Settles O12: an error response is that of a failed command, and `fail` writes the sentinels and nothing else. -/
theorem errorResponseChangesNothing : Obligations.ErrorResponseChangesNothing := by
  unfold Obligations.ErrorResponseChangesNothing
  refine ⟨fun i s t st aux data hexec hidle hrsp herror => ?_, fun r => ?_⟩
  · obtain ⟨hcode, rfl⟩ := (exec_ends hexec).eq_fail_of_error hidle hrsp herror
    cases hrsp
    exact ⟨rfl, rfl, hcode, congrArg some (packResponse_sentinels st), rfl⟩
  · exact ⟨rspStatusOf_packResponse .., rspAuxOf_packResponse .., rspDataOf_packResponse ..⟩

end Sys2Proof.Proofs
end

