-- ==== Sys2Proof/Proofs/Ring.lean ====
section
/-!
PROOFS. The ring commands (40_ring.md R100 to R108), the classes of a ring (R109), and its order (R110).

Past the check of the ring id each command is one path of the ring, and each path has one equation per outcome. The
classes are read off `pending`, which a write raises and a read lowers by one. For the order, the bytes a ring holds
are those at `address 0`, `address 1`, ...: a write leaves the addresses where they are and stores at the next one, a
read moves them on by one.
-/

namespace Sys2Proof.Proofs

open Sys2Proof.Machine

variable {s t : State} {sel : BitVec 8} {v : Byte} {x : Ring}

/-! ### The check of the ring id -/

section RingId
variable {i : Instr} {k : Nat → State}

theorem fails_of_ring_ge (hexec : exec i s = .next (withRing sel s k)) (hge : s.nRings ≤ sel.toNat) :
    Fails i s .invalidParameter :=
  hexec.trans (congrArg _ (if_pos hge))

theorem exec_of_ring_lt (hexec : exec i s = .next (withRing sel s k)) (hlt : sel.toNat < s.nRings) :
    exec i s = .next (k sel.toNat) :=
  hexec.trans (congrArg _ (if_neg (Nat.not_le.2 hlt)))

end RingId

/-! ### The predicates of a ring (10_state.md R24) -/

theorem isFull_iff : x.isFull = true ↔ x.full = true ∨ x.bound = false := by
  simp [Ring.isFull]

theorem isFull_eq_false_iff : x.isFull = false ↔ x.full = false ∧ x.bound = true := by
  simp [Ring.isFull]

theorem isEmpty_iff : x.isEmpty = true ↔ x.rd = x.wr ∧ x.full = false := by
  simp [Ring.isEmpty]

theorem isEmpty_eq_false_iff : x.isEmpty = false ↔ x.rd ≠ x.wr ∨ x.full = true := by
  simp [Ring.isEmpty, imp_iff_not_or]

theorem flagData_eq (b : Bool) : flagData b = if b = true then 1 else 0 := by
  cases b <;> rfl

/-! ### The paths of a ring, one equation per outcome -/

theorem ringWrite_of_full {r : Nat} (hfull : (s.ring r).isFull = true) (v : Byte) : s.ringWrite r v = (false, s) := by
  simpa [hfull] using s.ringWrite_cases r v

theorem ringWrite_of_room {r : Nat} (hroom : (s.ring r).isFull = false) (v : Byte) :
    s.ringWrite r v =
      (true, (s.writeByte ((s.ring r).slot (s.ring r).wr).toNat v).setRing r (s.ring r).afterWrite) := by
  simpa [hroom] using s.ringWrite_cases r v

theorem ringRead_of_empty {r : Nat} (hempty : (s.ring r).isEmpty = true) : s.ringRead r = (false, 0, s) := by
  simpa [hempty] using s.ringRead_cases r

theorem ringRead_of_bytes {r : Nat} (hbytes : (s.ring r).isEmpty = false) :
    s.ringRead r =
      (true, s.readByte ((s.ring r).slot (s.ring r).rd).toNat, s.setRing r (s.ring r).afterRead) := by
  simpa [hbytes] using s.ringRead_cases r

theorem cbWrite_rejected (hlt : sel.toNat < s.nRings) (hfull : (s.ring sel.toNat).isFull = true) :
    Answers (.cbWrite sel v) s 0 0 s := by
  rw [Answers, exec_of_ring_lt rfl hlt, ringWrite_of_full hfull]
  rfl

theorem cbWrite_accepted (hlt : sel.toNat < s.nRings) (hroom : (s.ring sel.toNat).isFull = false) :
    Answers (.cbWrite sel v) s 0 1
      ((s.writeByte ((s.ring sel.toNat).slot (s.ring sel.toNat).wr).toNat v).setRing sel.toNat
        (s.ring sel.toNat).afterWrite) := by
  rw [Answers, exec_of_ring_lt rfl hlt, ringWrite_of_room hroom]
  rfl

theorem cbRead_rejected (hlt : sel.toNat < s.nRings) (hempty : (s.ring sel.toNat).isEmpty = true) :
    Answers (.cbRead sel) s 0 0 s := by
  rw [Answers, exec_of_ring_lt rfl hlt, ringRead_of_empty hempty]
  rfl

theorem cbRead_accepted (hlt : sel.toNat < s.nRings) (hbytes : (s.ring sel.toNat).isEmpty = false) :
    Answers (.cbRead sel) s 0
      (0x000001#24 ++ s.readByte ((s.ring sel.toNat).slot (s.ring sel.toNat).rd).toNat)
      (s.setRing sel.toNat (s.ring sel.toNat).afterRead) := by
  rw [Answers, exec_of_ring_lt rfl hlt, ringRead_of_bytes hbytes]
  rfl

theorem cbIsFull_answers (hlt : sel.toNat < s.nRings) :
    Answers (.cbIsFull sel) s 0
      (if (s.ring sel.toNat).full = true ∨ (s.ring sel.toNat).bound = false then 1 else 0) s := by
  rw [Answers, exec_of_ring_lt rfl hlt, flagData_eq]
  simp only [isFull_iff]
  rfl

theorem cbIsEmpty_answers (hlt : sel.toNat < s.nRings) :
    Answers (.cbIsEmpty sel) s 0
      (if (s.ring sel.toNat).rd = (s.ring sel.toNat).wr ∧ (s.ring sel.toNat).full = false then 1 else 0) s := by
  rw [Answers, exec_of_ring_lt rfl hlt, flagData_eq]
  simp only [isEmpty_iff]
  rfl

/-- Two answers of one command to one state carry the same data. -/
theorem data_eq_of_answers {i : Instr} {u : State} {aux aux' : BitVec 8} {d d' : Word} (h : Answers i s aux d t)
    (h' : Answers i s aux' d' u) : d = d' := by
  have hrsp := congrArg State.rsp (Host.Outcome.next.inj (h.symm.trans h'))
  cases hrsp
  rfl

/-! ### The five commands -/

/-- Settles O14: the two outcomes of the write path, and one byte stored. -/
theorem cbWriteStoresByte : Obligations.CbWriteStoresByte := by
  unfold Obligations.CbWriteStoresByte
  intro s sel v
  refine ⟨decode_encode (.cbWrite sel v), fails_of_ring_ge rfl,
    fun hlt hrejected => cbWrite_rejected hlt (isFull_iff.2 hrejected), fun hlt hfull hbound => ?_⟩
  have hroom := isFull_eq_false_iff.2 ⟨hfull, hbound⟩
  exact ⟨_, _, cbWrite_accepted hlt hroom, rfl, readByte_writeByte s _ v,
    fun hinv => Ring.pending_afterWrite _ hinv hroom⟩

/-- Settles O15: the two outcomes of the read path; the state after an accepted read differs in the one record. -/
theorem cbReadTakesByte : Obligations.CbReadTakesByte := by
  unfold Obligations.CbReadTakesByte
  intro s sel
  refine ⟨decode_encode (.cbRead sel), fails_of_ring_ge rfl,
    fun hlt hindices hfull => cbRead_rejected hlt (isEmpty_iff.2 ⟨hindices, hfull⟩), fun hlt hholds => ?_⟩
  have hbytes := isEmpty_eq_false_iff.2 hholds
  exact ⟨_, cbRead_accepted hlt hbytes, rfl, fun hinv => Ring.pending_afterRead _ hinv hbytes⟩

/-- Settles O13: the three checks in their order; a ring just bound has both indices 0 and is not full. -/
theorem cbInitBindsRing : Obligations.CbInitBindsRing := by
  unfold Obligations.CbInitBindsRing
  intro s sel base cap
  refine ⟨decode_encode (.cbInit sel base cap), fails_of_ring_ge rfl, fun hlt hcap => ?_, fun hlt hcap hregion => ?_,
    fun hlt hcap hregion => ?_, ?_⟩
  · exact (exec_of_ring_lt rfl hlt).trans (congrArg _ (if_pos hcap))
  · exact (exec_of_ring_lt rfl hlt).trans (congrArg _ ((if_neg hcap).trans (if_pos hregion)))
  · exact (exec_of_ring_lt rfl hlt).trans (congrArg _ ((if_neg hcap).trans (if_neg (Nat.not_lt.2 hregion))))
  · rintro x rfl
    exact ⟨rfl, rfl, rfl⟩

/-- Settles O16: the flag answered is the predicate; a bound ring that reports full has `FULL` set, which an empty one
has not. -/
theorem cbPredicatesAnswer : Obligations.CbPredicatesAnswer := by
  unfold Obligations.CbPredicatesAnswer
  intro s sel
  refine ⟨decode_encode (.cbIsFull sel), decode_encode (.cbIsEmpty sel),
    fun hge => ⟨fails_of_ring_ge rfl hge, fails_of_ring_ge rfl hge⟩,
    fun hlt => ⟨cbIsFull_answers hlt, cbIsEmpty_answers hlt⟩, fun hlt hinv hunbound => ?_, fun hlt hbound => ?_⟩
  · obtain ⟨-, hrd, hwr, hfull⟩ := hinv.2 hunbound
    have hboth := And.intro (cbIsFull_answers hlt) (cbIsEmpty_answers hlt)
    rwa [if_pos (.inr hunbound), if_pos ⟨hrd.trans hwr.symm, hfull⟩] at hboth
  · rintro ⟨hsaysFull, hsaysEmpty⟩
    have hfull := data_eq_of_answers hsaysFull (cbIsFull_answers hlt)
    have hempty := data_eq_of_answers hsaysEmpty (cbIsEmpty_answers hlt)
    cases hf : (s.ring sel.toNat).full
    · simp [hf, hbound] at hfull
    · simp [hf] at hempty

/-! ### The classes of a ring (R109) -/

/-- Full is `pending = CAP`, where the invariant holds: an unbound ring has capacity 0. -/
theorem isFull_iff_pending (hinv : x.Inv) : x.isFull = true ↔ x.pending = x.cap.toNat := by
  refine ⟨fun hfull => ?_, fun hpending => ?_⟩
  · rcases isFull_iff.1 hfull with hflag | hunbound
    · simp [Ring.pending, hflag]
    · obtain ⟨hcap, hrd, hwr, hflag⟩ := hinv.2 hunbound
      simp [Ring.pending, hcap, hrd, hwr, hflag]
  · by_contra hroom
    have := x.pending_lt_cap hinv (by simpa using hroom)
    omega

theorem classOf_eq_none_iff : x.classOf = none ↔ x.bound = false := by
  simp only [Ring.classOf]
  split_ifs <;> simp_all

theorem classOf_eq_empty_iff : x.classOf = some .empty ↔ x.bound = true ∧ x.pending = 0 := by
  simp only [Ring.classOf]
  split_ifs <;> simp_all

theorem classOf_eq_partly_iff :
    x.classOf = some .partly ↔ x.bound = true ∧ x.pending ≠ 0 ∧ x.pending ≠ x.cap.toNat := by
  simp only [Ring.classOf]
  split_ifs <;> simp_all

theorem classOf_eq_fullState_iff :
    x.classOf = some .fullState ↔ x.bound = true ∧ x.pending ≠ 0 ∧ x.pending = x.cap.toNat := by
  simp only [Ring.classOf]
  split_ifs <;> simp_all

/-- The class a write leads to: FULLSTATE from the last free slot, PARTIAL otherwise. -/
theorem classOf_afterWrite (hinv : x.Inv) (hroom : x.isFull = false) :
    x.afterWrite.classOf = if x.pending + 1 = x.cap.toNat then some .fullState else some .partly := by
  have hpending := x.pending_afterWrite hinv hroom
  have hbound : x.afterWrite.bound = true := (Ring.bound_of_isFull hroom).1
  have hcap : x.afterWrite.cap = x.cap := rfl
  split
  · exact classOf_eq_fullState_iff.2 ⟨hbound, by omega, by rw [hcap]; omega⟩
  · exact classOf_eq_partly_iff.2 ⟨hbound, by omega, by rw [hcap]; omega⟩

/-- The class a read leads to: EMPTY from the last byte, PARTIAL otherwise. -/
theorem classOf_afterRead (hinv : x.Inv) (hbytes : x.isEmpty = false) :
    x.afterRead.classOf = if x.pending = 1 then some .empty else some .partly := by
  have hpending := x.pending_afterRead hinv hbytes
  have hle := x.pending_le_cap hinv
  have hbound : x.afterRead.bound = true := (Ring.bound_of_isEmpty hinv hbytes :)
  have hcap : x.afterRead.cap = x.cap := rfl
  split
  · exact classOf_eq_empty_iff.2 ⟨hbound, by omega⟩
  · exact classOf_eq_partly_iff.2 ⟨hbound, by omega, by rw [hcap]; omega⟩

/-- Settles O17: the predicates and the classes through `pending`, and the class after each path. -/
theorem ringTransitions : Obligations.RingTransitions := by
  unfold Obligations.RingTransitions
  intro x hinv
  have hfull := isFull_iff_pending hinv
  have hempty := x.isEmpty_iff_pending hinv
  refine ⟨x.pending_le_cap hinv, hfull, hempty, classOf_eq_none_iff, fun hunbound => ?_, fun hclass => ?_,
    fun hclass => ?_, fun hclass => ?_⟩
  · obtain ⟨-, hrd, hwr, hflag⟩ := hinv.2 hunbound
    exact ⟨isFull_iff.2 (.inr hunbound), isEmpty_iff.2 ⟨hrd.trans hwr.symm, hflag⟩⟩
  · obtain ⟨hbound, hnone⟩ := classOf_eq_empty_iff.1 hclass
    obtain ⟨hcap, -⟩ := hinv.1 hbound
    have hroom : x.isFull = false := Bool.eq_false_iff.2 fun h => by have := hfull.1 h; omega
    refine ⟨hroom, ?_⟩
    simp only [classOf_afterWrite hinv hroom, hnone, Nat.zero_add, eq_comm (a := 1)]
  · obtain ⟨-, hsome, hnotAll⟩ := classOf_eq_partly_iff.1 hclass
    have hroom : x.isFull = false := Bool.eq_false_iff.2 (mt hfull.1 hnotAll)
    have hbytes : x.isEmpty = false := Bool.eq_false_iff.2 (mt hempty.1 hsome)
    refine ⟨hroom, hbytes, ?_, classOf_afterRead hinv hbytes⟩
    have hlast : x.pending + 1 = x.cap.toNat ↔ x.pending = x.cap.toNat - 1 := by omega
    simp only [classOf_afterWrite hinv hroom, hlast]
  · obtain ⟨-, hsome, hall⟩ := classOf_eq_fullState_iff.1 hclass
    have hbytes : x.isEmpty = false := Bool.eq_false_iff.2 (mt hempty.1 hsome)
    refine ⟨hbytes, ?_⟩
    rw [classOf_afterRead hinv hbytes, hall]

/-! ### Where the bytes of a ring lie (R110) -/

/-- The bytes of a ring are those of its record and of memory. -/
theorem contents_congr {r : Nat} (hring : t.ring r = s.ring r) (hmem : t.mem = s.mem) :
    t.contents r = s.contents r := by
  simp only [State.contents, State.readByte, hring, hmem]

theorem address_in_region {k : Nat} (hk : k < x.cap.toNat) :
    x.base.toNat ≤ x.address k ∧ x.address k < x.base.toNat + x.cap.toNat :=
  ⟨Nat.le_add_right _ _, Nat.add_lt_add_left (Nat.mod_lt _ (by omega)) _⟩

/-- The bytes of a ring lie at different addresses. -/
theorem address_injective {j k : Nat} (hj : j < x.cap.toNat) (hk : k < x.cap.toNat)
    (heq : x.address j = x.address k) : j = k := by
  have hmod : j ≡ k [MOD x.cap.toNat] := Nat.ModEq.add_left_cancel' x.rd.toNat (Nat.add_left_cancel heq)
  exact hmod.eq_of_lt_of_lt hj hk

/-- The slot at the write index is the one after the bytes held. -/
theorem slot_wr_toNat (hinv : x.Inv) (hbound : x.bound = true) : (x.slot x.wr).toNat = x.address x.pending := by
  obtain ⟨-, -, hwr, -, hregion⟩ := hinv.1 hbound
  rw [x.slot_toNat _ hwr hregion, x.wr_eq_rd_add_pending hinv hbound, Ring.address]

/-- The slot at the read index is that of the oldest byte. -/
theorem slot_rd_toNat (hinv : x.Inv) (hbound : x.bound = true) : (x.slot x.rd).toNat = x.address 0 := by
  obtain ⟨-, hrd, -, -, hregion⟩ := hinv.1 hbound
  rw [x.slot_toNat _ hrd hregion, Ring.address, Nat.add_zero, Nat.mod_eq_of_lt hrd]

theorem address_afterWrite (x : Ring) (k : Nat) : x.afterWrite.address k = x.address k := rfl

/-- After a read the bytes are counted from the next address. -/
theorem address_afterRead (hinv : x.Inv) (hbound : x.bound = true) (k : Nat) :
    x.afterRead.address k = x.address (k + 1) := by
  obtain ⟨-, hrd, -⟩ := hinv.1 hbound
  have hnext : (x.wrapInc x.rd).toNat = (x.rd.toNat + 1) % x.cap.toNat := by
    rw [x.wrapInc_toNat _ hrd]
    split
    next hlast => rw [hlast, Nat.mod_self]
    next hmore => rw [Nat.mod_eq_of_lt (by omega)]
  calc x.base.toNat + ((x.wrapInc x.rd).toNat + k) % x.cap.toNat
      = x.base.toNat + (x.rd.toNat + 1 + k) % x.cap.toNat := by rw [hnext, Nat.mod_add_mod]
    _ = x.address (k + 1) := by rw [Ring.address, Nat.add_assoc, Nat.add_comm 1 k]

/-! ### First in, first out -/

section Order
variable {r : Nat}

/-- A write stores at the next address and leaves the bytes before it, which lie at other addresses. -/
theorem contents_of_write (hinv : (s.ring r).Inv) (hroom : (s.ring r).isFull = false)
    (hring : t.ring r = (s.ring r).afterWrite)
    (hmem : ∀ a, t.readByte a = if a = ((s.ring r).slot (s.ring r).wr).toNat then v else s.readByte a) :
    t.contents r = s.contents r ++ [v] := by
  have hlast := slot_wr_toNat hinv (Ring.bound_of_isFull hroom).1
  have hcap := Ring.pending_lt_cap _ hinv hroom
  rw [State.contents_eq t r (hring ▸ Ring.inv_afterWrite _ hinv hroom), State.contents_eq s r hinv, hring,
    Ring.pending_afterWrite _ hinv hroom, List.range_succ, List.map_append]
  congr 1
  · refine List.map_congr_left fun k hk => ?_
    have hk : k < (s.ring r).pending := List.mem_range.1 hk
    have hother : (s.ring r).address k ≠ (s.ring r).address (s.ring r).pending := fun heq =>
      hk.ne (address_injective (hk.trans hcap) hcap heq)
    rw [address_afterWrite, hmem, hlast, if_neg hother]
  · rw [List.map_singleton, address_afterWrite, hmem, hlast, if_pos rfl]

/-- A store into the region of another ring leaves the bytes of a ring with a disjoint one (20_memory.md R72). -/
theorem contents_of_disjoint {a : Nat} (hinv : (s.ring r).Inv) (hring : t.ring r = s.ring r)
    (hmem : ∀ b ≠ a, t.readByte b = s.readByte b)
    (hregion : x.base.toNat ≤ a ∧ a < x.base.toNat + x.cap.toNat) (hdisjoint : x.Disjoint (s.ring r)) :
    t.contents r = s.contents r := by
  rw [State.contents_eq t r (hring ▸ hinv), State.contents_eq s r hinv, hring]
  refine List.map_congr_left fun k hk => hmem _ fun heq => ?_
  have hk : k < (s.ring r).cap.toNat := (List.mem_range.1 hk).trans_le (Ring.pending_le_cap _ hinv)
  obtain ⟨hlow, hhigh⟩ := address_in_region hk
  rcases hdisjoint with hbelow | habove <;> omega

/-- A read takes the byte at the first address and leaves the rest. -/
theorem contents_eq_cons (hinv : (s.ring r).Inv) (hbytes : (s.ring r).isEmpty = false)
    (hring : t.ring r = (s.ring r).afterRead) (hmem : t.mem = s.mem) :
    s.contents r = s.readByte ((s.ring r).slot (s.ring r).rd).toNat :: t.contents r := by
  have hbound := Ring.bound_of_isEmpty hinv hbytes
  rw [State.contents_eq t r (hring ▸ Ring.inv_afterRead _ hinv hbytes), State.contents_eq s r hinv, hring,
    ← Ring.pending_afterRead _ hinv hbytes, List.range_succ_eq_map, List.map_cons, slot_rd_toNat hinv hbound,
    List.map_map]
  congr 1
  refine List.map_congr_left fun k _ => ?_
  have hnext := address_afterRead hinv hbound k
  simp only [Function.comp_apply, State.readByte, hmem, hnext]

end Order

/-- Settles O18: the state after an accepted write, read through `contents_of_write` and `contents_of_disjoint`. -/
theorem writeAppendsToRing : Obligations.WriteAppendsToRing := by
  unfold Obligations.WriteAppendsToRing
  intro s sel v hlt hinv hroom
  refine ⟨_, cbWrite_accepted hlt hroom, ?_, fun r _ hne hinvOther hdisjoint => ?_⟩
  · exact contents_of_write hinv hroom (State.ring_setRing_self _ _ _ hlt) (readByte_writeByte s _ v)
  · have hslot := slot_wr_toNat hinv (Ring.bound_of_isFull hroom).1
    have hregion := address_in_region (Ring.pending_lt_cap _ hinv hroom)
    exact contents_of_disjoint hinvOther (State.ring_setRing_ne _ _ _ _ hne.symm)
      (fun b hb => s.readByte_writeByte_ne _ b v hb) (hslot ▸ hregion) hdisjoint

/-- Settles O19: a ring that holds bytes is not empty, so that the read is accepted, and answers their first. -/
theorem readTakesOldestOfRing : Obligations.ReadTakesOldestOfRing := by
  unfold Obligations.ReadTakesOldestOfRing
  intro s sel v rest hlt hinv hheld
  have hbytes : (s.ring sel.toNat).isEmpty = false := Bool.eq_false_iff.2 fun hempty => by
    rw [State.contents_eq s _ hinv, (Ring.isEmpty_iff_pending _ hinv).1 hempty] at hheld
    cases hheld
  have hring := State.ring_setRing_self s sel.toNat (s.ring sel.toNat).afterRead hlt
  obtain ⟨rfl, hrest⟩ := List.cons.inj ((contents_eq_cons hinv hbytes hring rfl).symm.trans hheld)
  exact ⟨_, cbRead_accepted hlt hbytes, rfl, hrest,
    fun r hne => contents_congr (State.ring_setRing_ne _ _ _ _ hne.symm) rfl⟩

end Sys2Proof.Proofs
end

