-- ==== Sys2Proof/Proofs/Brg.lean ====
section
/-!
PROOFS. The baud-rate generator: the two divisor commands (41_brg.md R121, R122) and the divider step (R124, R126).

The rate of the divider follows from a closed form. `n` cycles add `n * BR_INC` to the accumulator with no reduction;
what the register holds is the remainder of that sum by `BR_MOD`, and the ticks emitted are its quotient (`ticked`). One
cycle is the case `n = 1`, `m` and then `n` cycles are `m + n`, and after `BR_MOD` cycles the remainder is the old
accumulator and the quotient `BR_INC`.
-/

namespace Sys2Proof.Proofs

open Sys2Proof.Machine

variable {s : State} {sel : BitVec 8} {p : Nat} {q : Port}

/-! ### The check of the port id -/

section PortId
variable {i : Instr} {k : Nat → State}

theorem fails_of_port_ge (hexec : exec i s = .next (withPort sel s k)) (hge : s.nPorts ≤ sel.toNat) :
    Fails i s .noSuchDevice :=
  hexec.trans (congrArg _ (if_pos hge))

theorem exec_of_port_lt (hexec : exec i s = .next (withPort sel s k)) (hlt : sel.toNat < s.nPorts) :
    exec i s = .next (k sel.toNat) :=
  hexec.trans (congrArg _ (if_neg (Nat.not_le.2 hlt)))

end PortId

/-! ### The two divisor commands -/

/-- `BRG_LOAD` past the port check: the pair answered is the pair loaded. -/
theorem brgLoad_answers (baud : Word) (hlt : sel.toNat < s.nPorts) :
    Answers (.brgLoad sel baud) s 0 (brgInc s.params.coreClock baud ++ BitVec.ofNat 16 Config.brgMod)
      (s.setPort sel.toNat ((s.port sel.toNat).loadBaud s.params.coreClock baud)) := by
  rw [Answers, exec_of_port_lt rfl hlt]
  rfl

theorem brgRead_answers (hlt : sel.toNat < s.nPorts) :
    Answers (.brgRead sel) s 0 ((s.port sel.toNat).brInc ++ (s.port sel.toNat).brMod) s := by
  rw [Answers, exec_of_port_lt rfl hlt]
  rfl

/-- Settles O20: the port check, then the divisor of R120, `brgInc` with `BRG_MOD` at its value. -/
theorem brgLoadComputesDivisor : Obligations.BrgLoadComputesDivisor := by
  unfold Obligations.BrgLoadComputesDivisor
  rintro s sel baud q rfl
  exact ⟨decode_encode (.brgLoad sel baud), fails_of_port_ge rfl, brgLoad_answers baud⟩

/-- Settles O21: the port check, then the pair the port holds. -/
theorem brgReadAnswersDivisor : Obligations.BrgReadAnswersDivisor := by
  unfold Obligations.BrgReadAnswersDivisor
  intro s sel
  exact ⟨decode_encode (.brgRead sel), fails_of_port_ge rfl, brgRead_answers⟩

/-! ### One cycle -/

theorem brgCounts_iff : q.brgCounts = true ↔ q.brMod ≠ 0 ∧ q.brInc ≠ 0 ∧ q.brInc.toNat ≤ q.brMod.toNat := by
  simp [Port.brgCounts, and_assoc]

theorem brgUnspecified_iff : q.brgUnspecified = true ↔ q.brMod ≠ 0 ∧ q.brMod.toNat < q.brInc.toNat := by
  simp [Port.brgUnspecified]

/-- A divider with modulus or increment 0 neither counts nor is outside its range. -/
theorem brgTick_of_off (hoff : (s.port p).brMod = 0 ∨ (s.port p).brInc = 0) : s.brgTick p = s := by
  have hcounts : ¬ (s.port p).brgCounts = true := fun h => by
    obtain ⟨hmod, hinc, -⟩ := brgCounts_iff.1 h
    exact hoff.elim hmod hinc
  have hrange : ¬ (s.port p).brgUnspecified = true := fun h => by
    obtain ⟨hmod, hlt⟩ := brgUnspecified_iff.1 h
    rcases hoff with hoff | hoff
    · exact hmod hoff
    · rw [hoff] at hlt
      exact Nat.not_lt_zero _ hlt
  exact (if_neg hcounts).trans (if_neg hrange)

/-- One value is drawn, and it says whether the event is emitted (R126). -/
theorem brgTick_of_unspecified (hrange : (s.port p).brgUnspecified = true) :
    s.brgTick p = if Config.freeTick s.freeCount then { s with freeCount := s.freeCount + 1 }.emit (.brgTick p)
      else { s with freeCount := s.freeCount + 1 } := by
  have hcounts : ¬ (s.port p).brgCounts = true := fun h => by
    obtain ⟨-, -, hle⟩ := brgCounts_iff.1 h
    obtain ⟨-, hlt⟩ := brgUnspecified_iff.1 hrange
    exact Nat.not_lt.2 hle hlt
  exact (if_neg hcounts).trans (if_pos hrange)

/-- A divider that counts, its accumulator in range (R124). -/
def Counting (q : Port) : Prop := q.brgCounts = true ∧ q.brAcc.toNat < q.brMod.toNat

/-- The sum of accumulator and increment is below twice the modulus, so that the one subtraction of R124 reduces it. -/
theorem brgTick_of_counting (h : Counting (s.port p)) :
    s.brgTick p = { s with
      ports := s.ports.set p { s.port p with
        brAcc := BitVec.ofNat 16 (((s.port p).brAcc.toNat + (s.port p).brInc.toNat) % (s.port p).brMod.toNat) }
      events := if (s.port p).brMod.toNat ≤ (s.port p).brAcc.toNat + (s.port p).brInc.toNat
        then s.events ++ [.brgTick p] else s.events } := by
  obtain ⟨hcounts, hacc⟩ := h
  obtain ⟨-, -, hinc⟩ := brgCounts_iff.1 hcounts
  refine (if_pos hcounts).trans ?_
  dsimp only
  split
  next hreach => rw [Nat.mod_eq_sub_mod hreach, Nat.mod_eq_of_lt (by omega)]; rfl
  next hbelow => rw [Nat.mod_eq_of_lt (Nat.not_le.1 hbelow)]; rfl

/-- Settles O22: one equation of the step for each of its three clauses. -/
theorem brgTickCounts : Obligations.BrgTickCounts := by
  unfold Obligations.BrgTickCounts
  rintro s p q rfl
  refine ⟨fun hoff => congrArg _ (brgTick_of_off hoff), fun hmod hinc hle hacc => ?_, fun hmod hlt => ?_⟩
  · exact congrArg _ (brgTick_of_counting ⟨brgCounts_iff.2 ⟨hmod, hinc, hle⟩, hacc⟩)
  · have htick := brgTick_of_unspecified (brgUnspecified_iff.2 ⟨hmod, hlt⟩)
    split at htick
    · exact ⟨s.freeCount + 1, .inr (congrArg _ htick)⟩
    · exact ⟨s.freeCount + 1, .inl (congrArg _ htick)⟩

/-! ### Many cycles -/

/-- The accumulator of a divider after `n` cycles, had no sum been reduced. -/
def accumulated (q : Port) (n : Nat) : Nat := q.brAcc.toNat + n * q.brInc.toNat

/-- The divider after `n` cycles. -/
def divided (q : Port) (n : Nat) : Port := { q with brAcc := BitVec.ofNat 16 (accumulated q n % q.brMod.toNat) }

/-- The state after `n` cycles of the divider of port `p`: one event for each time the accumulated sum reaches a
multiple of the modulus. -/
def ticked (s : State) (p n : Nat) : State :=
  { s with
    ports := s.ports.set p (divided (s.port p) n)
    events := s.events ++ List.replicate (accumulated (s.port p) n / (s.port p).brMod.toNat) (.brgTick p) }

theorem Counting.mod_pos (h : Counting q) : 0 < q.brMod.toNat := Nat.zero_lt_of_lt h.2

/-- A port that does not exist reads as one after reset, whose divider is off. -/
theorem Counting.lt_nPorts (h : Counting (s.port p)) : p < s.nPorts := by
  by_contra hge
  rw [s.port_of_ge p (Nat.not_lt.1 hge)] at h
  exact absurd h.1 (by decide)

theorem divided_brAcc_toNat (hmod : 0 < q.brMod.toNat) (n : Nat) :
    (divided q n).brAcc.toNat = accumulated q n % q.brMod.toNat := by
  have hlt := Nat.mod_lt (accumulated q n) hmod
  have hwidth := q.brMod.isLt
  exact (BitVec.toNat_ofNat _ _).trans (Nat.mod_eq_of_lt (hlt.trans hwidth))

theorem Counting.divided (h : Counting q) (n : Nat) : Counting (divided q n) := by
  refine ⟨h.1, ?_⟩
  rw [divided_brAcc_toNat h.mod_pos]
  exact Nat.mod_lt _ h.mod_pos

theorem port_ticked (hp : p < s.nPorts) (n : Nat) : (ticked s p n).port p = divided (s.port p) n :=
  s.port_setPort_self p _ hp

theorem Counting.ticked (h : Counting (s.port p)) (n : Nat) : Counting ((ticked s p n).port p) := by
  rw [port_ticked h.lt_nPorts]
  exact h.divided n

theorem accumulated_add (q : Port) (m n : Nat) : accumulated q (m + n) = accumulated q m + n * q.brInc.toNat := by
  simp only [accumulated]
  ring

theorem accumulated_divided (hmod : 0 < q.brMod.toNat) (m n : Nat) :
    accumulated (divided q m) n = accumulated q m % q.brMod.toNat + n * q.brInc.toNat :=
  congrArg (· + n * q.brInc.toNat) (divided_brAcc_toNat hmod m)

/-- The remainder that the first `m` cycles leave stands for their sum. -/
theorem divided_divided (hmod : 0 < q.brMod.toNat) (m n : Nat) : divided (divided q m) n = divided q (m + n) := by
  have hrem : accumulated (divided q m) n % q.brMod.toNat = accumulated q (m + n) % q.brMod.toNat := by
    rw [accumulated_divided hmod, accumulated_add, Nat.mod_add_mod]
  exact congrArg (fun acc => { q with brAcc := BitVec.ofNat 16 acc }) hrem

/-- The ticks of `m` cycles and those of the `n` that follow are those of `m + n`. -/
theorem accumulated_add_div (hmod : 0 < q.brMod.toNat) (m n : Nat) :
    accumulated q m / q.brMod.toNat + accumulated (divided q m) n / q.brMod.toNat =
      accumulated q (m + n) / q.brMod.toNat := by
  rw [accumulated_divided hmod, accumulated_add, ← Nat.mul_add_div hmod, ← Nat.add_assoc, Nat.div_add_mod]

theorem ticked_ticked (h : Counting (s.port p)) (m n : Nat) : ticked (ticked s p m) p n = ticked s p (m + n) := by
  have hports : (s.ports.set p (divided (s.port p) m)).set p (divided (divided (s.port p) m) n) =
      s.ports.set p (divided (s.port p) (m + n)) := by
    rw [List.set_set, divided_divided h.mod_pos]
  have hevents := congrArg (s.events ++ List.replicate · (Event.brgTick p)) (accumulated_add_div h.mod_pos m n)
  rw [← List.replicate_append_replicate, ← List.append_assoc] at hevents
  rw [ticked, port_ticked h.lt_nPorts]
  exact congrArg₂ (fun ps es => { s with ports := ps, events := es }) hports hevents

/-- One cycle is the step: the quotient is 1 where the sum reaches the modulus and 0 below it. -/
theorem brgTick_eq_ticked (h : Counting (s.port p)) : s.brgTick p = ticked s p 1 := by
  obtain ⟨-, -, hinc⟩ := brgCounts_iff.1 h.1
  have hacc := h.2
  rw [brgTick_of_counting h, ticked, divided, accumulated, Nat.one_mul]
  split
  next hreach => rw [Nat.div_eq_of_lt_le (k := 1) (by omega) (by omega)]; rfl
  next hbelow => rw [Nat.div_eq_of_lt (Nat.not_le.1 hbelow), List.replicate_zero, List.append_nil]

theorem ports_set_port (hp : p < s.nPorts) : s.ports.set p (s.port p) = s.ports := by
  have hport : s.port p = s.ports[p]'hp := List.getD_eq_getElem _ _ hp
  rw [hport]
  exact List.set_getElem_self hp

/-- Where the remainder is the accumulator itself only events are added. -/
theorem ticked_of_mod_eq {n : Nat} (hp : p < s.nPorts)
    (hrem : accumulated (s.port p) n % (s.port p).brMod.toNat = (s.port p).brAcc.toNat) :
    ticked s p n = { s with
      events := s.events ++ List.replicate (accumulated (s.port p) n / (s.port p).brMod.toNat) (.brgTick p) } := by
  have hport : divided (s.port p) n = s.port p := by
    rw [divided, hrem, BitVec.ofNat_toNat, BitVec.setWidth_eq]
  rw [ticked, hport, ports_set_port hp]

theorem ticked_zero (h : Counting (s.port p)) : ticked s p 0 = s := by
  have hsum : accumulated (s.port p) 0 = (s.port p).brAcc.toNat := by rw [accumulated, Nat.zero_mul, Nat.add_zero]
  rw [ticked_of_mod_eq h.lt_nPorts (by rw [hsum, Nat.mod_eq_of_lt h.2]), hsum, Nat.div_eq_of_lt h.2,
    List.replicate_zero, List.append_nil]

/-- After as many cycles as the modulus the divider is back where it was, with one tick for each unit of the
increment. -/
theorem ticked_mod (h : Counting (s.port p)) :
    ticked s p (s.port p).brMod.toNat =
      { s with events := s.events ++ List.replicate (s.port p).brInc.toNat (.brgTick p) } := by
  rw [ticked_of_mod_eq h.lt_nPorts (by rw [accumulated, Nat.add_mul_mod_self_left, Nat.mod_eq_of_lt h.2]), accumulated,
    Nat.add_mul_div_left _ _ h.mod_pos, Nat.div_eq_of_lt h.2, Nat.zero_add]

/-- The run along an agenda of ticks, by induction on their number. -/
theorem run_ticks {ag : List Move} (n : Nat) (h : Counting (s.port p))
    (hagenda : s.agenda = List.replicate n (.brgTick p) ++ ag) :
    core.run n s = .next { ticked s p n with agenda := ag } := by
  induction n generalizing s with
  | zero =>
    rw [run_zero, ticked_zero h]
    exact congrArg (fun ms => Host.Outcome.next { s with agenda := ms }) hagenda
  | succ n ih =>
    have hstep : step s = .next { ticked s p 1 with agenda := List.replicate n (.brgTick p) ++ ag } := by
      rw [step_of_agenda (m := .brgTick p) hagenda]
      exact congrArg Host.Outcome.next (brgTick_eq_ticked h)
    have hjoin : ticked (ticked s p 1) p n = ticked s p (n + 1) := by rw [ticked_ticked h, Nat.add_comm]
    calc core.run (n + 1) s
      _ = core.run n { ticked s p 1 with agenda := List.replicate n (.brgTick p) ++ ag } := run_succ n hstep
      _ = .next { ticked (ticked s p 1) p n with agenda := ag } := ih (h.ticked 1) rfl
      _ = .next { ticked s p (n + 1) with agenda := ag } := by rw [hjoin]

/-- Settles O23: the run is `BR_MOD` cycles of the closed form. -/
theorem brgTickRate : Obligations.BrgTickRate := by
  unfold Obligations.BrgTickRate
  intro s p ag hcounts hacc hagenda
  have h : Counting (s.port p) := ⟨hcounts, hacc⟩
  rw [run_ticks _ h hagenda, ticked_mod h]

end Sys2Proof.Proofs
end

