-- ==== Sys2Proof/Proofs/Uart.lean ====
section
/-!
PROOFS. The UART port commands (42_uart_seq.md R140 to R153).

The eight commands on a Configured port begin with one check, `withConfigured`. Past it each outcome has one equation;
the check itself is settled once for all of them.
-/

namespace Sys2Proof.Proofs

open Sys2Proof.Machine

variable {s : State} {sel : BitVec 8} {q : Port}

/-! ### The check of the port (R142) -/

section Configured
variable {i : Instr} {k : Nat → State}

theorem fails_of_port_bad (hexec : exec i s = .next (withConfigured sel s k))
    (hbad : s.nPorts ≤ sel.toNat ∨ (s.port sel.toNat).configured = false) : Fails i s .noSuchDevice := by
  rcases withConfigured_cases (sel := sel) (s := s) (k := k) with ⟨-, he⟩ | ⟨hlt, hc, -⟩
  · exact hexec.trans (congrArg _ he)
  · exact absurd hbad (by simp [hc, hlt])

theorem exec_of_configured (hexec : exec i s = .next (withConfigured sel s k)) (hlt : sel.toNat < s.nPorts)
    (hc : (s.port sel.toNat).configured = true) : exec i s = .next (k sel.toNat) := by
  rcases withConfigured_cases (sel := sel) (s := s) (k := k) with ⟨hbad, -⟩ | ⟨-, -, he⟩
  · exact absurd hbad (by simp [hc, hlt])
  · exact hexec.trans (congrArg _ he)

end Configured

/-- Settles O11: each of the eight commands begins with the port check. -/
theorem portCheckFails : Obligations.PortCheckFails := by
  unfold Obligations.PortCheckFails
  intro s sel token v e hbad i hi
  simp only [List.mem_cons, List.not_mem_nil, or_false] at hi
  rcases hi with rfl | rfl | rfl | rfl | rfl | rfl | rfl | rfl <;> exact fails_of_port_bad rfl hbad

/-! ### Initialisation (R140, R141) -/

/-- Past the port check the name is checked, and then the port initialised. -/
theorem exec_uartInit (baud name : Word) (hlt : sel.toNat < s.nPorts) :
    exec (.uartInit sel baud name) s = .next
      (if name = 0 then s.fail .invalidArgument else (s.initPort sel.toNat baud).respond .ok 0 0) :=
  exec_of_port_lt (i := .uartInit sel baud name) rfl hlt

/-- Settles O24: the two checks in order, then the registers `initPort` writes, each at its value of R140. -/
theorem uartInitConfiguresPort : Obligations.UartInitConfiguresPort := by
  unfold Obligations.UartInitConfiguresPort
  rintro s sel baud name w rfl
  refine ⟨decode_encode (.uartInit sel baud name), fails_of_port_ge rfl, fun hlt hname => ?_, fun hlt hname => ?_⟩
  · exact (exec_uartInit baud name hlt).trans (congrArg _ (if_pos hname))
  · exact (exec_uartInit baud name hlt).trans (congrArg _ (if_neg hname))

/-! ### Callbacks and enables (R145 to R148) -/

/-- Settles O25: past the port check each command is one write of the port record. -/
theorem uartSetCallbacks : Obligations.UartSetCallbacks := by
  unfold Obligations.UartSetCallbacks
  intro s sel token
  refine ⟨decode_encode (.uartSetRxCb sel token), decode_encode (.uartSetTxCb sel token),
    fun hbad => ⟨fails_of_port_bad rfl hbad, fails_of_port_bad rfl hbad⟩, fun hlt hc => ⟨?_, ?_⟩⟩
  · exact exec_of_configured (i := .uartSetRxCb sel token) rfl hlt hc
  · exact exec_of_configured (i := .uartSetTxCb sel token) rfl hlt hc

/-- A one-bit operand sets the register exactly when it is 1 (30_encoding.md R84). -/
theorem bitOf_eq_decide (e : BitVec 1) : bitOf e = decide (e = 1) := by
  revert e
  decide

theorem uartRxiSet_answers (e : BitVec 1) (hlt : sel.toNat < s.nPorts) (hc : (s.port sel.toNat).configured = true) :
    Answers (.uartRxiSet sel e) s 0 (if (s.port sel.toNat).rxIe = true then 1 else 0)
      (s.setPort sel.toNat { s.port sel.toNat with rxIe := decide (e = 1) }) := by
  rw [Answers, exec_of_configured rfl hlt hc, flagData_eq, bitOf_eq_decide]
  rfl

theorem uartTxiSet_answers (e : BitVec 1) (hlt : sel.toNat < s.nPorts) (hc : (s.port sel.toNat).configured = true) :
    Answers (.uartTxiSet sel e) s 0 (if (s.port sel.toNat).txIe = true then 1 else 0)
      (s.setPort sel.toNat { s.port sel.toNat with txIe := decide (e = 1) }) := by
  rw [Answers, exec_of_configured rfl hlt hc, flagData_eq, bitOf_eq_decide]
  rfl

/-- Settles O26: the enable written is the operand's bit, the one answered is that of the port before. -/
theorem uartEnablesExchange : Obligations.UartEnablesExchange := by
  unfold Obligations.UartEnablesExchange
  intro s sel e
  exact ⟨decode_encode (.uartRxiSet sel e), decode_encode (.uartTxiSet sel e),
    fun hbad => ⟨fails_of_port_bad rfl hbad, fails_of_port_bad rfl hbad⟩,
    fun hlt hc => ⟨uartRxiSet_answers e hlt hc, uartTxiSet_answers e hlt hc⟩⟩

/-! ### The two commands that wait (R150, R151) -/

/-- The TX FIFO has room below its depth (10_state.md R31). -/
theorem txSpace_iff : q.txSpace = true ↔ q.txf.length < 32 := decide_eq_true_iff

theorem txSpace_eq_false_iff : q.txSpace = false ↔ 32 ≤ q.txf.length := by
  rw [← Bool.not_eq_true, txSpace_iff, Nat.not_lt]

/-- Settles O27: the command queues its byte or is held, by the room in the TX FIFO. -/
theorem uartTxfPutQueuesOrHolds : Obligations.UartTxfPutQueuesOrHolds := by
  unfold Obligations.UartTxfPutQueuesOrHolds
  intro s sel v
  refine ⟨decode_encode (.uartTxfPut sel v), fails_of_port_bad rfl, fun hlt hc hroom => ?_, fun hlt hc hfull => ?_⟩
  · rw [Answers, exec_of_configured rfl hlt hc, txSpace_iff.2 hroom]
    rfl
  · rw [exec_of_configured rfl hlt hc, txSpace_eq_false_iff.2 hfull]
    rfl

/-- Settles O28: the command takes the head byte or is held, by the form of the RX FIFO. -/
theorem uartRxfGetTakesOrHolds : Obligations.UartRxfGetTakesOrHolds := by
  unfold Obligations.UartRxfGetTakesOrHolds
  intro s sel v rest
  refine ⟨decode_encode (.uartRxfGet sel), fails_of_port_bad rfl, fun hlt hc hrxf => ?_, fun hlt hc hrxf => ?_⟩
  · rw [Answers, exec_of_configured rfl hlt hc, hrxf]
    rfl
  · rw [exec_of_configured rfl hlt hc, hrxf]
    rfl

/-! ### Status (R152) -/

/-- The six condition flags in bits 0 to 5. -/
theorem statusWord_flags (q : Port) :
    q.statusWord.getLsbD 0 = q.rxReady ∧ q.statusWord.getLsbD 1 = q.txReady ∧ q.statusWord.getLsbD 2 = q.rxIe ∧
    q.statusWord.getLsbD 3 = q.txIe ∧ q.statusWord.getLsbD 4 = !q.rxf.isEmpty ∧
    q.statusWord.getLsbD 5 = q.txSpace := by
  rw [Port.statusWord]
  simp only [BitVec.getLsbD_append]
  simp

/-- The fields above the flags: each is the lowest once those below it are peeled off. -/
theorem statusWord_fields (q : Port) :
    q.statusWord.extractLsb' 6 2 = 0 ∧ q.statusWord.extractLsb' 8 6 = BitVec.ofNat 6 q.rxfCount ∧
    q.statusWord.extractLsb' 14 2 = 0 ∧ q.statusWord.extractLsb' 16 6 = BitVec.ofNat 6 q.txfFree ∧
    q.statusWord.extractLsb' 22 10 = 0 := by
  unfold Port.statusWord
  refine ⟨?_, ?_, ?_, ?_, ?_⟩
  all_goals repeat rw [BitVec.extractLsb'_append_eq_of_le (by decide)]
  case refine_5 => exact BitVec.extractLsb'_eq_self
  all_goals exact BitVec.extractLsb'_append_eq_right

/-- A count of FIFO entries fits its six bits. -/
theorem toNat_ofNat_fifo {n : Nat} (hn : n ≤ Config.fifoDepth) : (BitVec.ofNat 6 n).toNat = n := by
  have hdepth : Config.fifoDepth = 32 := rfl
  rw [BitVec.toNat_ofNat, Nat.mod_eq_of_lt (by omega)]

theorem isEmpty_not_eq_decide (xs : List Byte) : (!xs.isEmpty) = decide (0 < xs.length) := by
  cases xs <;> simp

/-- Settles O29: the fields of the status word, with the flags of a Configured port at their conditions. -/
theorem uartStatusShowsFlags : Obligations.UartStatusShowsFlags := by
  unfold Obligations.UartStatusShowsFlags
  intro s sel
  refine ⟨decode_encode (.uartStatus sel), fails_of_port_bad rfl, fun hlt hc hinv => ?_⟩
  have hanswer : Answers (.uartStatus sel) s 0 (s.port sel.toNat).statusWord s :=
    exec_of_configured (i := .uartStatus sel) rfl hlt hc
  generalize s.port sel.toNat = q at hc hinv hanswer ⊢
  obtain ⟨hrxReady, htxReady, hrxIe, htxIe, hrxf, htxSpace⟩ := statusWord_flags q
  obtain ⟨hunusedLow, hrxfCount, hunusedMid, htxfFree, hunusedHigh⟩ := statusWord_fields q
  refine ⟨q.statusWord, hanswer, ?_, ?_, hrxIe, htxIe, hrxf.trans (isEmpty_not_eq_decide _), htxSpace, hunusedLow, ?_,
    hunusedMid, ?_, hunusedHigh⟩
  · rw [hrxReady, Port.rxReady, hc, Bool.true_and]
    rfl
  · rw [htxReady, Port.txReady, hc, Bool.true_and]
    rfl
  · exact (congrArg BitVec.toNat hrxfCount).trans (toNat_ofNat_fifo (rxf_length_le hinv))
  · exact (congrArg BitVec.toNat htxfFree).trans (toNat_ofNat_fifo (Nat.sub_le _ _))

/-! ### The start of a service (R153) -/

/-- Settles O30: past the port check the phase is written and the command held. -/
theorem uartIsrStartsService : Obligations.UartIsrStartsService := by
  unfold Obligations.UartIsrStartsService
  intro s sel
  exact ⟨decode_encode (.uartIsr sel), fails_of_port_bad rfl,
    fun hlt hc => ⟨[], exec_of_configured (i := .uartIsr sel) rfl hlt hc⟩⟩

end Sys2Proof.Proofs
end

