-- ==== Sys2Proof/Proofs/Sequencer.lean ====
section
/-!
PROOFS. The serial line (42_uart_seq.md R165, R166), the six micro-steps of the sequencer (R157 to R162), and what a
running service keeps out (R156).

Each step has one equation per outcome, under the condition that picks the outcome. What the line, the external
requests and the clock may do beside a service is one relation, `Beside`, with a rule per state operation.
-/

namespace Sys2Proof.Proofs

open Sys2Proof.Machine

variable {s t : State} {p : Nat} {q : Port} {v : Byte} {rest : List Byte} {x : Phase} {m : Move}

/-! ### The serial line -/

theorem lineRx_of_room (hc : (s.port p).configured = true) (hroom : (s.port p).rxf.length < 32) :
    s.lineRx p v = s.setPort p { s.port p with rxf := (s.port p).rxf ++ [v] } := by
  simp only [State.lineRx, hc, Bool.true_and]
  exact if_pos (decide_eq_true hroom)

theorem lineRx_of_lost (hlost : (s.port p).configured = false ∨ 32 ≤ (s.port p).rxf.length) : s.lineRx p v = s := by
  refine if_neg fun htaken => ?_
  obtain ⟨hc, hroom⟩ : (s.port p).configured = true ∧ (s.port p).rxf.length < Config.fifoDepth := by
    simpa using htaken
  rcases hlost with hbad | hfull
  · exact absurd (hc.symm.trans hbad) (by decide)
  · exact Nat.not_lt.2 hfull hroom

theorem lineTx_of_cons (hc : (s.port p).configured = true) (htxf : (s.port p).txf = v :: rest) :
    s.lineTx p = (s.setPort p { s.port p with txf := rest }).emit (.lineOut p v) := by
  simp only [State.lineTx, hc, htxf]

theorem lineTx_of_none (hnone : (s.port p).configured = false ∨ (s.port p).txf = []) : s.lineTx p = s := by
  rw [State.lineTx]
  split
  next hc htxf => simp [hc, htxf] at hnone
  next => rfl

/-- Settles O36: one equation of the two line steps for each of the four clauses. -/
theorem lineMovesBytes : Obligations.LineMovesBytes := by
  unfold Obligations.LineMovesBytes
  rintro s p v q rfl
  exact ⟨fun hc hroom => congrArg _ (lineRx_of_room hc hroom), fun hlost => congrArg _ (lineRx_of_lost hlost),
    fun u rest hc htxf => congrArg _ (lineTx_of_cons hc htxf), fun hnone => congrArg _ (lineTx_of_none hnone)⟩

/-! ### The turn of a running sequencer -/

theorem lt_of_running (hrun : s.Running p x) : p < s.nPorts := hrun.1

theorem phase_of_running (hrun : s.Running p x) : (s.port p).phase = x := by
  obtain ⟨-, hphase, -, -⟩ := hrun
  exact hphase

theorem performMove_seq_eq (hrun : s.Running p x) (hstep : s.seqStep p = t) : performMove .seq s = .next t :=
  (performMove_seq hrun).trans (congrArg _ hstep)

/-! ### The two conditions of the service (R157, R160) -/

theorem rxCondition_iff : (q.rxReady && q.rxIe) = true ↔
    q.configured = true ∧ q.rxLevel.toNat ≤ q.rxf.length ∧ q.rxIe = true := by
  simp only [Port.rxReady, Bool.and_eq_true, decide_eq_true_eq, and_assoc]
  rfl

theorem txCondition_iff : (q.txReady && q.txIe) = true ↔
    q.configured = true ∧ q.txLevel.toNat ≤ 32 - q.txf.length ∧ q.txIe = true := by
  simp only [Port.txReady, Bool.and_eq_true, decide_eq_true_eq, and_assoc]
  rfl

/-! ### The RX micro-steps -/

theorem seqStep_of_rxTest (hphase : (s.port p).phase = .rxTest) :
    s.seqStep p = s.setPhase p
      (if (s.port p).configured = true ∧ (s.port p).rxLevel.toNat ≤ (s.port p).rxf.length ∧ (s.port p).rxIe = true
        then .rxDrain else .txTest) := by
  simp only [State.seqStep, hphase, State.seqRxTest, rxCondition_iff]
  split <;> rfl

theorem seqStep_of_rxMove (hphase : (s.port p).phase = .rxDrain) (hroom : (s.ring (rxRing p)).isFull = false)
    (hrxf : (s.port p).rxf = v :: rest) :
    s.seqStep p = ((s.setPort p { s.port p with rxf := rest }).writeByte
      ((s.ring (rxRing p)).slot (s.ring (rxRing p)).wr).toNat v).setRing (rxRing p) (s.ring (rxRing p)).afterWrite := by
  have hstep : s.seqStep p = s.seqRxMove p v rest := by simp only [State.seqStep, hphase, hroom, hrxf]
  rw [hstep, State.seqRxMove, ringWrite_of_room (by exact hroom)]
  rfl

/-- An announcement adds at most one event and writes the core agent's own record of callbacks. -/
theorem announce_eq (s : State) (p : Nat) (d : Dir) (token : Token) : ∃ c, s.announce p d token = { s with
    events := if token = 0 then s.events else s.events ++ [.callback p d token], callbacks := c } := by
  rcases s.announce_cases p d token with ⟨htoken, he⟩ | ⟨htoken, he⟩
  · exact ⟨s.callbacks, by rw [he, if_pos htoken]⟩
  · exact ⟨_, by rw [he, if_neg htoken]⟩

theorem seqStep_of_rxEnd (hphase : (s.port p).phase = .rxDrain)
    (hend : (s.ring (rxRing p)).isFull = true ∨ (s.port p).rxf = []) :
    ∃ c, s.seqStep p = { s with
      ports := s.ports.set p { s.port p with
        rxIe := if (s.ring (rxRing p)).isFull = true then false else (s.port p).rxIe, phase := .txTest }
      events := if (s.port p).rxCb = 0 then s.events else s.events ++ [.callback p .rx (s.port p).rxCb]
      callbacks := c } := by
  have hstep : s.seqStep p = s.seqRxEnd p := by
    simp only [State.seqStep, hphase]
    split
    next hroom hrxf => simp [hroom, hrxf] at hend
    next => rfl
  obtain ⟨c, hannounce⟩ := announce_eq s p .rx (s.port p).rxCb
  refine ⟨c, ?_⟩
  rw [hstep, State.seqRxEnd, hannounce]
  rfl

/-- Settles O32: one equation of the micro-step for each of its three clauses. -/
theorem sequencerReceives : Obligations.SequencerReceives := by
  unfold Obligations.SequencerReceives
  rintro s p q x rfl rfl
  refine ⟨fun hrun => ?_, fun v rest hrun hroom hrxf => ?_, fun hrun hend => ?_⟩
  · exact performMove_seq_eq hrun (seqStep_of_rxTest (phase_of_running hrun))
  · exact ⟨_, performMove_seq_eq hrun (seqStep_of_rxMove (phase_of_running hrun) hroom hrxf),
      readByte_writeByte s _ v⟩
  · obtain ⟨c, hstep⟩ := seqStep_of_rxEnd (phase_of_running hrun) hend
    exact ⟨c, performMove_seq_eq hrun hstep⟩

/-! ### The TX micro-steps -/

theorem seqStep_of_txTest_met (hphase : (s.port p).phase = .txTest) (hc : (s.port p).configured = true)
    (hlevel : (s.port p).txLevel.toNat ≤ 32 - (s.port p).txf.length) (hie : (s.port p).txIe = true) :
    s.seqStep p = s.setPhase p .txFill := by
  simp only [State.seqStep, hphase]
  exact if_pos (txCondition_iff.2 ⟨hc, hlevel, hie⟩)

theorem seqStep_of_txTest_unmet (hphase : (s.port p).phase = .txTest)
    (hunmet : (s.port p).configured = false ∨ 32 - (s.port p).txf.length < (s.port p).txLevel.toNat ∨
      (s.port p).txIe = false) :
    s.seqStep p = s.endService p := by
  simp only [State.seqStep, hphase]
  refine if_neg fun hmet => ?_
  obtain ⟨hc, hlevel, hie⟩ := txCondition_iff.1 hmet
  rcases hunmet with hbad | hbelow | hoff
  · exact absurd (hc.symm.trans hbad) (by decide)
  · omega
  · exact absurd (hie.symm.trans hoff) (by decide)

theorem seqStep_of_txMove (hphase : (s.port p).phase = .txFill) (hbytes : (s.ring (txRing p)).isEmpty = false)
    (hroom : (s.port p).txf.length < 32) :
    s.seqStep p = (s.setRing (txRing p) (s.ring (txRing p)).afterRead).setPort p { s.port p with
      txf := (s.port p).txf ++ [s.readByte ((s.ring (txRing p)).slot (s.ring (txRing p)).rd).toNat] } := by
  have hstep : s.seqStep p = s.seqTxMove p := by
    simp only [State.seqStep, hphase, hbytes, txSpace_iff.2 hroom]
    rfl
  rw [hstep, State.seqTxMove, ringRead_of_bytes hbytes]
  rfl

/-- The last write of the port record and the end of the service are one write. -/
theorem endService_setPort (hlt : p < s.nPorts) (q : Port) :
    (s.setPort p q).endService p = (s.setPort p { q with phase := .idle }).respond .ok 0 0 := by
  have hset : ∀ q', (s.setPort p q).setPort p q' = s.setPort p q' := fun q' => by simp [State.setPort]
  rw [State.endService, State.setPhase, State.port_setPort_self _ _ _ hlt, hset]

theorem seqStep_of_txEnd (hlt : p < s.nPorts) (hphase : (s.port p).phase = .txFill)
    (hend : (s.ring (txRing p)).isEmpty = true ∨ 32 ≤ (s.port p).txf.length) :
    ∃ c, s.seqStep p = { s with
      ports := s.ports.set p { s.port p with
        txIe := if (s.ring (txRing p)).isEmpty = true then false else (s.port p).txIe, phase := .idle }
      events := if (s.port p).txCb = 0 then s.events else s.events ++ [.callback p .tx (s.port p).txCb]
      callbacks := c
      busy := none
      rsp := answer 0 0 } := by
  have hstep : s.seqStep p = s.seqTxEnd p := by
    simp only [State.seqStep, hphase]
    refine if_neg fun hmove => ?_
    rw [Bool.and_eq_true, txSpace_iff, Bool.not_eq_true'] at hmove
    rcases hend with hempty | hfull
    · exact absurd (hempty.symm.trans hmove.1) (by decide)
    · omega
  obtain ⟨c, hannounce⟩ := announce_eq s p .tx (s.port p).txCb
  refine ⟨c, ?_⟩
  rw [hstep, State.seqTxEnd, hannounce, endService_setPort (by exact hlt)]
  rfl

/-- Settles O33: one equation of the micro-step for each of its four clauses. -/
theorem sequencerTransmits : Obligations.SequencerTransmits := by
  unfold Obligations.SequencerTransmits
  rintro s p q x rfl rfl
  refine ⟨fun hrun hc hlevel hie => ?_, fun hrun hunmet => ?_, fun hrun hbytes hroom => ?_, fun hrun hend => ?_⟩
  · exact performMove_seq_eq hrun (seqStep_of_txTest_met (phase_of_running hrun) hc hlevel hie)
  · exact performMove_seq_eq hrun (seqStep_of_txTest_unmet (phase_of_running hrun) hunmet)
  · exact performMove_seq_eq hrun (seqStep_of_txMove (phase_of_running hrun) hbytes hroom)
  · obtain ⟨c, hstep⟩ := seqStep_of_txEnd (lt_of_running hrun) (phase_of_running hrun) hend
    exact ⟨c, performMove_seq_eq hrun hstep⟩

/-! ### Beside a running service (R156) -/

/-- From `s` to `t` every sequencer, the command port, the core agent's program, the rings and memory stay. -/
structure Beside (s t : State) : Prop where
  nPorts : t.nPorts = s.nPorts
  phase : ∀ j, (t.port j).phase = (s.port j).phase
  busy : t.busy = s.busy
  rsp : t.rsp = s.rsp
  code : t.code = s.code
  agenda : t.agenda = s.agenda
  rings : t.rings = s.rings
  mem : t.mem = s.mem

namespace Beside

theorem refl (s : State) : Beside s s := ⟨rfl, fun _ => rfl, rfl, rfl, rfl, rfl, rfl, rfl⟩

/-- A port record changes beside the service where its phase stays. -/
theorem setPort (s : State) {q : Port} (hphase : q.phase = (s.port p).phase) : Beside s (s.setPort p q) :=
  ⟨s.setPort_nPorts p q, apply_port_setPort Port.phase s hphase, rfl, rfl, rfl, rfl, rfl, rfl⟩

theorem setSource (s : State) (i : Nat) (y : Source) : Beside s (s.setSource i y) :=
  ⟨rfl, fun _ => rfl, rfl, rfl, rfl, rfl, rfl, rfl⟩

theorem emit (h : Beside s t) (e : Event) : Beside s (t.emit e) := { h with }

theorem running (h : Beside s t) (hrun : s.Running p x) : t.Running p x := by
  obtain ⟨hlt, hphase, hx, hothers⟩ := hrun
  rw [← h.nPorts] at hlt
  exact ⟨hlt, (h.phase p).trans hphase, hx,
    fun j hj hne => (h.phase j).trans (hothers j (h.nPorts ▸ hj) hne)⟩

end Beside

theorem lineRx_beside (s : State) (p : Nat) (v : Byte) : Beside s (s.lineRx p v) := by
  rw [State.lineRx]
  split
  · exact .setPort s rfl
  · exact .refl s

theorem lineTx_beside (s : State) (p : Nat) : Beside s (s.lineTx p) := by
  rw [State.lineTx]
  split
  · refine .emit ?_ _
    exact .setPort s rfl
  · exact .refl s

theorem extIrq_beside (s : State) (src : Nat) (level : Bool) : Beside s (s.extIrq src level) := by
  rw [State.extIrq]
  split
  · exact .refl s
  · exact .setSource s _ _

theorem brgTick_beside (s : State) (p : Nat) : Beside s (s.brgTick p) := by
  have hdraw : Beside s { s with freeCount := s.freeCount + 1 } := { Beside.refl s with }
  rw [State.brgTick]
  dsimp only
  split
  · split
    · refine .emit ?_ _
      exact .setPort s rfl
    · exact .setPort s rfl
  · split
    · split
      · exact hdraw.emit _
      · exact hdraw
    · exact .refl s

/-- Every move that is neither the core side's nor the sequencer's. -/
theorem performMove_beside (s : State) (hoff : m.offCore = true) (hne : m ≠ .seq) :
    ∃ t, performMove m s = .next t ∧ Beside s t := by
  cases m with
  | core => cases hoff
  | trap => cases hoff
  | seq => exact absurd rfl hne
  | lineRx p v => exact ⟨_, rfl, lineRx_beside s p v⟩
  | lineTx p => exact ⟨_, rfl, lineTx_beside s p⟩
  | extIrq src level => exact ⟨_, rfl, extIrq_beside s src level⟩
  | brgTick p => exact ⟨_, rfl, brgTick_beside s p⟩

theorem coreMove_of_active (hactive : s.activePort = some p) : coreMove s = .next s := by
  rw [coreMove, hactive]

/-- A trap waits for the command boundary (60_exceptions.md R257). -/
theorem trapMove_of_active (hactive : s.activePort = some p) : s.trapMove = s := by
  have hboundary : s.atBoundary = false := by simp [State.atBoundary, hactive]
  simp [State.trapMove, State.fiqEnabled, State.irqEnabled, hboundary]

/-- Settles O34: the core side sees the active port, and every other agent moves beside the service. -/
theorem serviceExcludesCoreSide : Obligations.ServiceExcludesCoreSide := by
  unfold Obligations.ServiceExcludesCoreSide
  intro s p x hrun
  have hactive := State.activePort_of_running hrun
  refine ⟨coreMove_of_active hactive, congrArg _ (trapMove_of_active hactive), fun m t hoff hne hmove => ?_⟩
  obtain ⟨u, hmove', h⟩ := performMove_beside s hoff hne
  cases hmove.symm.trans hmove'
  exact ⟨h.running hrun, h.busy, h.rsp, h.code, h.rings, h.mem⟩

end Sys2Proof.Proofs
end

