-- ==== Sys2Proof/Proofs/Service.lean ====
section
/-!
PROOFS. Every interrupt service ends (42_uart_seq.md R163).

`stepsLeft` bounds the micro-steps still to come: one for each phase ahead, one for each free slot of the RX ring while
it can still be drained into, one for each byte pending in the TX ring. Every micro-step lowers it or ends the service,
every move beside the service keeps it, and no more than `4` and the two capacities are ever left.
-/

namespace Sys2Proof.Proofs

open Sys2Proof.Machine

variable {s t : State} {p : Nat} {m : Move}

/-! ### The bound -/

/-- The micro-steps at most left in a phase, with `free` slots in the RX ring and `pending` bytes in the TX ring. -/
def phaseSteps : Phase → Nat → Nat → Nat
  | .idle, _, _ => 0
  | .rxTest, free, pending => 4 + free + pending
  | .rxDrain, free, pending => 3 + free + pending
  | .txTest, _, pending => 2 + pending
  | .txFill, _, pending => 1 + pending

/-- The micro-steps at most left in the service of port `p`. -/
def stepsLeft (s : State) (p : Nat) : Nat :=
  phaseSteps (s.port p).phase (s.ring (rxRing p)).free (s.ring (txRing p)).pending

theorem phaseSteps_pos {x : Phase} (hx : x ≠ .idle) (free pending : Nat) : 0 < phaseSteps x free pending := by
  cases x with
  | idle => exact absurd rfl hx
  | rxTest | rxDrain | txTest | txFill => simp only [phaseSteps]; omega

theorem phaseSteps_le (x : Phase) (free pending : Nat) : phaseSteps x free pending ≤ 4 + free + pending := by
  cases x <;> simp only [phaseSteps] <;> omega

theorem stepsLeft_le (h : Legal s) (p : Nat) :
    stepsLeft s p ≤ 4 + (s.ring (rxRing p)).cap.toNat + (s.ring (txRing p)).cap.toNat := by
  have hfree : (s.ring (rxRing p)).free ≤ (s.ring (rxRing p)).cap.toNat := Nat.sub_le _ _
  have hpending := Ring.pending_le_cap _ (h.ring (txRing p))
  have hphase := phaseSteps_le (s.port p).phase (s.ring (rxRing p)).free (s.ring (txRing p)).pending
  rw [stepsLeft]
  omega

theorem free_afterWrite {y : Ring} (hI : y.Inv) (hroom : y.isFull = false) : y.afterWrite.free + 1 = y.free := by
  have hpending := Ring.pending_afterWrite y hI hroom
  have hlt := Ring.pending_lt_cap y hI hroom
  have hcap : y.afterWrite.cap = y.cap := rfl
  simp only [Ring.free, hcap]
  omega

/-! ### What one move does to a service -/

/-- The service of port `p` has ended with the answer to its `UART_ISR` (R162). -/
def Ended (s : State) (p : Nat) : Prop := (s.port p).phase = .idle ∧ s.busy = none ∧ s.rsp = answer 0 0

/-- From `s` to `t` the service of port `p` goes on with at least `n` micro-steps fewer to come. -/
structure GoesOn (n : Nat) (s t : State) (p : Nat) : Prop where
  running : (t.port p).phase ≠ .idle
  agenda : t.agenda = s.agenda
  fewer : stepsLeft t p + n ≤ stepsLeft s p

theorem Beside.goesOn (h : Beside s t) (hrun : (s.port p).phase ≠ .idle) : GoesOn 0 s t p where
  running := h.phase p ▸ hrun
  agenda := h.agenda
  fewer := by simp only [stepsLeft, State.ring, h.phase, h.rings, Nat.add_zero, Nat.le_refl]

/-- A micro-step goes on by the phase it leaves port `p` in and the two rings. -/
theorem goesOn_of_phase {x x' : Phase} (hphase : (s.port p).phase = x) (hphase' : (t.port p).phase = x')
    (hx' : x' ≠ .idle) (hagenda : t.agenda = s.agenda)
    (hfewer : phaseSteps x' (t.ring (rxRing p)).free (t.ring (txRing p)).pending + 1 ≤
      phaseSteps x (s.ring (rxRing p)).free (s.ring (txRing p)).pending) : GoesOn 1 s t p := by
  subst hphase hphase'
  exact ⟨hx', hagenda, hfewer⟩

/-- A micro-step that leaves the rings as they are goes on to a later phase. -/
theorem goesOn_of_rings {x x' : Phase} (hphase : (s.port p).phase = x) (hphase' : (t.port p).phase = x')
    (hx' : x' ≠ .idle) (hagenda : t.agenda = s.agenda) (hrings : t.rings = s.rings)
    (hlater : ∀ free pending, phaseSteps x' free pending + 1 ≤ phaseSteps x free pending) : GoesOn 1 s t p := by
  refine goesOn_of_phase hphase hphase' hx' hagenda ?_
  simp only [State.ring, hrings]
  exact hlater _ _

theorem phase_setPort (hlt : p < s.nPorts) (q : Port) : ((s.setPort p q).port p).phase = q.phase := by
  rw [s.port_setPort_self p q hlt]

theorem phase_endService (hlt : p < s.nPorts) : ((s.endService p).port p).phase = .idle :=
  phase_setPort hlt _

/-- A port has its two rings (00_scope.md R7). -/
theorem Serving.rings_lt (h : Serving s p) : rxRing p < s.nRings ∧ txRing p < s.nRings := by
  have hlt := h.lt
  have hports := h.nPorts
  have hrings := h.nRings
  simp only [rxRing, txRing]
  omega

theorem rxRing_ne_txRing (p : Nat) : rxRing p ≠ txRing p := by
  simp only [rxRing, txRing]
  omega

/-! ### The micro-steps, phase by phase -/

section MicroSteps
variable {v : Byte} {rest : List Byte}

theorem rxTest_goesOn (h : Serving s p) (hphase : (s.port p).phase = .rxTest) : GoesOn 1 s (s.seqStep p) p := by
  rw [seqStep_of_rxTest hphase]
  split <;>
  · exact goesOn_of_rings hphase (phase_setPort h.lt _) nofun rfl rfl fun _ _ => by
      simp only [phaseSteps]; omega

/-- A byte moved into the RX ring takes one of its free slots. -/
theorem rxMove_goesOn (h : Serving s p) (hphase : (s.port p).phase = .rxDrain)
    (hroom : (s.ring (rxRing p)).isFull = false) (hrxf : (s.port p).rxf = v :: rest) :
    GoesOn 1 s (s.seqStep p) p := by
  obtain ⟨hrx, -⟩ := h.rings_lt
  have hfree := free_afterWrite (h.toLegal.ring (rxRing p)) hroom
  rw [seqStep_of_rxMove hphase hroom hrxf]
  refine goesOn_of_phase hphase ((phase_setPort h.lt _).trans hphase) (by decide) rfl ?_
  rw [State.ring_setRing_self _ _ _ (by exact hrx), State.ring_setRing_ne _ _ _ _ (rxRing_ne_txRing p)]
  simp only [phaseSteps, State.writeByte_ring, State.setPort_ring]
  omega

theorem rxEnd_goesOn (h : Serving s p) (hphase : (s.port p).phase = .rxDrain)
    (hend : (s.ring (rxRing p)).isFull = true ∨ (s.port p).rxf = []) : GoesOn 1 s (s.seqStep p) p := by
  obtain ⟨c, he⟩ := seqStep_of_rxEnd hphase hend
  rw [he]
  exact goesOn_of_rings hphase (phase_setPort h.lt _) nofun rfl rfl fun _ _ => by
    simp only [phaseSteps]; omega

theorem rxDrain_goesOn (h : Serving s p) (hphase : (s.port p).phase = .rxDrain) : GoesOn 1 s (s.seqStep p) p := by
  cases hfull : (s.ring (rxRing p)).isFull with
  | true => exact rxEnd_goesOn h hphase (.inl hfull)
  | false =>
    cases hrxf : (s.port p).rxf with
    | nil => exact rxEnd_goesOn h hphase (.inr hrxf)
    | cons v rest => exact rxMove_goesOn h hphase hfull hrxf

theorem txTest_ended_or_goesOn (h : Serving s p) (hphase : (s.port p).phase = .txTest) :
    Ended (s.seqStep p) p ∨ GoesOn 1 s (s.seqStep p) p := by
  by_cases hmet : (s.port p).configured = true ∧ (s.port p).txLevel.toNat ≤ 32 - (s.port p).txf.length ∧
      (s.port p).txIe = true
  · obtain ⟨hc, hlevel, hie⟩ := hmet
    rw [seqStep_of_txTest_met hphase hc hlevel hie]
    exact .inr (goesOn_of_rings hphase (phase_setPort h.lt _) nofun rfl rfl fun _ _ => by
      simp only [phaseSteps]; omega)
  · rw [not_and_or, not_and_or, Bool.not_eq_true, Nat.not_le, Bool.not_eq_true] at hmet
    rw [seqStep_of_txTest_unmet hphase hmet]
    exact .inl ⟨phase_endService h.lt, rfl, rfl⟩

/-- A byte moved out of the TX ring is pending no more. -/
theorem txMove_goesOn (h : Serving s p) (hphase : (s.port p).phase = .txFill)
    (hbytes : (s.ring (txRing p)).isEmpty = false) (hroom : (s.port p).txf.length < 32) :
    GoesOn 1 s (s.seqStep p) p := by
  obtain ⟨-, htx⟩ := h.rings_lt
  have hpending := Ring.pending_afterRead _ (h.toLegal.ring (txRing p)) hbytes
  rw [seqStep_of_txMove hphase hbytes hroom]
  refine goesOn_of_phase hphase ((phase_setPort (by exact h.lt) _).trans hphase) (by decide) rfl ?_
  rw [State.setPort_ring, State.setPort_ring, State.ring_setRing_self _ _ _ htx]
  simp only [phaseSteps]
  omega

theorem txEnd_ended (h : Serving s p) (hphase : (s.port p).phase = .txFill)
    (hend : (s.ring (txRing p)).isEmpty = true ∨ 32 ≤ (s.port p).txf.length) : Ended (s.seqStep p) p := by
  obtain ⟨c, he⟩ := seqStep_of_txEnd h.lt hphase hend
  rw [he]
  exact ⟨phase_setPort h.lt _, rfl, rfl⟩

theorem txFill_ended_or_goesOn (h : Serving s p) (hphase : (s.port p).phase = .txFill) :
    Ended (s.seqStep p) p ∨ GoesOn 1 s (s.seqStep p) p := by
  cases hempty : (s.ring (txRing p)).isEmpty with
  | true => exact .inl (txEnd_ended h hphase (.inl hempty))
  | false =>
    rcases Nat.lt_or_ge (s.port p).txf.length 32 with hroom | hfull
    · exact .inr (txMove_goesOn h hphase hempty hroom)
    · exact .inl (txEnd_ended h hphase (.inr hfull))

end MicroSteps

/-- Every micro-step ends the service or leaves fewer to come (R163). -/
theorem seqStep_ended_or_goesOn (h : Serving s p) (hrun : (s.port p).phase ≠ .idle) :
    Ended (s.seqStep p) p ∨ GoesOn 1 s (s.seqStep p) p := by
  cases hphase : (s.port p).phase with
  | idle => exact absurd hphase hrun
  | rxTest => exact .inr (rxTest_goesOn h hphase)
  | rxDrain => exact .inr (rxDrain_goesOn h hphase)
  | txTest => exact txTest_ended_or_goesOn h hphase
  | txFill => exact txFill_ended_or_goesOn h hphase

/-! ### The run of a service -/

/-- A running sequencer is the active one. -/
theorem activePort_of_inv (h : s.Inv) (hrun : (s.port p).phase ≠ .idle) : s.activePort = some p := by
  have hlt : p < s.nPorts := by
    by_contra hge
    exact hrun (congrArg Port.phase (s.port_of_ge p (Nat.not_lt.1 hge)))
  cases hactive : s.activePort with
  | none => exact absurd (State.activePort_eq_none.1 hactive p hlt) hrun
  | some j =>
    have hjp : p = j := by
      by_contra hne
      exact hrun ((serving_of_inv h hactive).others p hne)
    rw [hjp]

/-- A move that is not the core side's ends the service or lets it go on, nearer to its end by the sequencer's turn. -/
theorem performMove_ended_or_goesOn (h : s.Inv) (hrun : (s.port p).phase ≠ .idle) (hoff : m.offCore = true) :
    ∃ t, performMove m s = .next t ∧ (Ended t p ∨ GoesOn ([m].count .seq) s t p) := by
  by_cases hm : m = .seq
  · have hactive := activePort_of_inv h hrun
    subst hm
    refine ⟨s.seqStep p, ?_, seqStep_ended_or_goesOn (serving_of_inv h hactive) hrun⟩
    simp only [performMove, State.seqMove, hactive]
  · obtain ⟨t, hmove, hbeside⟩ := performMove_beside s hoff hm
    refine ⟨t, hmove, .inr ?_⟩
    rw [List.count_singleton, if_neg (by simpa using hm)]
    exact hbeside.goesOn hrun

/-- The run along off-core moves, by induction on them: with a turn of the sequencer for each micro-step left, the
service ends among them. -/
theorem run_ended {pre post : List Move} (h : s.Inv) (hrun : (s.port p).phase ≠ .idle)
    (hagenda : s.agenda = pre ++ post) (hoff : ∀ m ∈ pre, m.offCore = true)
    (hturns : stepsLeft s p ≤ pre.count .seq) :
    ∃ k t, k ≤ pre.length ∧ core.run k s = .next t ∧ Ended t p := by
  induction pre generalizing s with
  | nil => exact absurd hturns (Nat.not_le.2 (phaseSteps_pos hrun _ _))
  | cons m pre ih =>
    obtain ⟨hoffm, hoffpre⟩ := List.forall_mem_cons.1 hoff
    have hinv : State.Inv { s with agenda := pre ++ post } := inv_congr h rfl rfl
    obtain ⟨t, hmove, hnext⟩ := performMove_ended_or_goesOn hinv hrun hoffm
    have hstep : step s = .next t := (step_of_agenda hagenda).trans hmove
    rcases hnext with hended | hgoes
    · exact ⟨1, t, by simp, run_succ 0 hstep, hended⟩
    · have hfewer : stepsLeft t p + [m].count .seq ≤ stepsLeft s p := hgoes.fewer
      have hcount : (m :: pre).count .seq = [m].count .seq + pre.count .seq := List.count_append (l₁ := [m])
      obtain ⟨k, u, hk, hruns, hended⟩ :=
        ih (performMove_inv hinv m t hmove) hgoes.running hgoes.agenda hoffpre (by omega)
      exact ⟨k + 1, u, Nat.succ_le_succ hk, (run_succ k hstep).trans hruns, hended⟩

/-- Settles O35: the steps left are at most four and the two capacities. -/
theorem serviceTerminates : Obligations.ServiceTerminates := by
  unfold Obligations.ServiceTerminates
  rintro s p x pre post hinv ⟨-, rfl, hrun, -⟩ hagenda hoff hturns
  exact run_ended hinv hrun hagenda hoff ((stepsLeft_le (inv_iff.1 hinv).1 p).trans hturns)

end Sys2Proof.Proofs
end

