-- ==== Sys2Proof/Proofs/Api.lean ====
section
/-!
PROOFS. The pseudo-instructions `UART_RECEIVE_BYTE` (43_uart_api.md R181) and `UART_SEND` (R182).

An expansion is a chain of the core agent's turns, each of which issues one command. Between two of them the state is
`between u m ag code d`: the registers and the memory of `u`, and the core agent's own record. A turn that issues a
command goes on from there with what the command makes of `u` (`run_issue_between`), so that the run of an expansion is
read off `u` alone. What it does to the bytes of a ring is said by the order of the ring (40_ring.md R110), one write or
read at a time.
-/

namespace Sys2Proof.Proofs

open Sys2Proof.Machine

variable {s u v : State} {p sel : BitVec 8} {code : List Task} {d : Word} {m k : Nat} {ag : List Move}

/-! ### Between two turns of the core agent -/

/-- At a command boundary the core agent has its turn `m` times, `code` to do and `d` as the last answer; all else is as
in `u`. -/
def between (u : State) (m : Nat) (ag : List Move) (code : List Task) (d : Word) : State :=
  { u with agenda := List.replicate m .core ++ ag, code := code, busy := none, rsp := answer 0 d }

theorem atBoundary_between (h : Resting u) : (between u m ag code d).atBoundary = true :=
  State.atBoundary_iff.2 ⟨rfl, State.activePort_eq_none.2 fun j _ => h.idle j⟩

section Turn
variable {task after : Task} {i : Instr}

/-- A turn whose task issues a command and leaves its successor, and whose command is answered. -/
theorem run_issue (hboundary : s.atBoundary = true) (hagenda : s.agenda = List.replicate (m + 1) .core ++ ag)
    (hcode : s.code = task :: code)
    (htask : runTask task { s with agenda := List.replicate m .core ++ ag, code := code } =
      issueThen i after { s with agenda := List.replicate m .core ++ ag, code := code })
    (hanswers : Answers i { s with agenda := List.replicate m .core ++ ag, code := after :: code } 0 d
      (between v m ag (after :: code) d)) :
    core.run (k + 1) s = core.run k (between v m ag (after :: code) d) :=
  run_core k hagenda hboundary hcode (htask.trans hanswers)

/-- A turn in the middle of an expansion. -/
theorem run_issue_between {d' : Word} (h : Resting u)
    (htask : runTask task (between u m ag code d) = issueThen i after (between u m ag code d))
    (hanswers : Answers i (between u m ag (after :: code) d) 0 d' (between v m ag (after :: code) d)) :
    core.run (k + 1) (between u (m + 1) ag (task :: code) d) = core.run k (between v m ag (after :: code) d') :=
  run_core k rfl (atBoundary_between h) rfl (htask.trans hanswers)

/-- The last turn of a pseudo-instruction records its result. -/
theorem run_finish {value : Word} (h : Resting u) :
    core.run 1 (between u (m + 1) ag (.finish value :: code) d) =
      .next ((between u m ag code d).giveResult .ok value) :=
  run_core 0 rfl (atBoundary_between h) rfl rfl

end Turn

/-! ### The operands and the answers of an expansion -/

/-- Both ring ids of a port fit their operands and name rings of the state (00_scope.md R6, R7). -/
theorem ringSel_toNat (h : Legal s) (hlt : p.toNat < s.nPorts) :
    ((rxRingSel p).toNat = rxRing p.toNat ∧ rxRing p.toNat < s.nRings) ∧
      (txRingSel p).toNat = txRing p.toNat ∧ txRing p.toNat < s.nRings := by
  obtain ⟨⟨-, hmax⟩, -⟩ := h.params
  have hports := h.nPorts
  have hrings := h.nRings
  have hone : (1 : BitVec 8).toNat = 1 := rfl
  simp only [rxRingSel, txRingSel, rxRing, txRing, BitVec.toNat_add, hone]
  omega

theorem cbIsFull_answers_flag (hlt : sel.toNat < s.nRings) :
    Answers (.cbIsFull sel) s 0 (flagData (s.ring sel.toNat).isFull) s :=
  exec_of_ring_lt (i := .cbIsFull sel) rfl hlt

theorem cbIsEmpty_answers_flag (hlt : sel.toNat < s.nRings) :
    Answers (.cbIsEmpty sel) s 0 (flagData (s.ring sel.toNat).isEmpty) s :=
  exec_of_ring_lt (i := .cbIsEmpty sel) rfl hlt

/-! ### The enables of a port -/

/-- The state with `RX_IE` of port `p` written. -/
def withRxIe (s : State) (p : Nat) (b : Bool) : State := s.setPort p { s.port p with rxIe := b }

/-- The state with `TX_IE` of port `p` written. -/
def withTxIe (s : State) (p : Nat) (b : Bool) : State := s.setPort p { s.port p with txIe := b }

theorem port_withRxIe {q : Nat} (hlt : q < s.nPorts) (b : Bool) :
    (withRxIe s q b).port q = { s.port q with rxIe := b } :=
  s.port_setPort_self q _ hlt

theorem port_withTxIe {q : Nat} (hlt : q < s.nPorts) (b : Bool) :
    (withTxIe s q b).port q = { s.port q with txIe := b } :=
  s.port_setPort_self q _ hlt

theorem resting_withRxIe {q : Nat} (h : Resting s) (hc : (s.port q).configured = true) (b : Bool) :
    Resting (withRxIe s q b) :=
  h.setPort q (portInv_enables (h.toLegal.port q) hc b _ _) (h.idle q)

theorem resting_withTxIe {q : Nat} (h : Resting s) (hc : (s.port q).configured = true) (b : Bool) :
    Resting (withTxIe s q b) :=
  h.setPort q (portInv_enables (h.toLegal.port q) hc _ b _) (h.idle q)

/-- The unmask at the end of an expansion answers the 0 that the mask at its beginning wrote. -/
theorem uartRxiSet_unmasks (hlt : sel.toNat < s.nPorts) (hc : (s.port sel.toNat).configured = true)
    (hmasked : (s.port sel.toNat).rxIe = false) : Answers (.uartRxiSet sel 1) s 0 0 (withRxIe s sel.toNat true) := by
  have hanswers := uartRxiSet_answers 1 hlt hc
  rwa [hmasked] at hanswers

theorem uartTxiSet_unmasks (hlt : sel.toNat < s.nPorts) (hc : (s.port sel.toNat).configured = true)
    (hmasked : (s.port sel.toNat).txIe = false) : Answers (.uartTxiSet sel 1) s 0 0 (withTxIe s sel.toNat true) := by
  have hanswers := uartTxiSet_answers 1 hlt hc
  rwa [hmasked] at hanswers

/-! ### The receive of one byte (R181) -/

/-- The state with the oldest byte of ring `r` taken. -/
def popped (s : State) (r : Nat) : State := s.setRing r (s.ring r).afterRead

theorem resting_popped {r : Nat} (h : Resting s) (hbytes : (s.ring r).isEmpty = false) : Resting (popped s r) :=
  h.setRing r (Ring.inv_afterRead _ (h.toLegal.ring r) hbytes)

/-- The oldest byte of ring `r`. -/
def oldest (s : State) (r : Nat) : Byte := s.readByte ((s.ring r).slot (s.ring r).rd).toNat

/-- A ring that holds bytes is not empty; its first byte is the oldest, and the rest is left when that is taken. -/
theorem contents_popped {r : Nat} {c : Byte} {more : List Byte} (h : Legal s) (hlt : r < s.nRings)
    (hheld : s.contents r = c :: more) :
    (s.ring r).isEmpty = false ∧ oldest s r = c ∧ (popped s r).contents r = more := by
  have hbytes : (s.ring r).isEmpty = false := Bool.eq_false_iff.2 fun hempty => by
    rw [State.contents_eq s r (h.ring r), (Ring.isEmpty_iff_pending _ (h.ring r)).1 hempty] at hheld
    cases hheld
  have hcons := contents_eq_cons (t := popped s r) (h.ring r) hbytes (s.ring_setRing_self r _ hlt) rfl
  exact ⟨hbytes, List.cons.inj (hcons.symm.trans hheld)⟩

/-- The three middle turns: a byte in the RX ring is taken from there. -/
theorem run_receiveFromRing (h : Resting u) (hlt : p.toNat < u.nPorts)
    (hbytes : (u.ring (rxRing p.toNat)).isEmpty = false) :
    core.run (k + 2) (between u (m + 2) ag (.receiveByteMasked p :: code) d) =
      core.run k (between (popped u (rxRing p.toNat)) m ag (.receiveByteGot p :: code)
        (0x000001#24 ++ oldest u (rxRing p.toNat))) := by
  obtain ⟨⟨hsel, hring⟩, -⟩ := ringSel_toNat h.toLegal hlt
  rw [← hsel] at hbytes hring ⊢
  calc core.run (k + 2) (between u (m + 2) ag (.receiveByteMasked p :: code) d)
    _ = core.run (k + 1) (between u (m + 1) ag (.receiveByteTest p :: code)
          (flagData (u.ring (rxRingSel p).toNat).isEmpty)) :=
        run_issue_between h rfl (cbIsEmpty_answers_flag hring)
    _ = _ := by rw [hbytes]; exact run_issue_between h rfl (cbRead_accepted hring hbytes)

/-- What the expansion makes of the registers: the byte taken, with `RX_IE` 0 while it is. -/
def received (s : State) (p : Nat) : State := withRxIe (popped (withRxIe s p false) (rxRing p)) p true

/-- The five turns: the mask, the test, the read, the unmask and the result. -/
theorem run_receiveByte (h : Resting s) (hboundary : s.atBoundary = true)
    (hagenda : s.agenda = List.replicate 5 .core ++ ag) (hcode : s.code = .receiveByte p :: code)
    (hlt : p.toNat < s.nPorts) (hc : (s.port p.toNat).configured = true)
    (hbytes : (s.ring (rxRing p.toNat)).isEmpty = false) :
    core.run 5 s = .next ((between (received s p.toNat) 0 ag code 0).giveResult .ok
      ((oldest s (rxRing p.toNat)).setWidth 32)) := by
  let masked := withRxIe s p.toNat false
  have hport : masked.port p.toNat = { s.port p.toNat with rxIe := false } := port_withRxIe hlt false
  have hcMasked : (masked.port p.toNat).configured = true := (congrArg Port.configured hport).trans hc
  have hltMasked : p.toNat < masked.nPorts := (s.setPort_nPorts _ _).symm ▸ hlt
  have hmasked : Resting masked := resting_withRxIe h hc false
  have htaken : Resting (popped masked (rxRing p.toNat)) := resting_popped hmasked hbytes
  have hbyte : (0x000001#24 ++ oldest s (rxRing p.toNat)).setWidth 8 = oldest s (rxRing p.toNat) :=
    BitVec.setWidth_append_eq_right
  calc core.run 5 s
    _ = core.run 4 (between masked 4 ag (.receiveByteMasked p :: code) _) :=
        run_issue hboundary hagenda hcode rfl (uartRxiSet_answers 0 hlt hc)
    _ = core.run 2 (between (popped masked (rxRing p.toNat)) 2 ag (.receiveByteGot p :: code) _) :=
        run_receiveFromRing hmasked hltMasked hbytes
    _ = core.run 1 (between (received s p.toNat) 1 ag
          (.finish ((oldest s (rxRing p.toNat)).setWidth 32) :: code) 0) :=
        run_issue_between htaken
          (congrArg (fun c : Byte => issueThen (.uartRxiSet p 1) (.finish (c.setWidth 32)) _) hbyte)
          (uartRxiSet_unmasks hltMasked hcMasked (congrArg Port.rxIe hport))
    _ = .next ((between (received s p.toNat) 0 ag code 0).giveResult .ok
          ((oldest s (rxRing p.toNat)).setWidth 32)) :=
        run_finish (resting_withRxIe htaken hcMasked true)

/-- Settles O55: the ring is not empty, so that the five turns take its oldest byte; the port is written in `RX_IE`
alone. -/
theorem receiveBytePrefersRing : Obligations.ReceiveBytePrefersRing := by
  unfold Obligations.ReceiveBytePrefersRing
  intro s p c more code ag hinv hboundary hcode hlt hc hheld hagenda
  have hrest := resting_of_inv hinv (State.atBoundary_iff.1 hboundary).2
  obtain ⟨⟨-, hrx⟩, -⟩ := ringSel_toNat hrest.toLegal hlt
  obtain ⟨hbytes, rfl, hmore⟩ := contents_popped hrest.toLegal hrx hheld
  have hrun := run_receiveByte hrest hboundary hagenda hcode hlt hc hbytes
  have hport : (received s p.toNat).port p.toNat = { s.port p.toNat with rxIe := true } := by
    rw [received, port_withRxIe (by simpa [popped, withRxIe] using hlt)]
    exact congrArg (fun q : Port => { q with rxIe := true }) (port_withRxIe hlt false)
  exact ⟨_, hrun, rfl, rfl, rfl, hmore, (congrArg Port.rxIe hport :), (congrArg Port.rxf hport :), rfl⟩

/-! ### One byte into the ring of a port -/

/-- The state with `c` written behind the bytes of ring `r`. -/
def pushed (s : State) (r : Nat) (c : Byte) : State :=
  (s.writeByte ((s.ring r).slot (s.ring r).wr).toNat c).setRing r (s.ring r).afterWrite

theorem resting_pushed {r : Nat} (h : Resting s) (hroom : (s.ring r).isFull = false) (c : Byte) :
    Resting (pushed s r c) :=
  h.of_legal ((h.toLegal.writeByte (BitVec.isLt _) c).setRing r (Ring.inv_afterWrite _ (h.toLegal.ring r) hroom)) rfl

/-- A ring is full exactly when it has no free slot. -/
theorem isFull_iff_free {x : Ring} (hinv : x.Inv) : x.isFull = true ↔ x.free = 0 := by
  have hle := x.pending_le_cap hinv
  rw [isFull_iff_pending hinv, Ring.free]
  omega

theorem isFull_eq_false_of_free {x : Ring} (hinv : x.Inv) (hfree : 0 < x.free) : x.isFull = false :=
  Bool.eq_false_iff.2 fun hfull => hfree.ne' ((isFull_iff_free hinv).1 hfull)

/-! ### The copy (R182, lines 5 to 9) -/

/-- `v` is `u` with the `m` bytes from address `a` on copied into ring `r`: they stand behind the bytes held before, the
region of the ring is the same, and nothing outside it has changed. -/
structure Copied (u v : State) (r a m : Nat) : Prop where
  resting : Resting v
  ports : v.ports = u.ports
  results : v.results = u.results
  base : (v.ring r).base = (u.ring r).base
  cap : (v.ring r).cap = (u.ring r).cap
  free : (v.ring r).free + m = (u.ring r).free
  outside : ∀ b, b < (u.ring r).base.toNat ∨ (u.ring r).base.toNat + (u.ring r).cap.toNat ≤ b →
    v.readByte b = u.readByte b
  contents : v.contents r = u.contents r ++ (List.range m).map fun j => u.readByte (a + j)

theorem Copied.refl (h : Resting u) (r a : Nat) : Copied u u r a 0 where
  resting := h
  ports := rfl
  results := rfl
  base := rfl
  cap := rfl
  free := rfl
  outside := fun _ _ => rfl
  contents := (List.append_nil _).symm

/-- One byte more: it lies outside the region, so that it is still the byte of `u`. -/
theorem Copied.push {r a : Nat} (h : Copied u v r a m) (hlt : r < v.nRings) (hroom : (v.ring r).isFull = false)
    (hbyte : a + m < (u.ring r).base.toNat ∨ (u.ring r).base.toNat + (u.ring r).cap.toNat ≤ a + m) :
    Copied u (pushed v r (v.readByte (a + m))) r a (m + 1) := by
  have hinv := h.resting.toLegal.ring r
  have hring : (pushed v r (v.readByte (a + m))).ring r = (v.ring r).afterWrite := State.ring_setRing_self _ _ _ hlt
  have hread := readByte_writeByte v ((v.ring r).slot (v.ring r).wr).toNat (v.readByte (a + m))
  have hfree := free_afterWrite hinv hroom
  refine ⟨resting_pushed h.resting hroom _, h.ports, h.results, by rw [hring]; exact h.base,
    by rw [hring]; exact h.cap, by rw [hring, ← h.free]; omega, fun b hb => ?_, ?_⟩
  · have hslot := slot_wr_toNat hinv (Ring.bound_of_isFull hroom).1
    obtain ⟨hlow, hhigh⟩ := address_in_region (Ring.pending_lt_cap _ hinv hroom)
    rw [← hslot, h.base] at hlow hhigh
    rw [h.cap] at hhigh
    exact (hread b).trans ((if_neg (by omega)).trans (h.outside b hb))
  · rw [contents_of_write hinv hroom hring hread, h.contents, h.outside _ hbyte, List.range_succ, List.map_append,
      List.append_assoc]
    rfl

section Send
variable {buf count : Word} {n : Nat}

/-- A count of copied bytes fits its register. -/
theorem toNat_ofNat_count (hn : n ≤ count.toNat) : (BitVec.ofNat 32 n).toNat = n :=
  (BitVec.toNat_ofNat n 32).trans (Nat.mod_eq_of_lt (hn.trans_lt count.isLt))

/-- A round of the loop: the ring has room, and the next byte of the buffer is written to it. -/
theorem run_sendRound (h : Resting u) (hlt : p.toNat < u.nPorts) (hroom : (u.ring (txRing p.toNat)).isFull = false)
    (hmore : n < count.toNat) (hin : buf.toNat + n < 2 ^ 32) :
    core.run (k + 2) (between u (m + 2) ag (.sendLoop p buf count (BitVec.ofNat 32 n) :: code) d) =
      core.run k (between (pushed u (txRing p.toNat) (u.readByte (buf.toNat + n))) m ag
        (.sendLoop p buf count (BitVec.ofNat 32 (n + 1)) :: code) 1) := by
  obtain ⟨-, hsel, hring⟩ := ringSel_toNat h.toLegal hlt
  have hn : (BitVec.ofNat 32 n).toNat = n := toNat_ofNat_count hmore.le
  rw [← hsel] at hroom hring ⊢
  rw [← hn] at hmore hin
  calc core.run (k + 2) (between u (m + 2) ag (.sendLoop p buf count (BitVec.ofNat 32 n) :: code) d)
    _ = core.run (k + 1) (between u (m + 1) ag (.sendTest p buf count (BitVec.ofNat 32 n) :: code)
          (flagData (u.ring (txRingSel p).toNat).isFull)) :=
        run_issue_between h (if_pos hmore) (cbIsFull_answers_flag hring)
    _ = core.run k (between (pushed u (txRingSel p).toNat (u.readByte (buf.toNat + (BitVec.ofNat 32 n).toNat))) m ag
          (.sendLoop p buf count (BitVec.ofNat 32 n + 1) :: code) 1) := by
        rw [hroom]
        exact run_issue_between h (if_neg (Nat.not_le.2 hin)) (cbWrite_accepted hring hroom)
    _ = _ := by rw [hn, BitVec.ofNat_add]; rfl

/-- The rounds of the loop, by induction on their number: as long as bytes are left and slots are free. -/
theorem run_sendRounds (h : Resting u) (hlt : p.toNat < u.nPorts) (hin : buf.toNat + count.toNat ≤ 2 ^ 32)
    (hapart : buf.toNat + count.toNat ≤ (u.ring (txRing p.toNat)).base.toNat ∨
      (u.ring (txRing p.toNat)).base.toNat + (u.ring (txRing p.toNat)).cap.toNat ≤ buf.toNat)
    (hcount : n ≤ count.toNat) (hfree : n ≤ (u.ring (txRing p.toNat)).free) :
    ∃ v d', Copied u v (txRing p.toNat) buf.toNat n ∧ ∀ k m,
      core.run (2 * n + k) (between u (2 * n + m) ag (.sendLoop p buf count 0 :: code) d) =
        core.run k (between v m ag (.sendLoop p buf count (BitVec.ofNat 32 n) :: code) d') := by
  induction n with
  | zero => exact ⟨u, d, .refl h _ _, fun k m => by simp⟩
  | succ n ih =>
    obtain ⟨v, d', hcopied, hrun⟩ := ih (by omega) (by omega)
    have hltv : p.toNat < v.nPorts := hlt.trans_eq (nPorts_eq_of_ports hcopied.ports).symm
    obtain ⟨-, -, hring⟩ := ringSel_toNat hcopied.resting.toLegal hltv
    have hleft := hcopied.free
    have hroom := isFull_eq_false_of_free (hcopied.resting.toLegal.ring (txRing p.toNat)) (by omega)
    have hturns : ∀ x, 2 * (n + 1) + x = 2 * n + (x + 2) := by omega
    refine ⟨_, 1, hcopied.push hring hroom (by omega), fun k m => ?_⟩
    rw [hturns k, hturns m, hrun]
    exact run_sendRound hcopied.resting hltv hroom (by omega) (by omega)

/-- The loop ends at the count in two turns and at a full ring in three, the last of which are the unmask and the
result. -/
theorem run_sendEnd (h : Resting u) (hlt : p.toNat < u.nPorts) (hc : (u.port p.toNat).configured = true)
    (hmasked : (u.port p.toNat).txIe = false) (hcount : n ≤ count.toNat)
    (hend : n = count.toNat ∨ (u.ring (txRing p.toNat)).isFull = true) :
    ∃ k m, k ≤ 3 ∧ core.run k (between u 3 ag (.sendLoop p buf count (BitVec.ofNat 32 n) :: code) d) =
      .next ((between (withTxIe u p.toNat true) m ag code 0).giveResult .ok (BitVec.ofNat 32 n)) := by
  have hn : (BitVec.ofNat 32 n).toNat = n := toNat_ofNat_count hcount
  have hunmasked := resting_withTxIe h hc true
  have hunmasks := fun (m : Nat) (todo : List Task) (d : Word) =>
    uartTxiSet_unmasks (s := between u m ag todo d) hlt hc hmasked
  by_cases hmore : n < count.toNat
  · obtain ⟨-, hsel, hring⟩ := ringSel_toNat h.toLegal hlt
    have hfull := hend.resolve_left hmore.ne
    rw [← hsel] at hfull hring
    rw [← hn] at hmore
    refine ⟨3, 0, le_rfl, ?_⟩
    calc core.run 3 (between u 3 ag (.sendLoop p buf count (BitVec.ofNat 32 n) :: code) d)
      _ = core.run 2 (between u 2 ag (.sendTest p buf count (BitVec.ofNat 32 n) :: code)
            (flagData (u.ring (txRingSel p).toNat).isFull)) :=
          run_issue_between h (if_pos hmore) (cbIsFull_answers_flag hring)
      _ = core.run 1 (between (withTxIe u p.toNat true) 1 ag (.finish (BitVec.ofNat 32 n) :: code) 0) := by
          rw [hfull]
          exact run_issue_between h rfl (hunmasks _ _ _)
      _ = _ := run_finish hunmasked
  · rw [← hn] at hmore
    refine ⟨2, 1, by omega, ?_⟩
    calc core.run 2 (between u 3 ag (.sendLoop p buf count (BitVec.ofNat 32 n) :: code) d)
      _ = core.run 1 (between (withTxIe u p.toNat true) 2 ag (.finish (BitVec.ofNat 32 n) :: code) 0) :=
          run_issue_between h (if_neg hmore) (hunmasks _ _ _)
      _ = _ := run_finish hunmasked

/-- Past the two checks the first turn is the mask (R182, lines 1 to 3). -/
theorem runTask_send (hlt : p.toNat < s.nPorts) (hc : (s.port p.toNat).configured = true) (hbuf : buf ≠ 0) :
    runTask (.send p buf count) s = issueThen (.uartTxiSet p 0) (.sendLoop p buf count 0) s := by
  have hchecked : ¬ (s.nPorts ≤ p.toNat ∨ (s.port p.toNat).configured = false) := by simp [hlt, hc]
  exact (if_neg hchecked).trans (if_neg hbuf)

/-- The whole expansion: the mask, a round for each byte that is asked for and fits, and the end of the loop. -/
theorem run_send (h : Resting s) (hboundary : s.atBoundary = true)
    (hagenda : s.agenda = List.replicate (2 * n + 4) .core ++ ag) (hcode : s.code = .send p buf count :: code)
    (hlt : p.toNat < s.nPorts) (hc : (s.port p.toNat).configured = true) (hbuf : buf ≠ 0)
    (hin : buf.toNat + count.toNat ≤ 2 ^ 32)
    (hapart : buf.toNat + count.toNat ≤ (s.ring (txRing p.toNat)).base.toNat ∨
      (s.ring (txRing p.toNat)).base.toNat + (s.ring (txRing p.toNat)).cap.toNat ≤ buf.toNat)
    (hn : n = min count.toNat (s.ring (txRing p.toNat)).free) :
    ∃ k m u, k ≤ 2 * n + 4 ∧ Copied (withTxIe s p.toNat false) u (txRing p.toNat) buf.toNat n ∧
      core.run k s = .next ((between (withTxIe u p.toNat true) m ag code 0).giveResult .ok (BitVec.ofNat 32 n)) := by
  let masked := withTxIe s p.toNat false
  have hltMasked : p.toNat < masked.nPorts := (s.setPort_nPorts _ _).symm ▸ hlt
  obtain ⟨u, d, hcopied, hrounds⟩ :=
    run_sendRounds (n := n) (ag := ag) (code := code) (d := if (s.port p.toNat).txIe = true then 1 else 0)
      (resting_withTxIe h hc false) hltMasked hin hapart (hn ▸ Nat.min_le_left _ _) (hn ▸ Nat.min_le_right _ _)
  have hport : u.port p.toNat = { s.port p.toNat with txIe := false } :=
    (port_eq_of_ports hcopied.ports _).trans (port_withTxIe hlt false)
  have hend : n = count.toNat ∨ (u.ring (txRing p.toNat)).isFull = true := by
    have hfree : (u.ring (txRing p.toNat)).free + n = (s.ring (txRing p.toNat)).free := hcopied.free
    rw [isFull_iff_free (hcopied.resting.toLegal.ring _)]
    omega
  obtain ⟨k, m, hk, hlast⟩ := run_sendEnd (ag := ag) (code := code) (d := d) hcopied.resting
    (hltMasked.trans_eq (nPorts_eq_of_ports hcopied.ports).symm) ((congrArg Port.configured hport).trans hc)
    (congrArg Port.txIe hport) (hn ▸ Nat.min_le_left _ _) hend
  refine ⟨2 * n + k + 1, m, u, by omega, hcopied, ?_⟩
  calc core.run (2 * n + k + 1) s
    _ = core.run (2 * n + k) (between masked (2 * n + 3) ag (.sendLoop p buf count 0 :: code) _) :=
        run_issue hboundary hagenda hcode (runTask_send hlt hc hbuf) (uartTxiSet_answers 0 hlt hc)
    _ = core.run k (between u 3 ag (.sendLoop p buf count (BitVec.ofNat 32 n) :: code) d) := hrounds k 3
    _ = .next ((between (withTxIe u p.toNat true) m ag code 0).giveResult .ok (BitVec.ofNat 32 n)) := hlast

end Send

/-- Settles O54: what was copied stands behind the bytes of the ring, and the unmask has turned `TX_IE` on. -/
theorem sendCopiesWhatFits : Obligations.SendCopiesWhatFits := by
  unfold Obligations.SendCopiesWhatFits
  intro s p buf count code ag n hinv hboundary hcode hlt hc hbuf hin hapart hn hagenda
  have hrest := resting_of_inv hinv (State.atBoundary_iff.1 hboundary).2
  obtain ⟨k, m, u, hk, hcopied, hrun⟩ := run_send hrest hboundary hagenda hcode hlt hc hbuf hin hapart hn
  have hltu : p.toNat < u.nPorts := by
    rw [nPorts_eq_of_ports hcopied.ports, withTxIe, State.setPort_nPorts]
    exact hlt
  exact ⟨k, _, hk, hrun, rfl, congrArg (· ++ [_]) hcopied.results, hcopied.contents,
    congrArg Port.txIe (port_withTxIe hltu true)⟩

end Sys2Proof.Proofs
end

