-- ==== Sys2Proof/Proofs/Itc.lean ====
section
/-!
PROOFS. The interrupt controller (44_itc.md R191 to R208).

The six commands on one source begin with one check, `withSource`, settled once for all of them. The three commands
on every source are maps over the source records, read back entry by entry. The two vectors are the priority encoder at
two tests, so what is said of a vector is said once of the encoder.
-/

namespace Sys2Proof.Proofs

open Sys2Proof.Machine

variable {s : State} {sel : BitVec 8} {i v : Nat} {P : Params}

/-! ### The check of the source id (R194) -/

section SourceId
variable {c : Instr} {k : Nat → State}

theorem fails_of_source_ge (hexec : exec c s = .next (withSource sel s k)) (hge : s.nSrc ≤ sel.toNat) :
    Fails c s .invalidParameter :=
  hexec.trans (congrArg _ (if_pos hge))

theorem exec_of_source_lt (hexec : exec c s = .next (withSource sel s k)) (hlt : sel.toNat < s.nSrc) :
    exec c s = .next (k sel.toNat) :=
  hexec.trans (congrArg _ (if_neg (Nat.not_le.2 hlt)))

end SourceId

/-! ### The registers of every source -/

theorem sources_getElem? (hi : i < s.nSrc) : s.sources[i]? = some (s.source i) := by
  have hlen : i < s.sources.length := hi
  rw [State.source, List.getD_eq_getElem?_getD, List.getElem?_eq_getElem hlen, Option.getD_some]

theorem map_sources_getElem? (f : Source → Source) (hi : i < s.nSrc) :
    (s.sources.map f)[i]? = some (f (s.source i)) := by
  rw [List.getElem?_map, sources_getElem? hi, Option.map_some]

theorem enableFrom_getElem? (saved : Word) (hi : i < s.nSrc) :
    (enableFrom saved s.sources)[i]? = some { s.source i with enable := saved.getLsbD i } := by
  rw [enableFrom, List.getElem?_mapIdx, sources_getElem? hi, Option.map_some]

/-- Bit `i` of the mask is the enable of source `i`; with at most 32 sources (00_scope.md R6) none is cut off. -/
theorem enableWord_getLsbD (h32 : s.nSrc ≤ 32) (i : Nat) :
    s.enableWord.getLsbD i = (decide (i < s.nSrc) && (s.source i).enable) := by
  rw [State.enableWord, BitVec.getLsbD_setWidth, BitVec.getLsbD_ofBoolListLE, List.getD_eq_getElem?_getD]
  by_cases hi : i < s.nSrc
  · rw [List.getElem?_map, sources_getElem? hi]
    simp [hi, Nat.lt_of_lt_of_le hi h32]
  · have hnone : (s.sources.map Source.enable)[i]? = none :=
      List.getElem?_eq_none (by rw [List.length_map]; exact Nat.not_lt.1 hi)
    simp [hi, hnone]

/-- Writing back the mask that was saved undoes the disabling (R202, R203). -/
theorem enableFrom_enableWord_disabled (h32 : s.nSrc ≤ 32) :
    enableFrom s.enableWord (s.sources.map Source.disabled) = s.sources := by
  refine List.ext_getElem? fun i => ?_
  rw [enableFrom, List.getElem?_mapIdx]
  by_cases hi : i < s.nSrc
  · rw [map_sources_getElem? _ hi, sources_getElem? hi, Option.map_some, enableWord_getLsbD h32, decide_eq_true hi,
      Bool.true_and]
    rfl
  · have hlen : s.sources.length ≤ i := Nat.not_lt.1 hi
    rw [List.getElem?_map, List.getElem?_eq_none hlen]
    rfl

/-! ### The request wires (10_state.md R39) -/

theorem portOfSrc_eq_none_iff : P.portOfSrc i = none ↔ ∀ w ∈ P.wires, w.src ≠ i := by
  simp [Params.portOfSrc, List.findIdx?_eq_none_iff]

theorem portOfSrc_isSome_iff : (P.portOfSrc i).isSome ↔ ∃ w ∈ P.wires, w.src = i := by
  simp [Params.portOfSrc, List.findIdx?_isSome]

theorem uartSrc_eq_getElem {p : Nat} (hp : p < P.wires.length) : P.uartSrc p = P.wires[p].src := by
  rw [Params.uartSrc, Params.wire, List.getD_eq_getElem?_getD, List.getElem?_eq_getElem hp, Option.getD_some]

theorem wires_src_ne_iff : (∀ w ∈ P.wires, w.src ≠ i) ↔ ∀ p < P.nPorts, P.uartSrc p ≠ i := by
  rw [List.forall_mem_iff_forall_getElem]
  exact forall₂_congr fun p hp => by rw [uartSrc_eq_getElem hp]

/-- `UART_SRC` is injective (00_scope.md R6), so a port's source is driven by that port. -/
theorem portOfSrc_uartSrc (hinj : (P.wires.map Wires.src).Nodup) {p : Nat} (hp : p < P.nPorts) :
    P.portOfSrc (P.uartSrc p) = some p := by
  have hlen : p < P.wires.length := hp
  rw [Params.portOfSrc, List.findIdx?_eq_some_iff_getElem]
  refine ⟨hlen, by simp [uartSrc_eq_getElem hlen], fun j hj hsame => ?_⟩
  have hsrc : P.wires[j].src = P.wires[p].src := by simpa [uartSrc_eq_getElem hlen] using hsame
  have hne := List.pairwise_iff_getElem.1 hinj j p (by simpa using hj.trans hlen) (by simpa using hlen) hj
  exact hne (by simpa using hsrc)

theorem intSrc_of_port {p : Nat} (hsrc : s.params.portOfSrc i = some p) : s.intSrc i = (s.port p).uartIrq := by
  rw [State.intSrc, hsrc]

theorem intSrc_of_external (hsrc : s.params.portOfSrc i = none) : s.intSrc i = (s.source i).line := by
  rw [State.intSrc, hsrc]

theorem extIrq_of_external (level : Bool) (hsrc : s.params.portOfSrc i = none) :
    s.extIrq i level = s.setSource i { s.source i with line := level } := by
  rw [State.extIrq, hsrc]

theorem extIrq_of_port (level : Bool) (hsrc : (s.params.portOfSrc i).isSome) : s.extIrq i level = s := by
  obtain ⟨p, hp⟩ := Option.isSome_iff_exists.1 hsrc
  rw [State.extIrq, hp]

/-! ### The pending functions (R193) -/

theorem raw_iff : s.raw i = true ↔ s.intSrc i = true ∨ (s.source i).forced = true := by
  rw [State.raw, Bool.or_eq_true]

theorem pend_iff : s.pend i = true ↔ s.raw i = true ∧ (s.source i).enable = true := by
  rw [State.pend, Bool.and_eq_true]

theorem nipend_iff : s.nipend i = true ↔ s.pend i = true ∧ (s.source i).fast = false := by
  rw [State.nipend, Bool.and_eq_true, Bool.not_eq_true']

theorem fipend_iff : s.fipend i = true ↔ s.pend i = true ∧ (s.source i).fast = true := by
  rw [State.fipend, Bool.and_eq_true]

theorem npass_iff : s.npass i = true ↔ s.nipend i = true ∧ s.svcFloor.toNat ≤ s.params.prio i := by
  rw [State.npass, Bool.and_eq_true, decide_eq_true_iff]

theorem npass_eq_false_of_lt_floor (hlow : s.params.prio i < s.svcFloor.toNat) : s.npass i = false :=
  Bool.eq_false_iff.2 fun hpass => Nat.not_le.2 hlow (npass_iff.1 hpass).2

/-! ### The priority encoder (R191, R193) -/

section Encoder
variable {prio : Nat → Nat} {ok : Nat → Bool} {n : Nat}

theorem any_range_iff : (List.range n).any ok = true ↔ ∃ i < n, ok i = true := by
  simp

theorem pickMax_eq_none_iff_any : pickMax prio ok n = none ↔ (List.range n).any ok = false := by
  rw [pickMax_eq_none]
  simp

theorem pickMax_eq_some_iff (hinj : ∀ i < n, ∀ j < n, prio i = prio j → i = j) :
    pickMax prio ok n = some v ↔ v < n ∧ ok v = true ∧ ∀ i < n, ok i = true → prio i ≤ prio v :=
  ⟨pickMax_spec, fun ⟨hv, hok, hmax⟩ => pickMax_of_max hv hok hmax hinj⟩

end Encoder

/-- No two sources have the same priority (R191). -/
theorem prio_injective (h : s.Inv) : ∀ i < s.nSrc, ∀ j < s.nSrc, s.params.prio i = s.params.prio j → i = j := by
  have hlegal := (inv_iff.1 h).1
  obtain ⟨-, -, -, -, -, -, -, -, -, hnodup⟩ := hlegal.params
  rw [hlegal.nSrc]
  exact fun i hi j hj => List.inj_on_of_nodup_map hnodup (List.mem_range.2 hi) (List.mem_range.2 hj)

theorem uartSrc_injective (h : s.Inv) : (s.params.wires.map Wires.src).Nodup := by
  obtain ⟨-, -, hnodup, -⟩ := (inv_iff.1 h).1.params
  exact hnodup

/-- Settles O41: the wires by the port that drives each source, the pending functions by their conjunctions, the
vectors by the priority encoder, whose answer is unique because priorities differ. -/
theorem pendingVectors : Obligations.PendingVectors := by
  unfold Obligations.PendingVectors
  intro s h
  have hports : s.nPorts = s.params.nPorts := (inv_iff.1 h).1.nPorts
  have hprio := prio_injective h
  refine ⟨fun p hp => ?_, fun i hext => ?_, fun i => raw_iff, fun i => pend_iff, fun i => nipend_iff,
    fun i => fipend_iff, fun i => npass_iff, any_range_iff, any_range_iff, pickMax_eq_none_iff_any,
    pickMax_eq_none_iff_any, fun v => pickMax_eq_some_iff hprio, fun v => pickMax_eq_some_iff hprio⟩
  · exact intSrc_of_port (portOfSrc_uartSrc (uartSrc_injective h) (hports ▸ hp))
  · exact intSrc_of_external (portOfSrc_eq_none_iff.2 (wires_src_ne_iff.2 (hports ▸ hext)))

/-! ### The mask of all sources (R202, R203) -/

/-- Settles O40: the enables are read back from the word bit by bit, and writing that word undoes the disabling. -/
theorem itcMaskSaveRestore : Obligations.ItcMaskSaveRestore := by
  unfold Obligations.ItcMaskSaveRestore
  intro s saved h32
  refine ⟨decode_encode .itcDisableInts, decode_encode (.itcRestoreInts saved), ?_, ?_⟩
  · refine ⟨s.enableWord, s.sources.map Source.disabled, rfl, List.length_map _, enableWord_getLsbD h32,
      fun i hi => map_sources_getElem? _ hi, fun t ht => ?_⟩
    cases ht
    exact congrArg (fun xs => Host.Outcome.next { s with sources := xs, busy := none, rsp := answer 0 0 })
      (enableFrom_enableWord_disabled h32)
  · exact ⟨enableFrom saved s.sources, rfl, List.length_mapIdx, fun i hi => enableFrom_getElem? saved hi⟩

/-! ### The service commands (R206 to R208) -/

/-- One above a priority below 63 fits the six bits of the floor. -/
theorem toNat_floor {n : Nat} (hn : n < 63) : (BitVec.ofNat 6 (n + 1)).toNat = n + 1 := by
  rw [BitVec.toNat_ofNat, Nat.mod_eq_of_lt (by omega)]

theorem exec_itcSvcNEnter_none (hvec : s.nivector = none) : Answers .itcSvcNEnter s 0xFF 0 s := by
  show execItcSvcNEnter s = _
  rw [execItcSvcNEnter, hvec]
  rfl

theorem exec_itcSvcNEnter_some (hvec : s.nivector = some v) :
    Answers .itcSvcNEnter s (BitVec.ofNat 8 v) (s.source v).handler
      { s with svcFloor := BitVec.ofNat 6 (s.params.prio v + 1) } := by
  show execItcSvcNEnter s = _
  rw [execItcSvcNEnter, hvec]
  rfl

theorem exec_itcSvcF_none (hvec : s.fivector = none) : Answers .itcSvcF s 0xFF 0 s := by
  show execItcSvcF s = _
  rw [execItcSvcF, hvec]
  rfl

theorem exec_itcSvcF_some (hvec : s.fivector = some v) :
    Answers .itcSvcF s (BitVec.ofNat 8 v) (s.source v).handler s := by
  show execItcSvcF s = _
  rw [execItcSvcF, hvec]
  rfl

/-- Settles O43: the vector decides each answer; behind the raised floor no priority up to the selected one passes. -/
theorem itcServiceCommands : Obligations.ItcServiceCommands := by
  unfold Obligations.ItcServiceCommands
  intro s
  refine ⟨decode_encode .itcSvcNEnter, decode_encode .itcSvcNReturn, decode_encode .itcSvcF, exec_itcSvcNEnter_none,
    fun v hvec hfits => ?_, rfl, exec_itcSvcF_none, fun v => exec_itcSvcF_some⟩
  have hfloor := toNat_floor hfits
  refine ⟨BitVec.ofNat 6 (s.params.prio v + 1), hfloor, exec_itcSvcNEnter_some hvec, fun t ht i hle => ?_⟩
  cases (exec_itcSvcNEnter_some hvec).symm.trans ht
  exact npass_eq_false_of_lt_floor (hfloor.symm ▸ Nat.lt_succ_of_le hle)

/-! ### The registers of one source, and `ITC_INIT` (R195 to R201) -/

/-- Settles O37: the map over the source records, entry by entry. -/
theorem itcInitClears : Obligations.ItcInitClears := by
  unfold Obligations.ItcInitClears
  intro s
  exact ⟨decode_encode .itcInit, s.sources.map Source.cleared, rfl, List.length_map _,
    fun i hi => map_sources_getElem? Source.cleared hi⟩

theorem itcSetPriority_answers (cls : BitVec 1) (hlt : sel.toNat < s.nSrc) :
    Answers (.itcSetPriority sel cls) s 0 0
      (s.setSource sel.toNat { s.source sel.toNat with fast := decide (cls = 1) }) := by
  rw [Answers, exec_of_source_lt rfl hlt, bitOf_eq_decide]
  rfl

/-- Settles O38: past the source check each command is one write of the source's registers. -/
theorem itcSetHandlerAndClass : Obligations.ItcSetHandlerAndClass := by
  unfold Obligations.ItcSetHandlerAndClass
  intro s sel token cls
  exact ⟨decode_encode (.itcSetHandler sel token), decode_encode (.itcSetPriority sel cls),
    fun hge => ⟨fails_of_source_ge rfl hge, fails_of_source_ge rfl hge⟩,
    fun hlt => ⟨exec_of_source_lt (c := .itcSetHandler sel token) rfl hlt, itcSetPriority_answers cls hlt⟩⟩

/-- Settles O39: past the source check each command is one write of the source's registers. -/
theorem itcBitCommands : Obligations.ItcBitCommands := by
  unfold Obligations.ItcBitCommands
  intro s sel
  refine ⟨⟨decode_encode (.itcEnable sel), decode_encode (.itcDisable sel), decode_encode (.itcForce sel),
    decode_encode (.itcUnforce sel)⟩, fun hge => ?_, fun hlt => ⟨?_, ?_, ?_, ?_⟩⟩
  · exact ⟨fails_of_source_ge rfl hge, fails_of_source_ge rfl hge, fails_of_source_ge rfl hge,
      fails_of_source_ge rfl hge⟩
  · exact exec_of_source_lt (c := .itcEnable sel) rfl hlt
  · exact exec_of_source_lt (c := .itcDisable sel) rfl hlt
  · exact exec_of_source_lt (c := .itcForce sel) rfl hlt
  · exact exec_of_source_lt (c := .itcUnforce sel) rfl hlt

/-! ### Reading the vectors (R204, R205) -/

theorem exec_itcReadNivec {vec : Option Nat} (hvec : s.nivector = vec) :
    exec .itcReadNivec s = .next (s.answerVector vec) := hvec ▸ rfl

theorem exec_itcReadFivec {vec : Option Nat} (hvec : s.fivector = vec) :
    exec .itcReadFivec s = .next (s.answerVector vec) := hvec ▸ rfl

/-- Settles O42: both commands answer their vector, which is there or not. -/
theorem itcVectorReads : Obligations.ItcVectorReads := by
  unfold Obligations.ItcVectorReads
  intro s
  exact ⟨decode_encode .itcReadNivec, decode_encode .itcReadFivec, fun hnone => exec_itcReadNivec hnone,
    fun hnone => exec_itcReadFivec hnone, fun v hsome => exec_itcReadNivec hsome,
    fun v hsome => exec_itcReadFivec hsome⟩

/-! ### The external request wires (R192) -/

/-- Settles O44: the step is enabled exactly for a source that no port's wire drives. -/
theorem extIrqSetsLevel : Obligations.ExtIrqSetsLevel := by
  unfold Obligations.ExtIrqSetsLevel
  intro s i level
  exact ⟨fun hext _ => congrArg _ (extIrq_of_external level (portOfSrc_eq_none_iff.2 hext)),
    fun hport => congrArg _ (extIrq_of_port level (portOfSrc_isSome_iff.2 hport))⟩

end Sys2Proof.Proofs
end

