-- ==== Sys2Proof/Proofs/Exc.lean ====
section
/-!
PROOFS. The core mask and the trap table (45_exc.md R220 to R227).

The two mask bits have two spellings, as flags of the state and as bits of a two-bit word; one lemma for each direction
ties them. The two commands on one trap table entry begin with one check, `withTrap`, settled once for both.
-/

namespace Sys2Proof.Proofs

open Sys2Proof.Machine

variable {s : State} {sel : BitVec 8}

/-! ### The core mask as a word (10_state.md R45) -/

/-- The answered mask has `CORE.I` in bit 1, `CORE.F` in bit 0 and zeros above (30_encoding.md R84). -/
theorem maskData_coreMask (s : State) :
    maskData s.coreMask = 0#30 ++ BitVec.ofBool s.coreI ++ BitVec.ofBool s.coreF := by
  rw [maskData, State.coreMask]
  cases s.coreI <;> cases s.coreF <;> rfl

theorem getLsbD_one_eq_decide (m : BitVec 2) : m.getLsbD 1 = decide (2 ≤ m.toNat) :=
  m.msb_eq_getLsbD_last.symm.trans m.msb_eq_decide

theorem getLsbD_zero_eq_decide (m : BitVec 2) : m.getLsbD 0 = decide (m.toNat % 2 = 1) :=
  m.toNat.testBit_zero

/-! ### Disabling and restoring (R220 to R225) -/

/-- Settles O45: every disable command answers the mask of the state before as one word. -/
theorem excDisableMasks : Obligations.ExcDisableMasks := by
  unfold Obligations.ExcDisableMasks
  rintro s old rfl
  rw [← maskData_coreMask]
  exact ⟨⟨decode_encode .excDisableIrq, decode_encode .excDisableFiq, decode_encode .excDisableInts⟩, rfl, rfl, rfl⟩

/-- Settles O46: the bits written are the bits of the saved mask, read as numbers. -/
theorem excRestoreMasks : Obligations.ExcRestoreMasks := by
  unfold Obligations.ExcRestoreMasks
  intro s saved
  rw [← getLsbD_one_eq_decide, ← getLsbD_zero_eq_decide]
  exact ⟨⟨decode_encode (.excRestoreIrq saved), decode_encode (.excRestoreFiq saved),
    decode_encode (.excRestoreInts saved)⟩, rfl, rfl, rfl⟩

/-! ### The trap table (R226, R227) -/

section TrapId
variable {c : Instr} {k : Fin Config.nTraps → State}

theorem fails_of_trap_ge (hexec : exec c s = .next (withTrap sel s k)) (hge : 8 ≤ sel.toNat) :
    Fails c s .invalidParameter :=
  hexec.trans (congrArg _ (dif_neg (Nat.not_lt.2 hge)))

theorem exec_of_trap_lt (hexec : exec c s = .next (withTrap sel s k)) (hlt : sel.toNat < 8) :
    exec c s = .next (k ⟨sel.toNat, hlt⟩) :=
  hexec.trans (congrArg _ (dif_pos hlt))

end TrapId

/-- Settles O47: past the trap id check the commands write and read the entry of that id. -/
theorem excTrapTable : Obligations.ExcTrapTable := by
  unfold Obligations.ExcTrapTable
  intro s sel token
  refine ⟨decode_encode (.excSetHandler sel token), decode_encode (.excGetHandler sel),
    fun hge => ⟨fails_of_trap_ge rfl hge, fails_of_trap_ge rfl hge⟩, fun hlt => ⟨?_, ?_⟩⟩
  · exact exec_of_trap_lt (c := .excSetHandler sel token) rfl hlt
  · exact exec_of_trap_lt (c := .excGetHandler sel) rfl hlt

end Sys2Proof.Proofs
end

