-- ==== Sys2Proof/Proofs/Errors.lean ====
section
/-!
PROOFS. The operand errors of the error table (60_exceptions.md R241, R250).

The table and the commands make the same checks in the same order, so each check of an id is settled once, for the
error it gives and for every command that begins with it.
-/

namespace Sys2Proof.Proofs

open Sys2Proof.Machine

variable {s : State} {i : Instr} {sel : BitVec 8} {st : Status}

/-! ### One check of an id -/

theorem eq_some_of_ite {c : Prop} [Decidable c] {e : Status} (h : (if c then some e else none) = some st) :
    c ∧ e = st := by
  split at h
  next hc => exact ⟨hc, Option.some.inj h⟩
  next => cases h

section Checks
variable {k : Nat → State}

theorem fails_of_ringError (hexec : exec i s = .next (withRing sel s k)) (herror : s.limits.ringError sel = some st) :
    Fails i s st := by
  obtain ⟨hge, rfl⟩ := eq_some_of_ite herror
  exact fails_of_ring_ge hexec hge

theorem fails_of_portError (hexec : exec i s = .next (withPort sel s k)) (herror : s.limits.portError sel = some st) :
    Fails i s st := by
  obtain ⟨hge, rfl⟩ := eq_some_of_ite herror
  exact fails_of_port_ge hexec hge

/-- The port check begins with the range (42_uart_seq.md R142). -/
theorem fails_of_portError_configured (hexec : exec i s = .next (withConfigured sel s k))
    (herror : s.limits.portError sel = some st) : Fails i s st := by
  obtain ⟨hge, rfl⟩ := eq_some_of_ite herror
  exact fails_of_port_bad hexec (.inl hge)

theorem fails_of_srcError (hexec : exec i s = .next (withSource sel s k)) (herror : s.limits.srcError sel = some st) :
    Fails i s st := by
  obtain ⟨hge, rfl⟩ := eq_some_of_ite herror
  exact fails_of_source_ge hexec hge

theorem fails_of_trapError {k : Fin Config.nTraps → State} (hexec : exec i s = .next (withTrap sel s k))
    (herror : Limits.trapError sel = some st) : Fails i s st := by
  obtain ⟨hge, rfl⟩ := eq_some_of_ite herror
  exact fails_of_trap_ge hexec hge

end Checks

/-! ### The two commands with a check behind that of the id -/

/-- `CB_INIT`: the ring id, the capacity, the region (40_ring.md R101). -/
theorem cbInit_fails {base : Word} {cap : Half} (herror : (Instr.cbInit sel base cap).operandError s.limits = some st) :
    Fails (.cbInit sel base cap) s st := by
  obtain ⟨-, hid, hcap, hregion, -, -⟩ := cbInitBindsRing s sel base cap
  rw [Instr.operandError] at herror
  split at herror
  next hge =>
    cases herror
    exact hid hge
  next hlt =>
    have hlt : sel.toNat < s.nRings := Nat.lt_of_not_le hlt
    split at herror
    next hzero =>
      cases herror
      exact hcap hlt hzero
    next hnonzero =>
      obtain ⟨hpast, rfl⟩ := eq_some_of_ite herror
      exact hregion hlt hnonzero hpast

/-- `UART_INIT`: the port id, then the name (42_uart_seq.md R140). -/
theorem uartInit_fails {baud name : Word}
    (herror : (Instr.uartInit sel baud name).operandError s.limits = some st) : Fails (.uartInit sel baud name) s st := by
  obtain ⟨-, hid, hname, -⟩ := uartInitConfiguresPort s sel baud name _ rfl
  rw [Instr.operandError] at herror
  split at herror
  next hge =>
    cases herror
    exact hid hge
  next hlt =>
    obtain ⟨hzero, rfl⟩ := eq_some_of_ite herror
    exact hname (Nat.lt_of_not_le hlt) hzero

/-- Settles O10: the commands by the check they begin with; those not in the table have no error. -/
theorem operandErrorsFail : Obligations.OperandErrorsFail := by
  unfold Obligations.OperandErrorsFail
  intro i s st herror
  cases i with
  | cbInit => exact cbInit_fails herror
  | uartInit => exact uartInit_fails herror
  | cbWrite | cbRead | cbIsFull | cbIsEmpty => exact fails_of_ringError rfl herror
  | brgLoad | brgRead => exact fails_of_portError rfl herror
  | uartSetRxCb | uartSetTxCb | uartRxiSet | uartTxiSet | uartTxfPut | uartRxfGet | uartStatus | uartIsr =>
      exact fails_of_portError_configured rfl herror
  | itcSetHandler | itcSetPriority | itcEnable | itcDisable | itcForce | itcUnforce =>
      exact fails_of_srcError rfl herror
  | excSetHandler | excGetHandler => exact fails_of_trapError rfl herror
  | itcInit | itcDisableInts | itcRestoreInts | itcReadNivec | itcReadFivec | itcSvcNEnter | itcSvcNReturn | itcSvcF
  | excDisableIrq | excDisableFiq | excDisableInts | excRestoreIrq | excRestoreFiq | excRestoreInts => cases herror

end Sys2Proof.Proofs
end

