-- ==== Sys2Proof/Proofs/Events.lean ====
section
/-!
PROOFS. The event stream (10_state.md R50): each agent emits at most one event in a move, and of its own kind.

One walk along the model, by the operand checks for the commands and by the tasks for the core agent. Of the sequencer it
is said besides that a callback goes into the core agent's note with its event (60_exceptions.md R262).
-/

namespace Sys2Proof.Proofs

open Sys2Proof.Machine

variable {s t u : State}

/-! ### One event at most -/

/-- From `s` to `t` the event stream stays, or gains one event of the kind `ok`. -/
def Emits (ok : Event → Prop) (s t : State) : Prop :=
  t.events = s.events ∨ ∃ e, ok e ∧ t.events = s.events ++ [e]

/-- Where an outcome is a next state, it is reached with one event of the kind `ok` at most. -/
def NextEmits (ok : Event → Prop) (s : State) (o : Outcome) : Prop := ∀ t, o = .next t → Emits ok s t

/-- The one event a command can emit is the pin routing of `UART_INIT` (42_uart_seq.md R141). -/
def IsPinRoute (e : Event) : Prop := ∃ p pins, e = .pinRoute p pins

/-- The kind of event an agent emits (10_state.md R50). -/
def moveEmits : Move → Event → Prop
  | .core, e => IsPinRoute e
  | .trap, e => ∃ c saved token, e = .trap c saved token
  | .seq, e => ∃ p d token, e = .callback p d token
  | .lineRx _ _, _ => False
  | .lineTx p, e => ∃ v, e = .lineOut p v
  | .extIrq _ _, _ => False
  | .brgTick p, e => e = .brgTick p

section Emission
variable {ok : Event → Prop} {o : Outcome}

theorem Emits.kind_of_append {e : Event} (hemits : Emits ok s t) (he : t.events = s.events ++ [e]) : ok e := by
  rcases hemits with hsame | ⟨e', hok, hnew⟩
  · simp [hsame] at he
  · obtain rfl : e' = e := by simpa using hnew.symm.trans he
    exact hok

theorem NextEmits.of_emits (hemits : Emits ok s t) : NextEmits ok s (.next t) := by
  rintro _ ⟨⟩
  exact hemits

theorem NextEmits.same (hevents : t.events = s.events) : NextEmits ok s (.next t) := .of_emits (.inl hevents)

theorem NextEmits.fault (r : Fault) : NextEmits ok s (.fault r) := fun _ ht => by
  cases ht

/-- Only the events a step starts from matter. -/
theorem NextEmits.of_events (hemits : NextEmits ok u o) (hevents : u.events = s.events) : NextEmits ok s o := by
  intro t ht
  rw [Emits, ← hevents]
  exact hemits t ht

theorem NextEmits.ite {b : Prop} [Decidable b] {x y : Outcome} (hx : NextEmits ok s x) (hy : NextEmits ok s y) :
    NextEmits ok s (if b then x else y) := by
  split
  · exact hx
  · exact hy

end Emission

/-! ### The commands -/

section Operands
variable {sel : BitVec 8} {k : Nat → State}

theorem withRing_events (hk : ∀ r, (k r).events = s.events) : (withRing sel s k).events = s.events := by
  rcases withRing_cases (sel := sel) (s := s) (k := k) with ⟨-, he⟩ | ⟨-, he⟩ <;> rw [he]
  · rfl
  · exact hk _

theorem withPort_events (hk : ∀ p, (k p).events = s.events) : (withPort sel s k).events = s.events := by
  rcases withPort_cases (sel := sel) (s := s) (k := k) with ⟨-, he⟩ | ⟨-, he⟩ <;> rw [he]
  · rfl
  · exact hk _

theorem withConfigured_events (hk : ∀ p, (k p).events = s.events) : (withConfigured sel s k).events = s.events := by
  rcases withConfigured_cases (sel := sel) (s := s) (k := k) with ⟨-, he⟩ | ⟨-, -, he⟩ <;> rw [he]
  · rfl
  · exact hk _

theorem withSource_events (hk : ∀ i, (k i).events = s.events) : (withSource sel s k).events = s.events := by
  rcases withSource_cases (sel := sel) (s := s) (k := k) with ⟨-, he⟩ | ⟨-, he⟩ <;> rw [he]
  · rfl
  · exact hk _

theorem withTrap_events {k : Fin Config.nTraps → State} (hk : ∀ i, (k i).events = s.events) :
    (withTrap sel s k).events = s.events := by
  rcases withTrap_cases (sel := sel) (s := s) (kt := k) with ⟨-, he⟩ | ⟨_, he⟩ <;> rw [he]
  · rfl
  · exact hk _

end Operands

/-- A ring path emits nothing, and leaves the core agent's note of the callbacks alone. -/
theorem ringWrite_events (s : State) (r : Nat) (v : Byte) :
    (s.ringWrite r v).2.events = s.events ∧ (s.ringWrite r v).2.callbacks = s.callbacks := by
  rcases s.ringWrite_cases r v with ⟨-, he⟩ | ⟨-, he⟩ <;> simp [he]

theorem ringRead_events (s : State) (r : Nat) :
    (s.ringRead r).2.2.events = s.events ∧ (s.ringRead r).2.2.callbacks = s.callbacks := by
  rcases s.ringRead_cases r with ⟨-, he⟩ | ⟨-, he⟩ <;> simp [he]

theorem execCbInit_emits (sel : BitVec 8) (base : Word) (cap : Half) :
    NextEmits IsPinRoute s (execCbInit sel base cap s) := by
  refine .same (withRing_events fun r => ?_)
  split
  · rfl
  · split <;> rfl

theorem execUartInit_emits (sel : BitVec 8) (baud name : Word) :
    NextEmits IsPinRoute s (execUartInit sel baud name s) := by
  rw [execUartInit]
  rcases withPort_cases (sel := sel) (s := s)
    (k := fun p => if name = 0 then s.fail .invalidArgument else (s.initPort p baud).respond .ok 0 0)
    with ⟨-, he⟩ | ⟨-, he⟩ <;> rw [he]
  · exact .same rfl
  · split
    · exact .same rfl
    · exact .of_emits (.inr ⟨_, ⟨sel.toNat, _, rfl⟩, rfl⟩)

theorem execUartTxfPut_emits (sel : BitVec 8) (v : Byte) : NextEmits IsPinRoute s (execUartTxfPut sel v s) := by
  refine .same (withConfigured_events fun p => ?_)
  split <;> rfl

theorem execUartRxfGet_emits (sel : BitVec 8) : NextEmits IsPinRoute s (execUartRxfGet sel s) := by
  refine .same (withConfigured_events fun p => ?_)
  split <;> rfl

theorem answerVector_events (s : State) (v : Option Nat) : (s.answerVector v).events = s.events := by
  cases v <;> rfl

theorem execItcSvcNEnter_emits : NextEmits IsPinRoute s (execItcSvcNEnter s) := by
  refine .same ?_
  split <;> rfl

theorem execItcSvcF_emits : NextEmits IsPinRoute s (execItcSvcF s) := by
  refine .same ?_
  split <;> rfl

/-- The commands by the operand check they begin with (R241); only `UART_INIT` emits. -/
theorem exec_emits (s : State) (i : Instr) : NextEmits IsPinRoute s (exec i s) := by
  cases i with
  | cbInit sel base cap => exact execCbInit_emits sel base cap
  | cbWrite sel v => exact .same (withRing_events fun r => (ringWrite_events s r v).1)
  | cbRead sel => exact .same (withRing_events fun r => (ringRead_events s r).1)
  | cbIsFull | cbIsEmpty => exact .same (withRing_events fun _ => rfl)
  | brgLoad | brgRead => exact .same (withPort_events fun _ => rfl)
  | uartInit sel baud name => exact execUartInit_emits sel baud name
  | uartSetRxCb | uartSetTxCb | uartRxiSet | uartTxiSet | uartStatus | uartIsr =>
      exact .same (withConfigured_events fun _ => rfl)
  | uartTxfPut sel v => exact execUartTxfPut_emits sel v
  | uartRxfGet sel => exact execUartRxfGet_emits sel
  | itcSetHandler | itcSetPriority | itcEnable | itcDisable | itcForce | itcUnforce =>
      exact .same (withSource_events fun _ => rfl)
  | itcReadNivec | itcReadFivec => exact .same (answerVector_events s _)
  | itcSvcNEnter => exact execItcSvcNEnter_emits
  | itcSvcF => exact execItcSvcF_emits
  | excSetHandler | excGetHandler => exact .same (withTrap_events fun _ => rfl)
  | itcInit | itcDisableInts | itcRestoreInts | itcSvcNReturn | excDisableIrq | excDisableFiq | excDisableInts
  | excRestoreIrq | excRestoreFiq | excRestoreInts => exact .same rfl

/-! ### The core agent -/

theorem issueThen_emits (s : State) (i : Instr) (task : Task) : NextEmits IsPinRoute s (issueThen i task s) :=
  (exec_emits (s.push [task]) i).of_events rfl

theorem onData_emits {k : Word → Outcome} (hk : ∀ d, NextEmits IsPinRoute s (k d)) :
    NextEmits IsPinRoute s (onData s k) :=
  .ite (hk _) (.same rfl)

theorem withBuffer_emits {sel : BitVec 8} {buf : Word} {k : State → Outcome} (hk : NextEmits IsPinRoute s (k s)) :
    NextEmits IsPinRoute s (withBuffer sel buf s k) :=
  .ite (.same rfl) (.ite (.same rfl) hk)

theorem runWord_emits (s : State) (w : Command) : NextEmits IsPinRoute s (runWord w s) := by
  rw [runWord]
  split
  · exact exec_emits s _
  · exact .same rfl

theorem runHandler_emits (s : State) (h : Token) : NextEmits IsPinRoute s (runHandler h s) := by
  refine .ite (.same rfl) ?_
  split
  · exact (issueThen_emits { s with callbacks := [] } _ _).of_events rfl
  · exact .same rfl

theorem runExternal_events (s : State) (token : Token) : (s.runExternal token).events = s.events := by
  rw [State.runExternal]
  split <;> rfl

/-- A task emits what the command it issues emits, if it issues one. -/
theorem runTask_emits (s : State) (task : Task) : NextEmits IsPinRoute s (runTask task s) := by
  have hissue := issueThen_emits s
  unfold runTask
  cases task with
  | cmd w => exact runWord_emits s w
  | issue i => exact exec_emits s i
  | sendByte | receiveByte | serviceNormal | serviceFast => exact hissue _ _
  | sendByteLoop | sendByteFlush | sendByteRestore | receiveByteMasked | receiveByteGot =>
      exact onData_emits fun _ => hissue _ _
  | sendByteTest | receiveByteTest | sendLoop | receiveLoop | receiveTest =>
      exact onData_emits fun _ => .ite (hissue _ _) (hissue _ _)
  | send | receive => exact withBuffer_emits (hissue _ _)
  | sendTest => exact onData_emits fun _ => .ite (hissue _ _) (.ite (.fault _) (hissue _ _))
  | receiveStore => exact onData_emits fun _ => .ite (.fault _) (.same rfl)
  | sendByteMasked | finish => exact onData_emits fun _ => .same rfl
  | handler cls => cases cls <;> exact .same rfl
  | serviceNormalEntered | serviceFastEntered => exact .ite (.same rfl) (.same rfl)
  | runHandler h => exact runHandler_emits s h
  | external token => exact .same (runExternal_events s token)
  | store | runCallbacks | resume => exact .same rfl

/-- Nothing while a service runs, the command in progress, or the next task. -/
theorem coreMove_emits (s : State) : NextEmits IsPinRoute s (coreMove s) := by
  rw [coreMove]
  split
  · exact .same rfl
  · split
    · exact exec_emits s _
    · split
      · exact .same rfl
      · exact (runTask_emits _ _).of_events rfl

/-! ### The sequencer -/

/-- From `s` to `t` neither the event stream nor the core agent's note changes, or one callback goes into both. -/
def Notes (p : Nat) (s t : State) : Prop :=
  (t.events = s.events ∧ t.callbacks = s.callbacks) ∨
    ∃ d token, t.events = s.events ++ [.callback p d token] ∧ t.callbacks = s.callbacks ++ [token]

theorem announce_notes (s : State) (p : Nat) (d : Dir) (token : Token) : Notes p s (s.announce p d token) := by
  rcases s.announce_cases p d token with ⟨-, he⟩ | ⟨-, he⟩ <;> rw [he]
  · exact .inl ⟨rfl, rfl⟩
  · exact .inr ⟨d, token, rfl, rfl⟩

/-- Of the micro-steps only the ends of the two parts announce a callback (42_uart_seq.md R159, R162). -/
theorem seqStep_notes (s : State) (p : Nat) : Notes p s (s.seqStep p) := by
  rw [State.seqStep]
  split
  next => exact .inl ⟨rfl, rfl⟩
  next =>
    rw [State.seqRxTest]
    split <;> exact .inl ⟨rfl, rfl⟩
  next =>
    split
    next v rest _ _ => exact .inl (ringWrite_events (s.setPort p { s.port p with rxf := rest }) (rxRing p) v)
    next => exact announce_notes s p .rx _
  next =>
    rw [State.seqTxTest]
    split <;> exact .inl ⟨rfl, rfl⟩
  next =>
    split
    · exact .inl (ringRead_events s (txRing p))
    · exact announce_notes s p .tx _

/-! ### Every agent -/

theorem trapMove_emits (s : State) : Emits (moveEmits .trap) s s.trapMove := by
  rw [State.trapMove]
  split
  · exact .inr ⟨_, ⟨_, _, _, rfl⟩, rfl⟩
  · split
    · exact .inr ⟨_, ⟨_, _, _, rfl⟩, rfl⟩
    · exact .inl rfl

theorem seqMove_emits (s : State) : Emits (moveEmits .seq) s s.seqMove := by
  rw [State.seqMove]
  split
  next p _ =>
    rcases seqStep_notes s p with ⟨hsame, -⟩ | ⟨d, token, hnew, -⟩
    · exact .inl hsame
    · exact .inr ⟨_, ⟨p, d, token, rfl⟩, hnew⟩
  next => exact .inl rfl

theorem lineRx_events (s : State) (p : Nat) (v : Byte) : (s.lineRx p v).events = s.events := by
  rw [State.lineRx]
  split <;> rfl

theorem lineTx_emits (s : State) (p : Nat) : Emits (moveEmits (.lineTx p)) s (s.lineTx p) := by
  rw [State.lineTx]
  split
  · exact .inr ⟨_, ⟨_, rfl⟩, rfl⟩
  · exact .inl rfl

theorem extIrq_events (s : State) (src : Nat) (level : Bool) : (s.extIrq src level).events = s.events := by
  rw [State.extIrq]
  split <;> rfl

theorem brgTick_emits (s : State) (p : Nat) : Emits (moveEmits (.brgTick p)) s (s.brgTick p) := by
  rw [State.brgTick]
  dsimp only
  split
  · split
    · exact .inr ⟨_, rfl, rfl⟩
    · exact .inl rfl
  · split
    · split
      · exact .inr ⟨_, rfl, rfl⟩
      · exact .inl rfl
    · exact .inl rfl

/-- A move emits one event at most, of its agent's own kind. -/
theorem performMove_emits (s : State) (m : Move) : NextEmits (moveEmits m) s (performMove m s) := by
  cases m with
  | core => exact coreMove_emits s
  | trap => exact .of_emits (trapMove_emits s)
  | seq => exact .of_emits (seqMove_emits s)
  | lineRx p v => exact .same (lineRx_events s p v)
  | lineTx p => exact .of_emits (lineTx_emits s p)
  | extIrq src level => exact .same (extIrq_events s src level)
  | brgTick p => exact .of_emits (brgTick_emits s p)

theorem eq_trap_of_moveEmits {c : TrapClass} {saved : BitVec 2} {token : Token} {m : Move}
    (hemits : moveEmits m (.trap c saved token)) : m = .trap := by
  cases m with
  | trap => rfl
  | core | seq | lineTx | brgTick => simp [moveEmits, IsPinRoute] at hemits
  | lineRx | extIrq => exact hemits.elim

end Sys2Proof.Proofs
end

