-- ==== Sys2Proof/Proofs/Traps.lean ====
section
/-!
PROOFS. Taking a trap (60_exceptions.md R255 to R257) and what the core agent does on it (R258, R259, R262).

What the trap logic does is decided by its two enables, each of which is the conjunction of its conditions. That traps
come from the trap logic alone is read off the event stream, in which every event has its own agent.
-/

namespace Sys2Proof.Proofs

open Sys2Proof.Machine

variable {s t : State} {c : TrapClass} {saved : BitVec 2} {token h : Token}

/-! ### The enables (R255, R256) and the trap logic's move -/

theorem fiqEnabled_iff : s.fiqEnabled = true ↔ s.atBoundary = true ∧ s.fiqReq = true ∧ s.coreF = false := by
  simp [State.fiqEnabled, and_assoc]

theorem fiqEnabled_eq_false_iff :
    s.fiqEnabled = false ↔ s.atBoundary = false ∨ s.fiqReq = false ∨ s.coreF = true := by
  simp [State.fiqEnabled, imp_iff_not_or, or_assoc]

/-- At a boundary `TRAP_FIQ` is held back by its request or its mask alone. -/
theorem irqEnabled_iff : s.irqEnabled = true ↔
    s.atBoundary = true ∧ s.irqReq = true ∧ s.coreI = false ∧ (s.fiqReq = false ∨ s.coreF = true) := by
  simp only [State.irqEnabled, Bool.and_eq_true, Bool.not_eq_true', fiqEnabled_eq_false_iff, and_assoc]
  constructor
  · rintro ⟨hboundary, hreq, hmask, hfiq⟩
    exact ⟨hboundary, hreq, hmask, hfiq.resolve_left (by simp [hboundary])⟩
  · rintro ⟨hboundary, hreq, hmask, hfiq⟩
    exact ⟨hboundary, hreq, hmask, .inr hfiq⟩

theorem irqEnabled_eq_false (hoff : s.atBoundary = false ∨ s.irqReq = false ∨ s.coreI = true) :
    s.irqEnabled = false := by
  rcases hoff with hoff | hoff | hoff <;> simp [State.irqEnabled, hoff]

theorem trapMove_of_fiq (hfiq : s.fiqEnabled = true) : s.trapMove = s.takeTrap .fiq := if_pos hfiq

theorem trapMove_of_irq (hirq : s.irqEnabled = true) : s.trapMove = s.takeTrap .irq := by
  obtain ⟨-, -, -, hfiq⟩ := irqEnabled_iff.1 hirq
  have hoff : s.fiqEnabled = false := fiqEnabled_eq_false_iff.2 (.inr hfiq)
  rw [State.trapMove, hoff, hirq]
  rfl

theorem trapMove_of_disabled (hfiq : s.fiqEnabled = false) (hirq : s.irqEnabled = false) : s.trapMove = s := by
  rw [State.trapMove, hfiq, hirq]
  rfl

/-- A trap waits for the command boundary (R257). -/
theorem trapMove_of_not_boundary (hoff : s.atBoundary = false) : s.trapMove = s :=
  trapMove_of_disabled (fiqEnabled_eq_false_iff.2 (.inl hoff)) (irqEnabled_eq_false (.inl hoff))

/-- The trap logic takes an enabled trap or does nothing. -/
theorem trapMove_cases (s : State) :
    (s.fiqEnabled = true ∧ s.trapMove = s.takeTrap .fiq) ∨ (s.irqEnabled = true ∧ s.trapMove = s.takeTrap .irq) ∨
      s.trapMove = s := by
  cases hfiq : s.fiqEnabled
  · cases hirq : s.irqEnabled
    · exact .inr (.inr (trapMove_of_disabled hfiq hirq))
    · exact .inr (.inl ⟨rfl, trapMove_of_irq hirq⟩)
  · exact .inl ⟨rfl, trapMove_of_fiq hfiq⟩

/-! ### The two entries -/

/-- Settles O48: the trap taken is the normal one, and bit 1 of the mask before entry is the clear `CORE.I`. -/
theorem irqEntry : Obligations.IrqEntry := by
  unfold Obligations.IrqEntry
  intro s hreq hmask hboundary hfiq
  have hmove := trapMove_of_irq (irqEnabled_iff.2 ⟨hboundary, hreq, hmask, hfiq⟩)
  rw [State.takeTrap_eq, State.coreMask, hmask] at hmove
  exact ⟨_, congrArg _ hmove⟩

/-- Settles O49: the trap taken is the fast one, and bit 0 of the mask before entry is the clear `CORE.F`. -/
theorem fiqEntry : Obligations.FiqEntry := by
  unfold Obligations.FiqEntry
  intro s hreq hmask hboundary
  have hmove := trapMove_of_fiq (fiqEnabled_iff.2 ⟨hboundary, hreq, hmask⟩)
  rw [State.takeTrap_eq, State.coreMask, hmask] at hmove
  exact ⟨_, congrArg _ hmove⟩

/-! ### Traps come from the trap logic alone (R257) -/

/-- A step is a move of some agent, in a state that differs in the agenda at most. -/
theorem step_eq_performMove (s : State) : ∃ m ag, step s = performMove m { s with agenda := ag } := by
  cases hagenda : s.agenda with
  | nil => exact ⟨s.defaultMove, s.agenda, step_of_no_agenda hagenda⟩
  | cons m ag => exact ⟨m, ag, step_of_agenda hagenda⟩

theorem trap_of_step (hstep : step s = .next t) (hevents : t.events = s.events ++ [.trap c saved token]) :
    ∃ ag, t = State.trapMove { s with agenda := ag } := by
  obtain ⟨m, ag, hmove⟩ := step_eq_performMove s
  rw [hmove] at hstep
  obtain rfl := eq_trap_of_moveEmits ((performMove_emits _ m t hstep).kind_of_append hevents)
  exact ⟨ag, (Host.Outcome.next.inj hstep).symm⟩

theorem takeTrap_event {c' : TrapClass} (hevents : (s.takeTrap c').events = s.events ++ [.trap c saved token]) :
    c' = c ∧ saved = s.coreMask := by
  obtain ⟨hclass, hmask, -⟩ : c' = c ∧ s.coreMask = saved ∧ s.trapToken c' = token := by
    simpa [State.takeTrap_eq] using hevents
  exact ⟨hclass, hmask.symm⟩

/-- The trap event of the trap logic's move is that of an enabled trap. -/
theorem trapMove_event (hevents : s.trapMove.events = s.events ++ [.trap c saved token]) :
    s.trapMove = s.takeTrap c ∧ saved = s.coreMask ∧
      ((c = .fiq ∧ s.fiqEnabled = true) ∨ (c = .irq ∧ s.irqEnabled = true)) := by
  rcases trapMove_cases s with ⟨hfiq, he⟩ | ⟨hirq, he⟩ | he <;> rw [he] at hevents ⊢
  · obtain ⟨rfl, hsaved⟩ := takeTrap_event hevents
    exact ⟨rfl, hsaved, .inl ⟨rfl, hfiq⟩⟩
  · obtain ⟨rfl, hsaved⟩ := takeTrap_event hevents
    exact ⟨rfl, hsaved, .inr ⟨rfl, hirq⟩⟩
  · simp at hevents

/-- Settles O50: a trap event is of the trap logic, whose move is the entry of an enabled trap or nothing. -/
theorem trapsOnlyAtBoundary : Obligations.TrapsOnlyAtBoundary := by
  unfold Obligations.TrapsOnlyAtBoundary
  constructor
  · intro s t c saved token hstep hevents
    obtain ⟨ag, rfl⟩ := trap_of_step hstep hevents
    obtain ⟨hmove, hsaved, ⟨rfl, hfiq⟩ | ⟨rfl, hirq⟩⟩ := trapMove_event (s := { s with agenda := ag }) hevents
    · obtain ⟨hboundary, hreq, hmask⟩ := fiqEnabled_iff.1 hfiq
      obtain ⟨hbusy, hactive⟩ := State.atBoundary_iff.1 hboundary
      rw [hmove]
      exact ⟨hbusy, State.activePort_eq_none.1 hactive, hsaved, rfl, nofun, fun _ => ⟨hreq, hmask, rfl⟩⟩
    · obtain ⟨hboundary, hreq, hmask, hfiq⟩ := irqEnabled_iff.1 hirq
      obtain ⟨hbusy, hactive⟩ := State.atBoundary_iff.1 hboundary
      rw [hmove]
      exact ⟨hbusy, State.activePort_eq_none.1 hactive, hsaved, rfl, fun _ => ⟨hreq, hmask, hfiq⟩, nofun⟩
  · intro s hoff
    have hfiq : s.fiqEnabled = false := fiqEnabled_eq_false_iff.2 (hoff.imp_right And.right)
    have hirq : s.irqEnabled = false := irqEnabled_eq_false (hoff.imp_right And.left)
    exact congrArg _ (trapMove_of_disabled hfiq hirq)

/-! ### The handler sequences and `run_handler` (R258, R259, R262) -/

theorem toNat_lowByte (h : Token) : (h.extractLsb' 0 8).toNat = h.toNat % 256 := BitVec.extractLsb'_toNat 0 8 h

/-- The 24 bits above are ones from 0xFFFFFF00 on (10_state.md R42). -/
theorem highBytes_eq_ones_iff : h.extractLsb' 8 24 = 0xFFFFFF ↔ 0xFFFFFF00 ≤ h.toNat := by
  have hlt := h.isLt
  rw [← BitVec.toNat_inj, BitVec.extractLsb'_toNat, Nat.shiftRight_eq_div_pow]
  change h.toNat / 256 % 16777216 = 16777215 ↔ _
  omega

/-- `H_UART(p)` for a port that exists. -/
theorem uartOfToken_of_port {n : Nat} (hlow : 0xFFFFFF00 ≤ h.toNat) (hhigh : h.toNat < 0xFFFFFF00 + n) :
    uartOfToken n h = some (BitVec.ofNat 8 (h.toNat - 0xFFFFFF00)) := by
  have hlt := h.isLt
  have hport : h.extractLsb' 0 8 = BitVec.ofNat 8 (h.toNat - 0xFFFFFF00) := by
    rw [← BitVec.toNat_inj, toNat_lowByte, BitVec.toNat_ofNat]
    omega
  rw [uartOfToken, if_pos ⟨highBytes_eq_ones_iff.2 hlow, by rw [toNat_lowByte]; omega⟩, hport]

/-- Any other token, that of a port that does not exist among them [20], names external code. -/
theorem uartOfToken_of_other {n : Nat} (hother : h.toNat < 0xFFFFFF00 ∨ 0xFFFFFF00 + n ≤ h.toNat) :
    uartOfToken n h = none := by
  refine if_neg fun ⟨hones, hport⟩ => ?_
  have hlt := h.isLt
  have hlow := highBytes_eq_ones_iff.1 hones
  rw [toNat_lowByte] at hport
  omega

theorem runHandler_of_port (hlow : 0xFFFFFF00 ≤ h.toNat) (hhigh : h.toNat < 0xFFFFFF00 + s.nPorts) :
    runHandler h s = issueThen (.uartIsr (BitVec.ofNat 8 (h.toNat - 0xFFFFFF00))) .runCallbacks
      { s with callbacks := [] } := by
  have hset : h ≠ 0 := by
    rintro rfl
    simp at hlow
  rw [runHandler, if_neg hset, uartOfToken_of_port hlow hhigh]

theorem runHandler_of_external (hset : h ≠ 0) (hother : h.toNat < 0xFFFFFF00 ∨ 0xFFFFFF00 + s.nPorts ≤ h.toNat) :
    runHandler h s = .next (s.push [.external h]) := by
  rw [runHandler, if_neg hset, uartOfToken_of_other hother]

/-- Settles O53: the core agent's turn is its first task, and the running sequencer notes the callbacks it emits. -/
theorem handlerSequences : Obligations.HandlerSequences := by
  unfold Obligations.HandlerSequences
  intro s rest hboundary
  have hturn : ∀ {task}, s.code = task :: rest → performMove .core s = runTask task { s with code := rest } :=
    fun hcode => coreMove_of_boundary hboundary hcode
  refine ⟨fun saved token hcode => hturn hcode, fun saved token hcode => hturn hcode, fun hcode => hturn hcode,
    fun h hcode hlow hhigh => ?_, fun h hcode hset hother => ?_, fun hcode => hturn hcode, fun u t p x hrun hmove => ?_⟩
  · exact (hturn hcode).trans (runHandler_of_port hlow hhigh)
  · exact (hturn hcode).trans (runHandler_of_external hset hother)
  · obtain rfl : u.seqStep p = t := Host.Outcome.next.inj ((performMove_seq hrun).symm.trans hmove)
    exact seqStep_notes u p

end Sys2Proof.Proofs
end

