-- ==== Sys2Proof/Proofs/Holds.lean ====
section
/-!
PROOFS. The holds (60_exceptions.md R268; 42_uart_seq.md R150, R151).

A line step is `Beside` the command port: the held command is still the one in progress, and the core agent's next turn
tries it again on the FIFO the line has changed.
-/

namespace Sys2Proof.Proofs

open Sys2Proof.Machine

variable {s t : State} {i : Instr} {sel : BitVec 8} {p : Nat} {v u : Byte} {rest : List Byte}

/-! ### While the condition is false -/

/-- With no service running, the core agent's turn tries the command in progress again. -/
theorem coreMove_of_busy (hactive : s.activePort = none) (hbusy : s.busy = some i) : coreMove s = exec i s := by
  rw [coreMove, hactive, hbusy]

/-- A command held once more leaves the state as it is. -/
theorem held_changes_nothing (hactive : s.activePort = none) (hbusy : s.busy = some i)
    (hheld : exec i s = .next { s with busy := some i }) :
    performMove .core s = .next s ∧ performMove .trap s = .next s := by
  have hoff : s.atBoundary = false := by simp [State.atBoundary, hbusy]
  rw [← hbusy] at hheld
  exact ⟨(coreMove_of_busy hactive hbusy).trans hheld, congrArg _ (trapMove_of_not_boundary hoff)⟩

/-! ### The step that makes it true -/

/-- After a move beside the command port the core agent's turn tries the same command. -/
theorem Beside.performMove_core (h : Beside s t) (hactive : s.activePort = none) (hbusy : s.busy = some i) :
    performMove .core t = exec i t := by
  have hidle : t.activePort = none := State.activePort_eq_none.2 fun p hp =>
    (h.phase p).trans (State.activePort_eq_none.1 hactive p (h.nPorts ▸ hp))
  exact coreMove_of_busy hidle (h.busy.trans hbusy)

theorem port_lineTx (hlt : p < s.nPorts) (hc : (s.port p).configured = true) (htxf : (s.port p).txf = u :: rest) :
    (s.lineTx p).port p = { s.port p with txf := rest } := by
  rw [lineTx_of_cons hc htxf]
  exact s.port_setPort_self p _ hlt

theorem events_lineTx (hc : (s.port p).configured = true) (htxf : (s.port p).txf = u :: rest) :
    (s.lineTx p).events = s.events ++ [.lineOut p u] := by
  rw [lineTx_of_cons hc htxf]
  rfl

theorem port_lineRx (hlt : p < s.nPorts) (hc : (s.port p).configured = true) (hroom : (s.port p).rxf.length < 32) :
    (s.lineRx p v).port p = { s.port p with rxf := (s.port p).rxf ++ [v] } := by
  rw [lineRx_of_room hc hroom]
  exact s.port_setPort_self p _ hlt

/-! ### The completion -/

theorem uartTxfPut_completes (hlt : sel.toNat < s.nPorts) (hc : (s.port sel.toNat).configured = true)
    (htxf : (s.port sel.toNat).txf = rest) (hroom : rest.length < 32) :
    ∃ t, exec (.uartTxfPut sel v) s = .next t ∧ t.busy = none ∧ t.rsp = answer 0 0 ∧
      (t.port sel.toNat).txf = rest ++ [v] ∧ t.events = s.events := by
  subst htxf
  obtain ⟨-, -, hqueues, -⟩ := uartTxfPutQueuesOrHolds s sel v
  exact ⟨_, hqueues hlt hc hroom, rfl, rfl, congrArg Port.txf (s.port_setPort_self _ _ hlt), rfl⟩

theorem uartRxfGet_completes (hlt : sel.toNat < s.nPorts) (hc : (s.port sel.toNat).configured = true)
    (hrxf : (s.port sel.toNat).rxf = v :: rest) :
    ∃ t, exec (.uartRxfGet sel) s = .next t ∧ t.busy = none ∧ t.rsp = answer 0 (v.setWidth 32) ∧
      (t.port sel.toNat).rxf = rest := by
  obtain ⟨-, -, htakes, -⟩ := uartRxfGetTakesOrHolds s sel v rest
  exact ⟨_, htakes hlt hc hrxf, rfl, rfl, congrArg Port.rxf (s.port_setPort_self _ _ hlt)⟩

/-- A held `UART_TXF_PUT`, one `LINE_TX`, and the core agent's turn. -/
theorem lineTx_lifts_put (hactive : s.activePort = none) (hlt : sel.toNat < s.nPorts)
    (hc : (s.port sel.toNat).configured = true) (hbusy : s.busy = some (.uartTxfPut sel v))
    (htxf : (s.port sel.toNat).txf = u :: rest) (hroom : rest.length < 32) :
    ∃ t, performMove .core (s.lineTx sel.toNat) = .next t ∧ t.busy = none ∧ t.rsp = answer 0 0 ∧
      (t.port sel.toNat).txf = rest ++ [v] ∧ t.events = s.events ++ [.lineOut sel.toNat u] := by
  have hbeside := lineTx_beside s sel.toNat
  have hport := port_lineTx hlt hc htxf
  rw [hbeside.performMove_core hactive hbusy, ← events_lineTx hc htxf]
  exact uartTxfPut_completes (hbeside.nPorts ▸ hlt) (by rwa [hport]) (by rw [hport]) hroom

/-- A held `UART_RXF_GET`, one `LINE_RX`, and the core agent's turn. -/
theorem lineRx_lifts_get (hactive : s.activePort = none) (hlt : sel.toNat < s.nPorts)
    (hc : (s.port sel.toNat).configured = true) (hbusy : s.busy = some (.uartRxfGet sel))
    (hrxf : (s.port sel.toNat).rxf = []) :
    ∃ t, performMove .core (s.lineRx sel.toNat u) = .next t ∧ t.busy = none ∧ t.rsp = answer 0 (u.setWidth 32) ∧
      (t.port sel.toNat).rxf = [] := by
  have hbeside := lineRx_beside s sel.toNat u
  have hport := port_lineRx (v := u) hlt hc (by rw [hrxf]; decide)
  rw [hbeside.performMove_core hactive hbusy]
  exact uartRxfGet_completes (hbeside.nPorts ▸ hlt) (by rwa [hport]) (by rw [hport, hrxf]; rfl)

/-- Settles O31: each of the two commands is held on its FIFO as it stands, and completes on the FIFO the line leaves. -/
theorem lineLiftsHold : Obligations.LineLiftsHold := by
  unfold Obligations.LineLiftsHold
  intro s sel v u rest hactive hlt hc
  constructor
  · intro hbusy htxf hlen
    obtain ⟨-, -, -, hholds⟩ := uartTxfPutQueuesOrHolds s sel v
    have hfull : 32 ≤ (s.port sel.toNat).txf.length := by rw [htxf, List.length_cons, hlen]
    obtain ⟨hcore, htrap⟩ := held_changes_nothing hactive hbusy (hholds hlt hc hfull)
    exact ⟨hcore, htrap, _, rfl, lineTx_lifts_put hactive hlt hc hbusy htxf (by omega)⟩
  · intro hbusy hrxf
    obtain ⟨-, -, -, hholds⟩ := uartRxfGetTakesOrHolds s sel u rest
    obtain ⟨hcore, htrap⟩ := held_changes_nothing hactive hbusy (hholds hlt hc hrxf)
    exact ⟨hcore, htrap, _, rfl, lineRx_lifts_get hactive hlt hc hbusy hrxf⟩

end Sys2Proof.Proofs
end

