-- ==== Sys2Proof/Proofs/TrapRuns.lean ====
section
/-!
PROOFS. The run of an IRQ from the trap to the return (60_exceptions.md R258, R260, R262).

A run is a chain of the core agent's turns, each of which is one task. Between two of them the state is
`awaiting u m ag code`: all of `u`, with `m` turns and `code` still to come. Every run has the same entry and the same
return; between them stands the external code of a replaced entry, or the service of the default one.
-/

namespace Sys2Proof.Proofs

open Sys2Proof.Machine

variable {s u u' : State} {k m v : Nat} {ag : List Move} {code code' : List Task} {task : Task} {token : Token}

/-! ### One turn -/

/-- The core agent has its turn `m` times and `code` to do; all else is as in `u`. -/
def awaiting (u : State) (m : Nat) (ag : List Move) (code : List Task) : State :=
  { u with agenda := List.replicate m .core ++ ag, code := code }

theorem run_turn (hboundary : u.atBoundary = true)
    (htask : runTask task (awaiting u m ag code) = .next (awaiting u' m ag code')) :
    core.run (k + 1) (awaiting u (m + 1) ag (task :: code)) = core.run k (awaiting u' m ag code') :=
  run_core k rfl hboundary rfl htask

/-- The record that external code which issues nothing leaves of itself (assumption 6). -/
def ran (u : State) (token : Token) : State := { u with invoked := u.invoked ++ [token] }

theorem run_external (hboundary : u.atBoundary = true) (hext : u.ext = []) :
    core.run (k + 1) (awaiting u (m + 1) ag (.external token :: code)) =
      core.run k (awaiting (ran u token) m ag code) := by
  have hrun : (awaiting u m ag code).runExternal token = awaiting (ran u token) m ag code := by
    simp only [State.runExternal, awaiting, hext, ran]
  exact run_turn hboundary (congrArg _ hrun)

/-! ### The entry and the return (R258) -/

theorem coreMask_getLsbD_one (s : State) : s.coreMask.getLsbD 1 = s.coreI := by
  rw [State.coreMask]
  cases s.coreI <;> cases s.coreF <;> rfl

theorem coreMask_getLsbD_zero (s : State) : s.coreMask.getLsbD 0 = s.coreF := by
  rw [State.coreMask]
  cases s.coreI <;> cases s.coreF <;> rfl

/-- The registers of `s` after `TRAP_IRQ`. -/
def irqEntered (s : State) : State :=
  { s with coreI := true, events := s.events ++ [.trap .irq s.coreMask s.trapTable[6]] }

/-- The trap, and the turn that starts the handler sequence. -/
theorem run_irqEntry (hirq : s.irqEnabled = true) (hagenda : s.agenda = .trap :: List.replicate (m + 1) .core ++ ag) :
    core.run (k + 2) s = core.run k (awaiting (irqEntered s) m ag
      ((if s.trapTable[6] = 0 then .serviceNormal else .external s.trapTable[6]) ::
        .issue (.excRestoreInts s.coreMask) :: .resume s.rsp s.callbacks :: s.code)) := by
  obtain ⟨hboundary, -⟩ := irqEnabled_iff.1 hirq
  have htrap : step s = .next (awaiting (irqEntered s) (m + 1) ag
      (.handler .irq s.coreMask s.trapTable[6] :: .resume s.rsp s.callbacks :: s.code)) :=
    (step_trap hagenda).trans (congrArg _ (trapMove_of_irq hirq))
  exact (run_succ _ htrap).trans (run_turn hboundary rfl)

/-- The restore of the saved mask, and the turn in which the preempted code has its response and callbacks back. -/
theorem run_trapReturn {saved : BitVec 2} {rsp : Option Response} {callbacks : List Token}
    (hboundary : u.atBoundary = true) :
    core.run 2 (awaiting u 2 ag (.issue (.excRestoreInts saved) :: .resume rsp callbacks :: code)) =
      .next { u with agenda := ag, code := code, coreI := saved.getLsbD 1, coreF := saved.getLsbD 0, busy := none,
                     rsp := rsp, callbacks := callbacks } := by
  obtain ⟨-, hactive⟩ := State.atBoundary_iff.1 hboundary
  have hrestored : ((u.restoreMask saved).respond .ok 0 0).atBoundary = true := State.atBoundary_iff.2 ⟨rfl, hactive⟩
  calc core.run 2 (awaiting u 2 ag (.issue (.excRestoreInts saved) :: .resume rsp callbacks :: code))
      = core.run 1 (awaiting ((u.restoreMask saved).respond .ok 0 0) 1 ag (.resume rsp callbacks :: code)) :=
        run_turn hboundary rfl
    _ = core.run 0 (awaiting { (u.restoreMask saved).respond .ok 0 0 with rsp := rsp, callbacks := callbacks } 0 ag
          code) := run_turn hrestored rfl

/-- Settles O51: the entry, the external code's turn, and the return. -/
theorem trapReturnRestoresMask : Obligations.TrapReturnRestoresMask := by
  unfold Obligations.TrapReturnRestoresMask
  intro s ag hirq hreplaced hext hagenda
  obtain ⟨hboundary, -⟩ := irqEnabled_iff.1 hirq
  obtain ⟨hbusy, -⟩ := State.atBoundary_iff.1 hboundary
  have hrun : (ran (irqEntered s) s.trapTable[6]).atBoundary = true := hboundary
  rw [run_irqEntry (m := 3) hirq hagenda, if_neg hreplaced, run_external (u := irqEntered s) hboundary hext,
    run_trapReturn hrun, coreMask_getLsbD_one, coreMask_getLsbD_zero, ← hbusy]
  rfl

/-! ### The normal service (R260) -/

/-- A source id below 32 is not the answer 0xFF of an idle controller (44_itc.md R206). -/
theorem sourceId_ne_none (hv : v < 32) : BitVec.ofNat 8 v ≠ 0xFF := by
  intro h
  have hmod : (BitVec.ofNat 8 v).toNat = 255 := congrArg BitVec.toNat h
  rw [BitVec.toNat_ofNat] at hmod
  omega

/-- The state after `ITC_SVC_N_ENTER` has selected source `v`. -/
def svcEntered (u : State) (v : Nat) : State :=
  { u with
    svcFloor := BitVec.ofNat 6 (u.params.prio v + 1), busy := none
    rsp := answer (BitVec.ofNat 8 v) (u.source v).handler }

theorem run_serviceNormal (hboundary : u.atBoundary = true) (hvec : u.nivector = some v) :
    core.run (k + 1) (awaiting u (m + 1) ag (.serviceNormal :: code)) =
      core.run k (awaiting (svcEntered u v) m ag (.serviceNormalEntered :: code)) :=
  run_turn hboundary (exec_itcSvcNEnter_some (s := awaiting u m ag (.serviceNormalEntered :: code)) hvec)

theorem run_serviceNormalEntered {aux : BitVec 8} (hboundary : u.atBoundary = true) (hrsp : u.rsp = answer aux token)
    (hsome : aux ≠ 0xFF) :
    core.run (k + 1) (awaiting u (m + 1) ag (.serviceNormalEntered :: code)) =
      core.run k (awaiting u m ag (.runHandler token :: .issue .itcSvcNReturn :: code)) := by
  have hlast : (awaiting u m ag code).lastRsp = ⟨.ok, aux, token⟩ := congrArg (Option.getD · _) hrsp
  refine run_turn hboundary ?_
  rw [runTask, hlast]
  exact if_neg hsome

theorem run_runHandler (hboundary : u.atBoundary = true) (hset : token ≠ 0) (hlow : token.toNat < 0xFFFFFF00) :
    core.run (k + 1) (awaiting u (m + 1) ag (.runHandler token :: code)) =
      core.run k (awaiting u m ag (.external token :: code)) :=
  run_turn hboundary (runHandler_of_external hset (.inl hlow))

theorem run_itcSvcNReturn (hboundary : u.atBoundary = true) :
    core.run (k + 1) (awaiting u (m + 1) ag (.issue .itcSvcNReturn :: code)) =
      core.run k (awaiting { u with svcFloor := 0, busy := none, rsp := answer 0 0 } m ag code) :=
  run_turn hboundary rfl

/-- The state after the service of source `v`, whose handler is external code that issues nothing. -/
def serviced (u : State) (v : Nat) : State :=
  { u with svcFloor := 0, busy := none, rsp := answer 0 0, invoked := u.invoked ++ [(u.source v).handler] }

/-- The five turns of the service, its handler external code that issues nothing. -/
theorem run_service (hboundary : u.atBoundary = true) (hvec : u.nivector = some v) (hv : v < 32)
    (hset : (u.source v).handler ≠ 0) (hlow : (u.source v).handler.toNat < 0xFFFFFF00) (hext : u.ext = []) :
    core.run (k + 5) (awaiting u (m + 5) ag (.serviceNormal :: code)) =
      core.run k (awaiting (serviced u v) m ag code) := by
  obtain ⟨-, hactive⟩ := State.atBoundary_iff.1 hboundary
  have hentered : (svcEntered u v).atBoundary = true := State.atBoundary_iff.2 ⟨rfl, hactive⟩
  have hrun : (ran (svcEntered u v) (u.source v).handler).atBoundary = true := hentered
  rw [run_serviceNormal hboundary hvec, run_serviceNormalEntered hentered rfl (sourceId_ne_none hv),
    run_runHandler hentered hset hlow, run_external hentered hext, run_itcSvcNReturn hrun]
  rfl

/-- Settles O52: the entry, the service of the selected source, which exists, and the return. -/
theorem defaultIrqRunsHandler : Obligations.DefaultIrqRunsHandler := by
  unfold Obligations.DefaultIrqRunsHandler
  intro s v ag hirq hdefault hvec h32 hset hlow hext hagenda
  obtain ⟨hboundary, -⟩ := irqEnabled_iff.1 hirq
  obtain ⟨hbusy, hactive⟩ := State.atBoundary_iff.1 hboundary
  obtain ⟨hv, -, -⟩ := pickMax_spec hvec
  have hserviced : (serviced (irqEntered s) v).atBoundary = true := State.atBoundary_iff.2 ⟨rfl, hactive⟩
  rw [run_irqEntry (m := 7) hirq hagenda, if_pos hdefault,
    run_service (u := irqEntered s) (m := 2) hboundary hvec (hv.trans_le h32) hset hlow hext,
    run_trapReturn hserviced, coreMask_getLsbD_one, coreMask_getLsbD_zero, ← hbusy, ← hdefault]
  rfl

end Sys2Proof.Proofs
end

