-- ==== Sys2Proof/Proofs/Reset.lean ====
section
/-!
PROOFS. The registers after reset (70_reset_and_hazards.md R280), for every value of the parameters.
-/

namespace Sys2Proof.Proofs

open Sys2Proof.Machine

/-! ### The records of R280 -/

@[simp] theorem ring_resetWith (P : Params) (r : Nat) : (State.resetWith P).ring r = Ring.reset :=
  List.getElem?_getD_replicate_default_eq _ _ _

@[simp] theorem port_resetWith (P : Params) (p : Nat) : (State.resetWith P).port p = Port.reset :=
  List.getElem?_getD_replicate_default_eq _ _ _

@[simp] theorem source_resetWith (P : Params) (i : Nat) : (State.resetWith P).source i = Source.reset :=
  List.getElem?_getD_replicate_default_eq _ _ _

theorem trapTable_resetWith (P : Params) (t : Fin 8) : (State.resetWith P).trapTable[t] = 0 :=
  Vector.getElem_replicate t.isLt

/-! ### No request while every source is disabled (44_itc.md R193) -/

section Disabled
variable {s : State} (hoff : ∀ i, (s.source i).enable = false)
include hoff

theorem pend_eq_false_of_disabled (i : Nat) : s.pend i = false := by
  rw [State.pend, hoff, Bool.and_false]

theorem irqReq_eq_false_of_disabled : s.irqReq = false := by
  have hpass : ∀ i, s.npass i = false := fun i => by
    rw [State.npass, State.nipend, pend_eq_false_of_disabled hoff, Bool.false_and, Bool.false_and]
  simp [State.irqReq, hpass]

theorem fiqReq_eq_false_of_disabled : s.fiqReq = false := by
  have hpend : ∀ i, s.fipend i = false := fun i => by
    rw [State.fipend, pend_eq_false_of_disabled hoff, Bool.false_and]
  simp [State.fiqReq, hpend]

end Disabled

theorem disabled_resetWith (P : Params) (i : Nat) : ((State.resetWith P).source i).enable = false :=
  congrArg Source.enable (source_resetWith P i)

/-- Settles O58: the counts and the records of the three register files, the trap table, and no request because reset
disables every source; the other registers are fields of the reset state. -/
theorem resetValues : Obligations.ResetValues := by
  unfold Obligations.ResetValues
  rintro P _ rfl
  have hrings : (State.resetWith P).nRings = 2 * P.nPorts := List.length_replicate
  have hports : (State.resetWith P).nPorts = P.nPorts := List.length_replicate
  have hsources : (State.resetWith P).nSrc = P.nSrc := List.length_replicate
  exact ⟨hrings, hports, hsources, ring_resetWith P, port_resetWith P, source_resetWith P, rfl, rfl, rfl,
    trapTable_resetWith P, fun _ => rfl, rfl, rfl, irqReq_eq_false_of_disabled (disabled_resetWith P),
    fiqReq_eq_false_of_disabled (disabled_resetWith P)⟩

end Sys2Proof.Proofs
end

