-- ==== Sys2Proof/Proofs/Forever.lean ====
section
/-!
PROOFS. What only reset undoes (70_reset_and_hazards.md R282): a bound ring stays bound and a Configured port stays
Configured, from every state, whether or not it meets the invariant.

`Keeps` says so of two states. It is reflexive and transitive, and only a write of a ring record or of a port record can
break it; each such write leaves the bit that counts as it is, or sets it. The core agent is dealt with apart: its turn
issues at most one command and itself touches neither file of records (`CoreTurn`).
-/

namespace Sys2Proof.Proofs

open Sys2Proof.Machine

variable {s t u : State}

/-- Every ring bound in `s` is bound in `t`, and every port Configured in `s` is Configured in `t`. -/
structure Keeps (s t : State) : Prop where
  bound : ∀ r, (s.ring r).bound = true → (t.ring r).bound = true
  configured : ∀ p, (s.port p).configured = true → (t.port p).configured = true

/-! ### A rule per state operation -/

namespace Keeps

theorem refl (s : State) : Keeps s s := ⟨fun _ h => h, fun _ h => h⟩

theorem trans (hst : Keeps s t) (htu : Keeps t u) : Keeps s u :=
  ⟨fun r h => htu.bound r (hst.bound r h), fun p h => htu.configured p (hst.configured p h)⟩

/-- Of the state only the two files of records matter. -/
theorem of_records (hrings : t.rings = s.rings) (hports : t.ports = s.ports) : Keeps s t where
  bound := fun r hr => by rwa [State.ring, hrings]
  configured := fun p hp => by rwa [port_eq_of_ports hports]

theorem setRing {r : Nat} {x : Ring} (h : Keeps s t) (hx : (t.ring r).bound = true → x.bound = true) :
    Keeps s (t.setRing r x) := by
  refine h.trans ⟨fun j hj => ?_, fun _ hp => hp⟩
  rw [t.ring_setRing]
  split
  next hr =>
    obtain ⟨rfl, -⟩ := hr
    exact hx hj
  next => exact hj

theorem setPort {p : Nat} {q : Port} (h : Keeps s t) (hq : (t.port p).configured = true → q.configured = true) :
    Keeps s (t.setPort p q) := by
  refine h.trans ⟨fun _ hr => hr, fun j hj => ?_⟩
  rw [t.port_setPort]
  split
  next hp =>
    obtain ⟨rfl, -⟩ := hp
    exact hq hj
  next => exact hj

theorem respond {st : Status} {aux : BitVec 8} {d : Word} (h : Keeps s t) : Keeps s (t.respond st aux d) :=
  h.trans (of_records rfl rfl)

theorem fail {st : Status} (h : Keeps s t) : Keeps s (t.fail st) := h.respond

theorem hold {i : Instr} (h : Keeps s t) : Keeps s (t.hold i) := h.trans (of_records rfl rfl)

theorem emit {e : Event} (h : Keeps s t) : Keeps s (t.emit e) := h.trans (of_records rfl rfl)

theorem setSource {i : Nat} {x : Source} (h : Keeps s t) : Keeps s (t.setSource i x) := h.trans (of_records rfl rfl)

theorem setPhase {p : Nat} {x : Phase} (h : Keeps s t) : Keeps s (t.setPhase p x) := h.setPort id

theorem endService {p : Nat} (h : Keeps s t) : Keeps s (t.endService p) := .respond (.setPhase h)

theorem ringInit {r : Nat} {base : Word} {cap : Half} (h : Keeps s t) : Keeps s (t.ringInit r base cap) :=
  h.setRing fun _ => rfl

theorem ringWrite {r : Nat} {v : Byte} (h : Keeps s t) : Keeps s (t.ringWrite r v).2 := by
  rcases t.ringWrite_cases r v with ⟨-, he⟩ | ⟨-, he⟩ <;> rw [he]
  · exact h
  · have hstored : Keeps s (t.writeByte ((t.ring r).slot (t.ring r).wr).toNat v) := h.trans (of_records rfl rfl)
    exact hstored.setRing id

theorem ringRead {r : Nat} (h : Keeps s t) : Keeps s (t.ringRead r).2.2 := by
  rcases t.ringRead_cases r with ⟨-, he⟩ | ⟨-, he⟩ <;> rw [he]
  · exact h
  · exact .setRing h id

theorem announce {p : Nat} {d : Dir} {token : Token} (h : Keeps s t) : Keeps s (t.announce p d token) := by
  rcases t.announce_cases p d token with ⟨-, he⟩ | ⟨-, he⟩ <;> rw [he]
  · exact h
  · exact h.trans (of_records rfl rfl)

/-- `UART_INIT` configures its port and binds its two rings (42_uart_seq.md R140). -/
theorem initPort {p : Nat} {baud : Word} (h : Keeps s t) : Keeps s (t.initPort p baud) :=
  .setSource (.ringInit (.ringInit (.emit (.setPort h fun _ => rfl))))

/-! ### The operand checks: the command fails, or goes on -/

section Operands
variable {sel : BitVec 8} {k : Nat → State}

theorem withRing (hk : ∀ r, Keeps s (k r)) : Keeps s (withRing sel s k) := by
  rcases withRing_cases (sel := sel) (s := s) (k := k) with ⟨-, he⟩ | ⟨-, he⟩ <;> rw [he]
  · exact (refl s).fail
  · exact hk _

theorem withPort (hk : ∀ p, Keeps s (k p)) : Keeps s (withPort sel s k) := by
  rcases withPort_cases (sel := sel) (s := s) (k := k) with ⟨-, he⟩ | ⟨-, he⟩ <;> rw [he]
  · exact (refl s).fail
  · exact hk _

theorem withConfigured (hk : ∀ p, Keeps s (k p)) : Keeps s (withConfigured sel s k) := by
  rcases withConfigured_cases (sel := sel) (s := s) (k := k) with ⟨-, he⟩ | ⟨-, -, he⟩ <;> rw [he]
  · exact (refl s).fail
  · exact hk _

theorem withSource (hk : ∀ i, Keeps s (k i)) : Keeps s (withSource sel s k) := by
  rcases withSource_cases (sel := sel) (s := s) (k := k) with ⟨-, he⟩ | ⟨-, he⟩ <;> rw [he]
  · exact (refl s).fail
  · exact hk _

theorem withTrap {k : Fin Config.nTraps → State} (hk : ∀ i, Keeps s (k i)) : Keeps s (withTrap sel s k) := by
  rcases withTrap_cases (sel := sel) (s := s) (kt := k) with ⟨-, he⟩ | ⟨_, he⟩ <;> rw [he]
  · exact (refl s).fail
  · exact hk _

end Operands

end Keeps

/-- Where an outcome is a next state, it keeps the bound rings and the Configured ports of `s`. -/
def NextKeeps (s : State) (o : Outcome) : Prop := ∀ t, o = .next t → Keeps s t

namespace NextKeeps

theorem next (h : Keeps s t) : NextKeeps s (.next t) := by
  rintro _ ⟨⟩
  exact h

theorem of_records {o : Outcome} (h : NextKeeps t o) (hrings : t.rings = s.rings) (hports : t.ports = s.ports) :
    NextKeeps s o :=
  fun u hu => (Keeps.of_records hrings hports).trans (h u hu)

end NextKeeps

/-! ### The commands -/

theorem answerVector_keeps (s : State) (v : Option Nat) : Keeps s (s.answerVector v) := by
  cases v <;> exact .of_records rfl rfl

theorem execCbInit_keeps (s : State) (sel : BitVec 8) (base : Word) (cap : Half) :
    NextKeeps s (execCbInit sel base cap s) := by
  refine .next (.withRing fun r => ?_)
  split
  · exact .fail (.refl s)
  · split
    · exact .fail (.refl s)
    · exact .respond (.ringInit (.refl s))

theorem execUartInit_keeps (s : State) (sel : BitVec 8) (baud name : Word) :
    NextKeeps s (execUartInit sel baud name s) := by
  refine .next (.withPort fun p => ?_)
  split
  · exact .fail (.refl s)
  · exact .respond (.initPort (.refl s))

theorem execUartTxfPut_keeps (s : State) (sel : BitVec 8) (v : Byte) : NextKeeps s (execUartTxfPut sel v s) := by
  refine .next (.withConfigured fun p => ?_)
  split
  · exact .respond (.setPort (.refl s) id)
  · exact .hold (.refl s)

theorem execUartRxfGet_keeps (s : State) (sel : BitVec 8) : NextKeeps s (execUartRxfGet sel s) := by
  refine .next (.withConfigured fun p => ?_)
  split
  · exact .respond (.setPort (.refl s) id)
  · exact .hold (.refl s)

theorem execUartIsr_keeps (s : State) (sel : BitVec 8) : NextKeeps s (execUartIsr sel s) :=
  .next (.withConfigured fun p =>
    (Keeps.setPort (p := p) (q := { s.port p with phase := .rxTest }) (.refl s) id).trans (.of_records rfl rfl))

theorem execItcSvcNEnter_keeps (s : State) : NextKeeps s (execItcSvcNEnter s) := by
  refine .next ?_
  split <;> exact .of_records rfl rfl

theorem execItcSvcF_keeps (s : State) : NextKeeps s (execItcSvcF s) := by
  refine .next ?_
  split <;> exact .of_records rfl rfl

/-- The commands by what they write: a ring record, a port record, or neither. -/
theorem exec_keeps (s : State) (i : Instr) : NextKeeps s (exec i s) := by
  cases i with
  | cbInit sel base cap => exact execCbInit_keeps s sel base cap
  | cbWrite => exact .next (.withRing fun _ => .respond (.ringWrite (.refl s)))
  | cbRead => exact .next (.withRing fun _ => .respond (.ringRead (.refl s)))
  | cbIsFull | cbIsEmpty => exact .next (.withRing fun _ => .respond (.refl s))
  | brgLoad => exact .next (.withPort fun _ => .respond (.setPort (.refl s) id))
  | brgRead => exact .next (.withPort fun _ => .respond (.refl s))
  | uartInit sel baud name => exact execUartInit_keeps s sel baud name
  | uartSetRxCb | uartSetTxCb | uartRxiSet | uartTxiSet =>
      exact .next (.withConfigured fun _ => .respond (.setPort (.refl s) id))
  | uartTxfPut sel v => exact execUartTxfPut_keeps s sel v
  | uartRxfGet sel => exact execUartRxfGet_keeps s sel
  | uartStatus => exact .next (.withConfigured fun _ => .respond (.refl s))
  | uartIsr sel => exact execUartIsr_keeps s sel
  | itcSetHandler | itcSetPriority | itcEnable | itcDisable | itcForce | itcUnforce =>
      exact .next (.withSource fun _ => .respond (.setSource (.refl s)))
  | itcReadNivec | itcReadFivec => exact .next (answerVector_keeps s _)
  | itcSvcNEnter => exact execItcSvcNEnter_keeps s
  | itcSvcF => exact execItcSvcF_keeps s
  | excSetHandler | excGetHandler => exact .next (.withTrap fun _ => .of_records rfl rfl)
  | itcInit | itcDisableInts | itcRestoreInts | itcSvcNReturn | excDisableIrq | excDisableFiq | excDisableInts
  | excRestoreIrq | excRestoreFiq | excRestoreInts => exact .next (.of_records rfl rfl)

/-! ### The core agent -/

/-- The ends of the core agent's turn from `s`: a command issued with the records as they are, a next state with the
records as they are, or a fault. -/
inductive CoreTurn (s : State) : Outcome → Prop
  | command (i : Instr) {u : State} (hrings : u.rings = s.rings) (hports : u.ports = s.ports) : CoreTurn s (exec i u)
  | quiet {t : State} (hrings : t.rings = s.rings) (hports : t.ports = s.ports) : CoreTurn s (.next t)
  | fault (r : Fault) : CoreTurn s (.fault r)

namespace CoreTurn
variable {o : Outcome}

theorem keeps (h : CoreTurn s o) : NextKeeps s o := by
  cases h with
  | command i hrings hports => exact (exec_keeps _ i).of_records hrings hports
  | quiet hrings hports => exact .next (.of_records hrings hports)
  | fault r => exact nofun

/-- Of the state the turn starts from only the two files of records matter. -/
theorem of_records (h : CoreTurn t o) (hrings : t.rings = s.rings) (hports : t.ports = s.ports) : CoreTurn s o := by
  cases h with
  | command i hrings' hports' => exact .command i (hrings'.trans hrings) (hports'.trans hports)
  | quiet hrings' hports' => exact .quiet (hrings'.trans hrings) (hports'.trans hports)
  | fault r => exact .fault r

theorem ite {c : Prop} [Decidable c] {x y : Outcome} (hx : CoreTurn s x) (hy : CoreTurn s y) :
    CoreTurn s (if c then x else y) := by
  split
  · exact hx
  · exact hy

theorem issueThen (s : State) (i : Instr) (task : Task) : CoreTurn s (issueThen i task s) := .command i rfl rfl

theorem onData {k : Word → Outcome} (hk : ∀ d, CoreTurn s (k d)) : CoreTurn s (onData s k) :=
  .ite (hk _) (.quiet rfl rfl)

theorem withBuffer {sel : BitVec 8} {buf : Word} {k : State → Outcome} (hk : CoreTurn s (k s)) :
    CoreTurn s (withBuffer sel buf s k) :=
  .ite (.quiet rfl rfl) (.ite (.quiet rfl rfl) hk)

theorem runWord (s : State) (w : Command) : CoreTurn s (runWord w s) := by
  rw [Machine.runWord]
  split
  · exact .command _ rfl rfl
  · exact .quiet rfl rfl

theorem runHandler (s : State) (h : Token) : CoreTurn s (runHandler h s) := by
  refine .ite (.quiet rfl rfl) ?_
  split
  · exact .command _ rfl rfl
  · exact .quiet rfl rfl

theorem runExternal (s : State) (token : Token) : CoreTurn s (.next (s.runExternal token)) := by
  rw [State.runExternal]
  split <;> exact .quiet rfl rfl

/-- The tasks by the shape of their one step. -/
theorem runTask (s : State) (task : Task) : CoreTurn s (runTask task s) := by
  have hissue := issueThen s
  unfold Machine.runTask
  cases task with
  | cmd w => exact runWord s w
  | issue i => exact .command i rfl rfl
  | sendByte | receiveByte | serviceNormal | serviceFast => exact hissue _ _
  | sendByteLoop | sendByteFlush | sendByteRestore | receiveByteMasked | receiveByteGot =>
      exact onData fun _ => hissue _ _
  | sendByteTest | receiveByteTest | sendLoop | receiveLoop | receiveTest =>
      exact onData fun _ => .ite (hissue _ _) (hissue _ _)
  | send | receive => exact withBuffer (hissue _ _)
  | sendTest => exact onData fun _ => .ite (hissue _ _) (.ite (.fault _) (hissue _ _))
  | receiveStore => exact onData fun _ => .ite (.fault _) (.quiet rfl rfl)
  | sendByteMasked | finish => exact onData fun _ => .quiet rfl rfl
  | handler cls => cases cls <;> exact .quiet rfl rfl
  | serviceNormalEntered | serviceFastEntered => exact .ite (.quiet rfl rfl) (.quiet rfl rfl)
  | runHandler h => exact runHandler s h
  | external token => exact runExternal s token
  | store | runCallbacks | resume => exact .quiet rfl rfl

end CoreTurn

/-- Nothing while a service runs, the command in progress, or the next task. -/
theorem coreMove_coreTurn (s : State) : CoreTurn s (coreMove s) := by
  rw [coreMove]
  split
  · exact .quiet rfl rfl
  · split
    · exact .command _ rfl rfl
    · split
      · exact .quiet rfl rfl
      · exact (CoreTurn.runTask _ _).of_records rfl rfl

/-! ### The other agents -/

theorem trapMove_keeps (s : State) : Keeps s s.trapMove := by
  rw [State.trapMove]
  split
  · exact .of_records rfl rfl
  · split <;> exact .of_records rfl rfl

theorem seqRxTest_keeps (s : State) (p : Nat) : Keeps s (s.seqRxTest p) := by
  rw [State.seqRxTest]
  split <;> exact .setPhase (.refl s)

theorem seqTxTest_keeps (s : State) (p : Nat) : Keeps s (s.seqTxTest p) := by
  rw [State.seqTxTest]
  split
  · exact .setPhase (.refl s)
  · exact .endService (.refl s)

/-- The six micro-steps, by the phase (42_uart_seq.md R163): none writes whether a port is Configured, and the ring
paths write only the indices of a ring and its full flag. -/
theorem seqStep_keeps (s : State) (p : Nat) : Keeps s (s.seqStep p) := by
  rw [State.seqStep]
  split
  next => exact .refl s
  next => exact seqRxTest_keeps s p
  next =>
    split
    next => exact .ringWrite (.setPort (.refl s) id)
    next => exact .setPort (.announce (.refl s)) id
  next => exact seqTxTest_keeps s p
  next =>
    split
    next => exact .setPort (.ringRead (.refl s)) id
    next => exact .endService (.setPort (.announce (.refl s)) id)

theorem seqMove_keeps (s : State) : Keeps s s.seqMove := by
  rw [State.seqMove]
  split
  next p _ => exact seqStep_keeps s p
  next => exact .refl s

theorem lineRx_keeps (s : State) (p : Nat) (v : Byte) : Keeps s (s.lineRx p v) := by
  rw [State.lineRx]
  split
  · exact .setPort (.refl s) id
  · exact .refl s

theorem lineTx_keeps (s : State) (p : Nat) : Keeps s (s.lineTx p) := by
  rw [State.lineTx]
  split
  · exact .emit (.setPort (.refl s) id)
  · exact .refl s

theorem extIrq_keeps (s : State) (src : Nat) (level : Bool) : Keeps s (s.extIrq src level) := by
  rw [State.extIrq]
  split
  · exact .refl s
  · exact .setSource (.refl s)

/-- A tick writes the accumulator of a port, or where it is not specified no register of the port (assumption 9). -/
theorem brgTick_keeps (s : State) (p : Nat) : Keeps s (s.brgTick p) := by
  rw [State.brgTick]
  dsimp only
  split
  · split
    · exact .emit (.setPort (.refl s) id)
    · exact .setPort (.refl s) id
  · split
    · split <;> exact .of_records rfl rfl
    · exact .refl s

/-! ### Every step -/

theorem performMove_keeps (s : State) (m : Move) : NextKeeps s (performMove m s) := by
  cases m with
  | core => exact (coreMove_coreTurn s).keeps
  | trap => exact .next (trapMove_keeps s)
  | seq => exact .next (seqMove_keeps s)
  | lineRx p v => exact .next (lineRx_keeps s p v)
  | lineTx p => exact .next (lineTx_keeps s p)
  | extIrq src level => exact .next (extIrq_keeps s src level)
  | brgTick p => exact .next (brgTick_keeps s p)

/-- Settles O57: the step is the move of one agent, and every move keeps what is bound and Configured. -/
theorem boundAndConfiguredForever : Obligations.BoundAndConfiguredForever := by
  unfold Obligations.BoundAndConfiguredForever
  intro s t hstep
  obtain ⟨m, ag, hmove⟩ := step_eq_performMove s
  have hkeeps : Keeps { s with agenda := ag } t := performMove_keeps _ m t (hmove.symm.trans hstep)
  exact ⟨hkeeps.bound, hkeeps.configured⟩

end Sys2Proof.Proofs
end
